-- ==== Sys2Proof/Config.lean ====
section
/-! DEFINITION. What an implementation of the FHE-NTT engine fixes (00_scope.md R6) and the values the spec leaves
open (93_implementation_defined.md), each an uninterpreted constant that nothing in Lean can evaluate. -/

namespace Sys2Proof.Config

/-- The four implementation parameters of R6. "A model takes them as arguments": `exec` and `step` have a fixed type, so
the state carries them as data and no step changes them (log entry 1). -/
structure Params where
  /-- `CW`, the width in bits of every register value and coefficient. -/
  cw : Nat
  /-- `NBUF`, the number of polynomial buffers. -/
  nbuf : Nat
  /-- `LOGN_MAX`; a buffer has `N_MAX = 2^LOGN_MAX` coefficients. -/
  lognMax : Nat
  /-- `L_MAX`, the largest chain index. -/
  lMax : Nat
deriving DecidableEq, Repr

/-- The default parameters of R6. -/
def Params.standard : Params := { cw := 256, nbuf := 8, lognMax := 12, lMax := 15 }

/-- The legal parameter values of R6. -/
abbrev Params.Legal (p : Params) : Prop :=
  p.cw % 32 = 0 ∧ 64 ≤ p.cw ∧ p.cw ≤ 512 ∧ 1 ≤ p.nbuf ∧ p.nbuf ≤ 16 ∧ p.lognMax ≤ 16 ∧ p.lMax ≤ 15

/-- I9, I10: the word of the `n`-th bus read whose answer the spec leaves unspecified (log entry 4). -/
opaque freeWord (n : Nat) : BitVec 32

/-- I8: what scalar register `i` holds after the reset that drew the free value number `n` (log entry 3). -/
opaque freeScalar (n i : Nat) : Int

/-- I8: what coefficient `j` of buffer `b` holds after the reset that drew the free value number `n` (log entry 3). -/
opaque freeCoeff (n b j : Nat) : Int

end Sys2Proof.Config
end

