-- ==== Sys2Proof/Word.lean ====
section
/-! DEFINITION. The word types of the host bus. -/

namespace Sys2Proof

/-- A 32-bit bus word, and a command word (30_encoding.md R90). -/
abbrev Word := BitVec 32

/-- A byte offset in the engine's window of 0x0800_0000 bytes (20_memory.md R60): 27 bits reach exactly the window. -/
abbrev Offset := BitVec 27

end Sys2Proof
end

