-- ==== Sys2Proof/Syntax.lean ====
section
/-! DEFINITION. The commands of the FHE-NTT command set: one constructor per row of spec/opcode_table.json, with its
operands in the order of the assembler syntax (30_encoding.md R100, R114). -/

namespace Sys2Proof

/-- The index of a scalar register `S[i]` (R93): always in range. -/
abbrev SReg := Fin 16

/-- The index of a polynomial buffer `P[i]` (R93). An index `≥ NBUF` names no buffer; it can be encoded and raises
BADOPND when the command is performed. -/
abbrev PBuf := Fin 16

/-- The modulus selector (R101). -/
inductive ModSel where
  /-- `%t`, the plaintext modulus. -/
  | t
  /-- `%q<i>`, a chain prime. -/
  | q (i : Fin 16)
  /-- `%Q<i>`, a chain modulus. -/
  | bigQ (i : Fin 16)
  /-- `%s<i>`, a scalar register used as a modulus. -/
  | s (i : SReg)
  /-- The reserved selector values 0x01 to 0x0F; performing a command with one raises BADMOD 1 (R102). -/
  | reserved (v : Fin 16)
deriving DecidableEq, Repr

/-- One command (R103). -/
inductive Instr where
  | nop
  | pbuild
  | findprime (rd nb m : SReg)
  | findprimes (rd : PBuf) (nb m : SReg) (qty : BitVec 8)
  | modinv (rd n : SReg) (ms : ModSel)
  | modred (rd x : SReg) (ms : ModSel)
  | modctr (rd x : SReg) (ms : ModSel)
  | rndmul (rd x num den : SReg) (ms : ModSel)
  | root (rd : SReg) (ms : ModSel) (k : BitVec 8)
  | modget (rd : SReg) (ms : ModSel)
  | pzero (rd : PBuf)
  | pcopy (rd a : PBuf)
  | pred (rd a : PBuf) (ms : ModSel)
  | pctr (rd a : PBuf) (ms : ModSel)
  | paddm (rd a b : PBuf) (ms : ModSel)
  | psubm (rd a b : PBuf) (ms : ModSel)
  | pnegm (rd a : PBuf) (ms : ModSel)
  | pscalm (rd a : PBuf) (c : SReg) (ms : ModSel)
  | pmulew (rd a b : PBuf) (ms : ModSel)
  | prndmul (rd a : PBuf) (num den : SReg) (ms : ModSel)
  | pmul (rd a b : PBuf)
  | pmulm (rd a b : PBuf) (ms : ModSel)
  | nttf (rd a : PBuf) (ms : ModSel)
  | ntti (rd a : PBuf) (ms : ModSel)
deriving DecidableEq, Repr

end Sys2Proof
end

