-- ==== Sys2Proof/WellFormed.lean ====
section
/-! DEFINITION. Well-formed commands: those that some command word stands for. The operand types bound every index and
immediate (R93, R94), so the one thing left to check is that a reserved selector is one of 0x01 to 0x0F (R101). -/

namespace Sys2Proof

/-- A reserved selector value is not 0: 0x00 is `%t` (R101). -/
def ModSel.wellFormed : ModSel → Bool
  | .reserved v => v.val != 0
  | .t | .q _ | .bigQ _ | .s _ => true

/-- The modulus selector of a command, for the commands whose ms column in R100 is not `z`. -/
def Instr.selector? : Instr → Option ModSel
  | .nop | .pbuild | .findprime .. | .findprimes .. | .pzero .. | .pcopy .. | .pmul .. => none
  | .modinv _ _ ms | .modred _ _ ms | .modctr _ _ ms | .rndmul _ _ _ _ ms | .root _ ms _ | .modget _ ms
  | .pred _ _ ms | .pctr _ _ ms | .paddm _ _ _ ms | .psubm _ _ _ ms | .pnegm _ _ ms | .pscalm _ _ _ ms
  | .pmulew _ _ _ ms | .prndmul _ _ _ _ ms | .pmulm _ _ _ ms | .nttf _ _ ms | .ntti _ _ ms => some ms

/-- A command that some command word encodes. -/
def Instr.wellFormed (i : Instr) : Bool :=
  match i.selector? with
  | none => true
  | some ms => ms.wellFormed

end Sys2Proof
end

