-- ==== Sys2Proof/Decode.lean ====
section
/-! DEFINITION. The decoder and the encoder of command words (30_encoding.md R90 to R105). The decoder is total: every
word is one command or one of the two ILLEGAL errors (R104). -/

namespace Sys2Proof

/-- Why a word is no command; performing it raises ILLEGAL with this sub-cause (R104, R250). -/
inductive DecodeError where
  /-- ILLEGAL 1: the opcode is not assigned. -/
  | unassignedOpcode
  /-- ILLEGAL 2: a reserved-zero field is nonzero. -/
  | reservedField
deriving DecidableEq, Repr

/-- The `len`-bit field of `w` whose least significant bit is bit `lo` (R9). -/
def bitsAt (w : Word) (lo len : Nat) : Nat := w.toNat / 2 ^ lo % 2 ^ len

/-- op, bits 31:26 (R91). -/
def opField (w : Word) : Nat := bitsAt w 26 6

/-- ms, bits 25:20, as a number. -/
def msField (w : Word) : Nat := bitsAt w 20 6

/-- A 4-bit index field (R93). -/
def indexAt (w : Word) (lo : Nat) : Fin 16 := ⟨bitsAt w lo 4, Nat.mod_lt _ (by decide)⟩

/-- rd, bits 19:16. -/
def rdField (w : Word) : Fin 16 := indexAt w 16

/-- rs1, bits 15:12. -/
def rs1Field (w : Word) : Fin 16 := indexAt w 12

/-- rs2, bits 11:8. -/
def rs2Field (w : Word) : Fin 16 := indexAt w 8

/-- rs3, bits 7:4. -/
def rs3Field (w : Word) : Fin 16 := indexAt w 4

/-- imm8, bits 7:0 (R94). -/
def imm8Field (w : Word) : BitVec 8 := BitVec.ofNat 8 (bitsAt w 0 8)

/-- Which selector a 6-bit ms value is (R101). -/
def selOfBits (n : Nat) : ModSel :=
  let low : Fin 16 := ⟨n % 16, Nat.mod_lt _ (by decide)⟩
  match n / 16 with
  | 0 => if n = 0 then .t else .reserved low
  | 1 => .q low
  | 2 => .bigQ low
  | _ => .s low

/-- The modulus selector of a word. -/
def selField (w : Word) : ModSel := selOfBits (msField w)

/-- Is the field a reserved-zero field that holds zero (R95)? -/
def zeroAt (w : Word) (lo len : Nat) : Bool := bitsAt w lo len == 0

/-- R95: the command, unless one of its reserved-zero fields is nonzero. -/
def ifReservedZero (ok : Bool) (i : Instr) : Except DecodeError Instr :=
  if ok then .ok i else .error .reservedField

/-- R103, R104: the opcode alone selects the command; then its reserved-zero fields (R100) are checked. -/
def decode (w : Word) : Except DecodeError Instr :=
  let zMs := zeroAt w 20 6
  let zRd := zeroAt w 16 4
  let zRs1 := zeroAt w 12 4
  let zRs2 := zeroAt w 8 4
  let zRs3 := zeroAt w 4 4
  let zLow := zeroAt w 0 4
  match opField w with
  | 0x01 => ifReservedZero (zMs && zRd && zRs1 && zRs2 && zRs3 && zLow) .nop
  | 0x02 => ifReservedZero (zMs && zRd && zRs1 && zRs2 && zRs3 && zLow) .pbuild
  | 0x08 => ifReservedZero (zMs && zRs3 && zLow) (.findprime (rdField w) (rs1Field w) (rs2Field w))
  | 0x09 => ifReservedZero zMs (.findprimes (rdField w) (rs1Field w) (rs2Field w) (imm8Field w))
  | 0x0A => ifReservedZero (zRs2 && zRs3 && zLow) (.modinv (rdField w) (rs1Field w) (selField w))
  | 0x0B => ifReservedZero (zRs2 && zRs3 && zLow) (.modred (rdField w) (rs1Field w) (selField w))
  | 0x0C => ifReservedZero (zRs2 && zRs3 && zLow) (.modctr (rdField w) (rs1Field w) (selField w))
  | 0x0D => ifReservedZero zLow (.rndmul (rdField w) (rs1Field w) (rs2Field w) (rs3Field w) (selField w))
  | 0x0E => ifReservedZero (zRs1 && zRs2) (.root (rdField w) (selField w) (imm8Field w))
  | 0x0F => ifReservedZero (zRs1 && zRs2 && zRs3 && zLow) (.modget (rdField w) (selField w))
  | 0x10 => ifReservedZero (zMs && zRs1 && zRs2 && zRs3 && zLow) (.pzero (rdField w))
  | 0x11 => ifReservedZero (zMs && zRs2 && zRs3 && zLow) (.pcopy (rdField w) (rs1Field w))
  | 0x12 => ifReservedZero (zRs2 && zRs3 && zLow) (.pred (rdField w) (rs1Field w) (selField w))
  | 0x13 => ifReservedZero (zRs2 && zRs3 && zLow) (.pctr (rdField w) (rs1Field w) (selField w))
  | 0x14 => ifReservedZero (zRs3 && zLow) (.paddm (rdField w) (rs1Field w) (rs2Field w) (selField w))
  | 0x15 => ifReservedZero (zRs3 && zLow) (.psubm (rdField w) (rs1Field w) (rs2Field w) (selField w))
  | 0x16 => ifReservedZero (zRs2 && zRs3 && zLow) (.pnegm (rdField w) (rs1Field w) (selField w))
  | 0x17 => ifReservedZero (zRs3 && zLow) (.pscalm (rdField w) (rs1Field w) (rs2Field w) (selField w))
  | 0x18 => ifReservedZero (zRs3 && zLow) (.pmulew (rdField w) (rs1Field w) (rs2Field w) (selField w))
  | 0x19 => ifReservedZero zLow (.prndmul (rdField w) (rs1Field w) (rs2Field w) (rs3Field w) (selField w))
  | 0x20 => ifReservedZero (zMs && zRs3 && zLow) (.pmul (rdField w) (rs1Field w) (rs2Field w))
  | 0x21 => ifReservedZero (zRs3 && zLow) (.pmulm (rdField w) (rs1Field w) (rs2Field w) (selField w))
  | 0x22 => ifReservedZero (zRs2 && zRs3 && zLow) (.nttf (rdField w) (rs1Field w) (selField w))
  | 0x23 => ifReservedZero (zRs2 && zRs3 && zLow) (.ntti (rdField w) (rs1Field w) (selField w))
  | _ => .error .unassignedOpcode

/-- The 6-bit ms value of a selector (R101). -/
def selBits : ModSel → Nat
  | .t => 0
  | .reserved v => v.val
  | .q i => 0x10 + i.val
  | .bigQ i => 0x20 + i.val
  | .s i => 0x30 + i.val

/-- Format R (R91). -/
def formatR (op ms rd rs1 rs2 rs3 : Nat) : Word :=
  BitVec.ofNat 32 (op * 2 ^ 26 + ms * 2 ^ 20 + rd * 2 ^ 16 + rs1 * 2 ^ 12 + rs2 * 2 ^ 8 + rs3 * 2 ^ 4)

/-- Format I (R92). -/
def formatI (op ms rd rs1 rs2 imm8 : Nat) : Word :=
  BitVec.ofNat 32 (op * 2 ^ 26 + ms * 2 ^ 20 + rd * 2 ^ 16 + rs1 * 2 ^ 12 + rs2 * 2 ^ 8 + imm8)

/-- The command word of a command (R91, R92, R100, R103). -/
def encode : Instr → Word
  | .nop => formatR 0x01 0 0 0 0 0
  | .pbuild => formatR 0x02 0 0 0 0 0
  | .findprime rd nb m => formatR 0x08 0 rd nb m 0
  | .findprimes rd nb m qty => formatI 0x09 0 rd nb m qty.toNat
  | .modinv rd n ms => formatR 0x0A (selBits ms) rd n 0 0
  | .modred rd x ms => formatR 0x0B (selBits ms) rd x 0 0
  | .modctr rd x ms => formatR 0x0C (selBits ms) rd x 0 0
  | .rndmul rd x num den ms => formatR 0x0D (selBits ms) rd x num den
  | .root rd ms k => formatI 0x0E (selBits ms) rd 0 0 k.toNat
  | .modget rd ms => formatR 0x0F (selBits ms) rd 0 0 0
  | .pzero rd => formatR 0x10 0 rd 0 0 0
  | .pcopy rd a => formatR 0x11 0 rd a 0 0
  | .pred rd a ms => formatR 0x12 (selBits ms) rd a 0 0
  | .pctr rd a ms => formatR 0x13 (selBits ms) rd a 0 0
  | .paddm rd a b ms => formatR 0x14 (selBits ms) rd a b 0
  | .psubm rd a b ms => formatR 0x15 (selBits ms) rd a b 0
  | .pnegm rd a ms => formatR 0x16 (selBits ms) rd a 0 0
  | .pscalm rd a c ms => formatR 0x17 (selBits ms) rd a c 0
  | .pmulew rd a b ms => formatR 0x18 (selBits ms) rd a b 0
  | .prndmul rd a num den ms => formatR 0x19 (selBits ms) rd a num den
  | .pmul rd a b => formatR 0x20 0 rd a b 0
  | .pmulm rd a b ms => formatR 0x21 (selBits ms) rd a b 0
  | .nttf rd a ms => formatR 0x22 (selBits ms) rd a 0 0
  | .ntti rd a ms => formatR 0x23 (selBits ms) rd a 0 0

/-- The bus word whose byte at offset `k` carries bits `[8k+7 : 8k]`: little-endian (20_memory.md R62). -/
def wordOfBytes (b0 b1 b2 b3 : BitVec 8) : Word :=
  BitVec.ofNat 32 (b0.toNat + b1.toNat * 2 ^ 8 + b2.toNat * 2 ^ 16 + b3.toNat * 2 ^ 24)

/-- The byte of a bus word that travels at offset `k` (R62). -/
def byteOfWord (w : Word) (k : Nat) : BitVec 8 := BitVec.ofNat 8 (bitsAt w (8 * k) 8)

/-- What the decoder reads from the table word `w` of `nbits` bits: its four bytes in the bus's byte order, then decoded.
Every command is one 32-bit word (R90). -/
def decodeTableWord (nbits w : Nat) : Option Instr :=
  let word : Word := BitVec.ofNat 32 (w % 2 ^ nbits)
  match decode (wordOfBytes (byteOfWord word 0) (byteOfWord word 1) (byteOfWord word 2) (byteOfWord word 3)) with
  | .ok i => some i
  | .error _ => none

end Sys2Proof
end

