-- ==== Sys2Proof/Machine/State.lean ====
section
/-! DEFINITION. The state of the engine as plain data (10_state.md), its state after reset (R37), and the ways a step can
stop: there are none, since every accepted command completes (70_reset_and_hazards.md R319) and every bus access has a
defined effect (92_eei_decisions.md D7). -/

namespace Sys2Proof.Machine

/-- The first `N_MAX` coefficients of one polynomial buffer (R24), sparse: (index, value) pairs with indices strictly
rising and no value 0. An index that is not listed holds 0 (log entry 2). -/
abbrev Buf := List (Nat × Int)

/-- The canonical form of a buffer, so that equal buffers are equal data: strictly rising indices, no listed zero. -/
abbrev Buf.Canonical (b : Buf) : Prop :=
  b.Pairwise (fun x y => x.1 < y.1) ∧ ∀ e ∈ b, e.2 ≠ 0

/-- The parameter set, which only PBUILD writes (R25, R34). -/
structure ParamSet where
  /-- The plaintext modulus. -/
  t : Int
  /-- The chain primes. `q[i]` exists for `i ≤ L_MAX`; a place above it stays 0. -/
  q : Vector Int 16
  /-- The chain moduli `Q[i] = q[0] · … · q[i]`; places above `L_MAX` as for `q`. -/
  bigQ : Vector Int 16
  pLogn : Word
  pChain : Word
  pSigma : Word
deriving DecidableEq, Repr

/-- The configuration registers, the inputs of PBUILD (R33). -/
structure CfgRegs where
  logn : Word
  pbits : Word
  cbits : Word
  chain : Word
  sigma : Word
deriving DecidableEq, Repr

/-- The control and status registers (R26 to R32). STATUS.BUSY is not stored: it is 1 exactly while a command is pending
(R35). ID and CAPS are constants (R31). -/
structure Csr where
  /-- CTRL.IE. -/
  ie : Bool
  /-- CTRL.TIE. -/
  tie : Bool
  /-- STATUS.DONE. -/
  done : Bool
  /-- STATUS.ERR. -/
  err : Bool
  /-- STATUS.PVALID. -/
  pvalid : Bool
  /-- STATUS.AERR. -/
  aerr : Bool
  /-- STATUS.HAZ. -/
  haz : Bool
  cmd : Word
  ecmd : Word
  ecause : Word
  ccount : Word
deriving DecidableEq, Repr

/-- The width of a bus access (20_memory.md R61). -/
inductive Width where
  | bits8
  | bits16
  | bits32
  | bits64
  | burst
deriving DecidableEq, Repr

/-- What happens next at the engine's boundary (20_memory.md R76, 60_exceptions.md R264): the host's accesses and the
platform's reset input come in the order of a schedule, and between any two of them the engine may get its turn. -/
inductive Turn where
  /-- The engine performs the pending command, if there is one. -/
  | engine
  /-- The host reads at an offset of the window. -/
  | read (width : Width) (offset : Offset)
  /-- The host writes at an offset of the window. -/
  | write (width : Width) (offset : Offset) (data : Word)
  /-- The platform drives the reset input (70_reset_and_hazards.md R300). -/
  | resetPin (asserted : Bool)
deriving DecidableEq, Repr

/-- The state. The first eight fields are the spec's (10_state.md R21, R35; 70_reset_and_hazards.md R300); the last four
are the model's own: the implementation parameters (log entry 1), the schedule and the answer of the last bus read (log
entry 6), and the number of the next free value (log entries 3 and 4). -/
structure State where
  /-- `S[0]` to `S[15]` (R23). -/
  scalars : Vector Int 16
  /-- `P[0]` to `P[NBUF-1]` (R24); a place `≥ NBUF` names no buffer and stays empty. -/
  bufs : Vector Buf 16
  /-- T, q, Q, P_LOGN, P_CHAIN, P_SIGMA. -/
  par : ParamSet
  /-- CFG_LOGN to CFG_SIGMA. -/
  cfg : CfgRegs
  /-- CTRL, STATUS, CMD, ECMD, ECAUSE, CCOUNT. -/
  csr : Csr
  /-- The pending command (R35). -/
  pending : Option Word
  /-- Is the reset input asserted (R300)? -/
  resetPin : Bool
  /-- The word the last bus read returned to the host. -/
  busData : Word
  params : Config.Params
  /-- What the host and the platform do from here on; once it is used up, only the engine has turns. -/
  schedule : List Turn
  /-- The number of the next free value. -/
  freeCount : Nat
deriving DecidableEq, Repr

/-- No parameter set: every parameter register 0 (R37). -/
def ParamSet.zero : ParamSet :=
  { t := 0, q := Vector.replicate 16 0, bigQ := Vector.replicate 16 0, pLogn := 0, pChain := 0, pSigma := 0 }

/-- Every configuration register 0 (R37). -/
def CfgRegs.zero : CfgRegs := { logn := 0, pbits := 0, cbits := 0, chain := 0, sigma := 0 }

/-- CTRL, STATUS, CMD, ECMD, ECAUSE and CCOUNT all 0 (R37). -/
def Csr.zero : Csr :=
  { ie := false, tie := false, done := false, err := false, pvalid := false, aerr := false, haz := false
    cmd := 0, ecmd := 0, ecause := 0, ccount := 0 }

/-- The machine after reset (R37), with the default parameters (R6). R37 leaves S and P unspecified; here they hold 0
(log entry 2). -/
def State.reset : State :=
  { scalars := Vector.replicate 16 0
    bufs := Vector.replicate 16 []
    par := ParamSet.zero
    cfg := CfgRegs.zero
    csr := Csr.zero
    pending := none
    resetPin := false
    busData := 0
    params := Config.Params.standard
    schedule := []
    freeCount := 0 }

/-- Why the machine stops with a fault: it never does. A command that fails takes its error entry (60_exceptions.md R256)
and a bad bus access sets AERR or HAZ (R254), so no meaning raises a fault and there is no constructor (safe). -/
inductive Fault where
deriving DecidableEq, Repr

/-- Why an instruction has no meaning. -/
inductive Refusal where
  /-- Raised by an arm of `exec` for an instruction without a meaning; no arm raises it, every command has its meaning
  (safe: the machine stops). -/
  | notModelled (mnemonic : String)
deriving DecidableEq, Repr

/-- What a step or a meaning answers. -/
abbrev Outcome := Host.Outcome State Fault Refusal

/-- The error codes of 60_exceptions.md R250. -/
inductive ErrCode where
  | illegal
  | badopnd
  | noparam
  | badmod
  | domain
  | overflow
  | param
  /-- Reserved for a self-check; no command raises it (R250, I18). -/
  | internal
deriving DecidableEq, Repr

/-- `raise E(sub, idx)` (00_scope.md R13). -/
structure CmdError where
  code : ErrCode
  sub : BitVec 8
  idx : BitVec 8
deriving DecidableEq, Repr

end Sys2Proof.Machine
end

