-- ==== Sys2Proof/Machine/Arith.lean ====
section
/-! DEFINITION. The exact integer arithmetic of the commands (00_scope.md R9 to R11; 40_number_theory.md; 41_polymul.md;
43_ntt.md): all of it over unbounded integers, checked only when a value is stored (R10). -/

namespace Sys2Proof.Machine

/-- `LIMIT = 2^(CW-1) - 1` (R7). -/
def limit (p : Config.Params) : Nat := 2 ^ (p.cw - 1) - 1

/-- `MINV = -2^(CW-1)` (R7). -/
def minv (p : Config.Params) : Int := -(2 ^ (p.cw - 1) : Nat)

/-- Is `v` a value a CW-bit register holds (R7)? -/
def fits (p : Config.Params) (v : Int) : Bool := decide (minv p ≤ v) && decide (v ≤ limit p)

/-- `N_MAX` (R7). -/
def nMax (p : Config.Params) : Nat := 2 ^ p.lognMax

/-- `WPS` (R7). -/
def wps (p : Config.Params) : Nat := p.cw / 32

/-- The CW-bit pattern of a value, `v mod 2^CW` (R9). -/
def pattern (p : Config.Params) (v : Int) : Nat := (v % (2 ^ p.cw : Nat)).toNat

/-- `sext_CW`: the value of a CW-bit pattern (R9). -/
def signedOf (p : Config.Params) (pat : Nat) : Int :=
  if 2 ^ (p.cw - 1) ≤ pat then (pat : Int) - (2 ^ p.cw : Nat) else pat

/-- `v` read as a CW-bit signed value. -/
def wrap (p : Config.Params) (v : Int) : Int := signedOf p (pattern p v)

/-- `f 0 + … + f (n-1)` (R14). -/
def sumTo : Nat → (Nat → Int) → Int
  | 0, _ => 0
  | n + 1, f => sumTo n f + f n

/-- Does `ok` hold of every `j < n`? -/
def allBelow : Nat → (Nat → Bool) → Bool
  | 0, _ => true
  | n + 1, ok => allBelow n ok && ok n

/-- No divisor of `n` from `d` on up to the square root of `n`; `fuel` bounds the candidates. -/
def noDivisorFrom : Nat → Nat → Nat → Bool
  | 0, _, _ => true
  | fuel + 1, d, n => if n < d * d then true else if n % d == 0 then false else noDivisorFrom fuel (d + 1) n

/-- `Prime(n)` (R11), exact (40_number_theory.md R123). -/
def isPrime (n : Nat) : Bool := decide (2 ≤ n) && noDivisorFrom n 2 n

/-- The scan of FNPS (R120) from candidate `c`: the first `need` primes among `c`, `c + m`, …, or none where a candidate
passes `top`; `fuel` bounds the candidates. -/
def scanPrimes (top m : Nat) : Nat → Nat → Nat → Option (List Nat)
  | _, _, 0 => some []
  | 0, _, _ + 1 => none
  | fuel + 1, c, need + 1 =>
    if top < c then none
    else if isPrime c then (scanPrimes top m fuel (c + m) need).map (c :: ·)
    else scanPrimes top m fuel (c + m) (need + 1)

/-- The first candidate of the scan, `m · ceil((2^nb - 1) / m) + 1` (R120). -/
def firstCandidate (nb m : Nat) : Nat := m * ((2 ^ nb - 1 + (m - 1)) / m) + 1

/-- `FNPS(nb, m, qty)` (R120), for `m ≥ 1` and `qty ≥ 1`. For `nb ≥ CW - 1` the first candidate is above LIMIT (R122), so
the answer FAIL needs no power of two computed. -/
def primeSearch (p : Config.Params) (nb m qty : Nat) : Option (List Nat) :=
  if p.cw - 1 ≤ nb then none
  else scanPrimes (limit p) m (limit p + 1) (firstCandidate nb m) qty

/-- `b^e mod m` by repeated squaring; `fuel` bounds the bits of `e`. -/
def powModFuel : Nat → Nat → Nat → Nat → Nat
  | 0, _, _, m => 1 % m
  | fuel + 1, b, e, m =>
    if e = 0 then 1 % m
    else if e % 2 = 0 then powModFuel fuel (b * b % m) (e / 2) m
    else b * powModFuel fuel (b * b % m) (e / 2) m % m

/-- `b^e mod m` (R14). -/
def powMod (b e m : Nat) : Nat := powModFuel e b e m

/-- The extended Euclidean algorithm on the remainders `r0`, `r1` with cofactors `s0`, `s1`: the cofactor of the last
nonzero remainder. -/
def euclidCofactor : Nat → Nat → Nat → Int → Int → Int
  | 0, _, _, s0, _ => s0
  | fuel + 1, r0, r1, s0, s1 =>
    if r1 = 0 then s0 else euclidCofactor fuel r1 (r0 % r1) s1 (s0 - (r0 / r1 : Nat) * s1)

/-- `INV(n, m)` (R125): the inverse of `n` modulo `m`, by the extended Euclidean algorithm. -/
def inverse (n m : Nat) : Nat := (euclidCofactor (m + 1) m (n % m) 0 1 % m).toNat

/-- `RED(x, m)` (R133). -/
def red (x m : Int) : Int := x % m

/-- `CTR(x, m)` (R135). -/
def ctr (x m : Int) : Int :=
  if 2 * (x % m) > m then x % m - m else x % m

/-- `RNM(X / D, b, tie)` (R130) for an integer `X` and `D > 0`, in the form without fractions that R130 gives. -/
def roundMultiple (X D b : Int) (tie : Bool) : Int :=
  let k0 := X / (D * b)
  let twice := 2 * (X - k0 * (D * b))
  let k :=
    if twice < D * b then k0
    else if D * b < twice then k0 + 1
    else if tie && k0 % 2 == 0 then k0
    else k0 + 1
  k * b

/-- `RNM(x · num / den, b, tie)` for `den ≠ 0`; a negative `den` gives its sign to the numerator (R131). -/
def roundScaled (x num den b : Int) (tie : Bool) : Int :=
  if den < 0 then roundMultiple (-(x * num)) (-den) b tie else roundMultiple (x * num) den b tie

/-- `NEGA(a, b, N)[k]` (41_polymul.md R150): for each `i`, the one `j < N` with `i + j = k` adds, the one with
`i + j = k + N` subtracts. -/
def negacyclic (a b : Nat → Int) (n k : Nat) : Int :=
  sumTo n fun i => if i ≤ k then a i * b (k - i) else -(a i * b (k + n - i))

/-- The smallest `c` from `c` on with `c^(2^k) mod m = m - 1`, among the next `fuel`; 0 if there is none. -/
def rootFrom (m k : Nat) : Nat → Nat → Nat
  | 0, _ => 0
  | fuel + 1, c => if powMod c (2 ^ k) m == m - 1 then c else rootFrom m k fuel (c + 1)

/-- `ψ(m, k)` (43_ntt.md R190), for a prime `m` with `m ≡ 1 (mod 2^(k+1))`. -/
def canonicalRoot (m k : Nat) : Nat := rootFrom m k (m - 1) 1

/-- `NTT(a, q, N)[i]` (R193) for the root `psi`. -/
def nttPoint (psi : Nat) (a : Nat → Int) (q n i : Nat) : Int :=
  sumTo n (fun j => a j % q * powMod psi ((2 * i + 1) * j) q) % q

/-- `NTT(a, q, 2^k)` (R193). -/
def ntt (a : Nat → Int) (q k : Nat) : Nat → Int := nttPoint (canonicalRoot q k) a q (2 ^ k)

/-- `INTT(A, q, N)[j]` (R195) for the inverse root `psiInv`. -/
def inttPoint (psiInv : Nat) (a : Nat → Int) (q n j : Nat) : Int :=
  inverse n q * sumTo n (fun i => a i % q * powMod psiInv ((2 * i + 1) * j) q) % q

/-- `INTT(A, q, 2^k)` (R195). -/
def intt (a : Nat → Int) (q k : Nat) : Nat → Int := inttPoint (inverse (canonicalRoot q k) q) a q (2 ^ k)

/-- `rq[0] · … · rq[i]` (42_parameters.md R170, step 3). -/
def chainProduct (primes : List Nat) (i : Nat) : Nat := (primes.take (i + 1)).prod

end Sys2Proof.Machine
end

