-- ==== Sys2Proof/Machine/Buf.lean ====
section
/-! DEFINITION. Reading and writing polynomial buffers (10_state.md R24) in their canonical sparse form. -/

namespace Sys2Proof.Machine

/-- `f 0`, …, `f 15` in the sixteen places of a register file. -/
def sixteen {α : Type} (f : Nat → α) : Vector α 16 :=
  #v[f 0, f 1, f 2, f 3, f 4, f 5, f 6, f 7, f 8, f 9, f 10, f 11, f 12, f 13, f 14, f 15]

/-- Coefficient `j` of a buffer. -/
def Buf.get : Buf → Nat → Int
  | [], _ => 0
  | (k, v) :: rest, j => if k = j then v else Buf.get rest j

/-- The canonical entries of `f lo`, …, `f (lo + count - 1)`. -/
def Buf.entries (f : Nat → Int) : Nat → Nat → Buf
  | _, 0 => []
  | lo, count + 1 => if f lo = 0 then Buf.entries f (lo + 1) count else (lo, f lo) :: Buf.entries f (lo + 1) count

/-- The buffer with coefficient `j` replaced by `f j` for every `lo ≤ j < lo + count`, and no other changed. -/
def Buf.splice (b : Buf) (lo count : Nat) (f : Nat → Int) : Buf :=
  b.filter (fun e => e.1 < lo) ++ Buf.entries f lo count ++ b.filter (fun e => lo + count ≤ e.1)

/-- The buffer with its first `count` coefficients replaced by those of `src`. -/
def Buf.overlay (b src : Buf) (count : Nat) : Buf :=
  src.filter (fun e => e.1 < count) ++ b.filter (fun e => count ≤ e.1)

end Sys2Proof.Machine
end

