-- ==== Sys2Proof/Machine/Flags.lean ====
section
/-! DEFINITION. The status flags and the words that carry them (10_state.md R26, R27, R30, R31, R36): the engine has no
condition codes, its only flags are the STATUS bits. -/

namespace Sys2Proof.Machine

/-- One flag at bit `i` of a word. -/
def flagAt (i : Nat) (b : Bool) : Word := if b then BitVec.ofNat 32 (2 ^ i) else 0

/-- Bit `i` of a word (00_scope.md R9). -/
def bitOf (w : Word) (i : Nat) : Bool := w.getLsbD i

/-- STATUS.BUSY: 1 exactly while a command is pending (R35). -/
def State.busy (s : State) : Bool := s.pending.isSome

/-- The STATUS word (R26). -/
def State.statusWord (s : State) : Word :=
  flagAt 0 s.busy ||| flagAt 1 s.csr.done ||| flagAt 2 s.csr.err ||| flagAt 3 s.csr.pvalid ||| flagAt 4 s.csr.aerr |||
    flagAt 5 s.csr.haz

/-- The CTRL word: SRST reads as 0 (R27). -/
def State.ctrlWord (s : State) : Word := flagAt 0 s.csr.ie ||| flagAt 1 s.csr.tie

/-- The IRQ output (R36). -/
def State.irq (s : State) : Bool := s.csr.ie && s.csr.done

/-- The ID register (R31). -/
def idWord : Word := 0x4E545401

/-- The CAPS register (R31). -/
def capsWord (p : Config.Params) : Word :=
  BitVec.ofNat 32 (wps p + (p.nbuf - 1) * 2 ^ 8 + p.lognMax * 2 ^ 12 + p.lMax * 2 ^ 20)

/-- ECODE (60_exceptions.md R250). -/
def codeBits : ErrCode → Nat
  | .illegal => 1
  | .badopnd => 2
  | .noparam => 3
  | .badmod => 4
  | .domain => 5
  | .overflow => 6
  | .param => 7
  | .internal => 8

/-- The ECAUSE word of an error (R30, R256). -/
def ecauseWord (e : CmdError) : Word :=
  BitVec.ofNat 32 (e.idx.toNat * 2 ^ 16 + e.sub.toNat * 2 ^ 8 + codeBits e.code)

/-- STATUS.AERR set (20_memory.md R70). -/
def Csr.withAerr (c : Csr) : Csr := { c with aerr := true }

/-- STATUS.HAZ set (20_memory.md R71). -/
def Csr.withHaz (c : Csr) : Csr := { c with haz := true }

/-- A host write of `w` to STATUS: each W1C bit written 1 is cleared; BUSY, PVALID and the reserved bits ignore the write
(R26). Writing 1 to bit 2 is the return from an error (60_exceptions.md R259). -/
def Csr.writeStatus (c : Csr) (w : Word) : Csr :=
  { c with
    done := c.done && !bitOf w 1
    err := c.err && !bitOf w 2
    aerr := c.aerr && !bitOf w 4
    haz := c.haz && !bitOf w 5 }

/-- A host write of `w` to CTRL without SRST: while BUSY = 1 the tie mode cannot change, and trying to sets HAZ (R27). -/
def Csr.writeCtrl (c : Csr) (busy : Bool) (w : Word) : Csr :=
  { c with
    ie := bitOf w 0
    tie := if busy then c.tie else bitOf w 1
    haz := c.haz || (busy && (bitOf w 1 != c.tie)) }

/-- Completion of a command, successful or not: DONE is set and CCOUNT counts it (R32, R35). -/
def Csr.completed (c : Csr) : Csr := { c with done := true, ccount := c.ccount + 1 }

/-- Acceptance of a command: CMD holds it and DONE is cleared (R28). -/
def Csr.accepted (c : Csr) (w : Word) : Csr := { c with cmd := w, done := false }

end Sys2Proof.Machine
end

