-- ==== Sys2Proof/Machine/Ops.lean ====
section
/-! DEFINITION. The operations the commands share: reading and writing scalar registers and buffers, and the end of a
command, by success (60_exceptions.md R258) or by error entry (R256), with the return from an error (R259). -/

namespace Sys2Proof.Machine

/-- `raise E(sub)` (00_scope.md R13). -/
def raised (code : ErrCode) (sub : BitVec 8) : CmdError := { code := code, sub := sub, idx := 0 }

/-- `S[i]` (R12). -/
def State.scalar (s : State) (i : SReg) : Int := s.scalars[i]

/-- `P[b]` as a function of the coefficient's index (R12). -/
def State.coeff (s : State) (b : PBuf) (j : Nat) : Int := (s.bufs[b]).get j

/-- `S[rd] <- v` (R12), for a value that fits. -/
def State.writeScalar (s : State) (rd : SReg) (v : Int) : State := { s with scalars := s.scalars.set rd v }

/-- `P[rd][j] <- f j` for every `j < n`, for values that fit; the other coefficients are unchanged (R12). -/
def State.writeLanes (s : State) (rd : PBuf) (n : Nat) (f : Nat → Int) : State :=
  { s with bufs := s.bufs.set rd ((s.bufs[rd]).splice 0 n f) }

/-- The first `n` coefficients of `P[rd]` become those of `src`; the other coefficients are unchanged. -/
def State.copyLanes (s : State) (rd : PBuf) (n : Nat) (src : Buf) : State :=
  { s with bufs := s.bufs.set rd ((s.bufs[rd]).overlay src n) }

/-- `S[rd] <- v` of a command whose result may not fit CW bits: then OVERFLOW 1 (00_scope.md R10, R250). -/
def State.storeScalar (s : State) (rd : SReg) (v : Int) : Except CmdError State :=
  if fits s.params v then .ok (s.writeScalar rd v) else .error (raised .overflow 1)

/-- `P[rd][j] <- f j` for every `j < n` of a command whose results may not fit: where one does not, OVERFLOW 1 and no lane
is written (44_elementwise.md R209). -/
def State.storeLanes (s : State) (rd : PBuf) (n : Nat) (f : Nat → Int) : Except CmdError State :=
  if allBelow n (fun j => fits s.params (f j)) then .ok (s.writeLanes rd n f) else .error (raised .overflow 1)

/-- The command word being performed: the pending one (R35); `exec` asked about a state without one reads CMD, which holds
the last accepted word (R28). -/
def State.commandWord (s : State) : Word := s.pending.getD s.csr.cmd

/-- Error entry (R256): ECMD, ECAUSE, ERR, DONE, CCOUNT and the pending command change, and nothing else. -/
def State.enterError (s : State) (e : CmdError) : State :=
  { s with
    csr := { s.csr.completed with err := true, ecmd := s.commandWord, ecause := ecauseWord e }
    pending := none }

/-- Return from an error: the host writes `w` to STATUS with bit 2 = 1 (R259). -/
def State.returnFromError (s : State) (w : Word) : State := { s with csr := s.csr.writeStatus w }

/-- Successful completion (R258) of a command whose writes are already in `s`. -/
def State.complete (s : State) : State := { s with csr := s.csr.completed, pending := none }

/-- The end of a command: `r` is the state with all its writes committed, or the error it raised. A command that raises
commits nothing (R257): its error entry starts from the state `s` it began in. -/
def State.retire (s : State) (r : Except CmdError State) : Outcome :=
  match r with
  | .ok committed => .next committed.complete
  | .error e => .next (s.enterError e)

end Sys2Proof.Machine
end

