-- ==== Sys2Proof/Machine/Reset.lean ====
section
/-! DEFINITION. Reset inside a run (70_reset_and_hazards.md R300, R301): the state change the two resets share, the soft
reset and the reset input. -/

namespace Sys2Proof.Machine

/-- Every register at its value of 10_state.md R37. The scalar registers and the coefficients are unspecified after a reset
(R303): each holds a free CW-bit value, stable from here on. -/
def State.resetValues (s : State) : State :=
  { s with
    scalars := sixteen fun i => wrap s.params (Config.freeScalar s.freeCount i)
    bufs := sixteen fun b =>
      if b < s.params.nbuf then Buf.entries (fun j => wrap s.params (Config.freeCoeff s.freeCount b j)) 0 (nMax s.params)
      else []
    par := ParamSet.zero
    cfg := CfgRegs.zero
    csr := Csr.zero
    pending := none
    freeCount := s.freeCount + 1 }

/-- Soft reset, the effect of a CTRL write with SRST = 1 (R301). -/
def State.softReset (s : State) : State := s.resetValues

/-- The platform drives the reset input (R300): asserting it discards the pending command, and when it is deasserted every
register takes its reset value (log entry 7). -/
def State.driveReset (s : State) (asserted : Bool) : State :=
  if asserted then { s with pending := none, resetPin := true }
  else if s.resetPin then { s.resetValues with resetPin := false }
  else s

end Sys2Proof.Machine
end

