-- ==== Sys2Proof/Machine/Bus.lean ====
section
/-! DEFINITION. The host bus window (20_memory.md): the address map, and the effect of every read and write. -/

namespace Sys2Proof.Machine

/-- The registers that live in a 64-byte slot (R63). -/
inductive Slot where
  | scalar (i : SReg)
  | t
  | q (i : Fin 16)
  | bigQ (i : Fin 16)
  | coeff (b : PBuf) (j : Nat)
deriving DecidableEq, Repr

/-- The configuration registers (10_state.md R33). -/
inductive CfgName where
  | logn
  | pbits
  | cbits
  | chain
  | sigma
deriving DecidableEq, Repr

/-- What an aligned offset names (R66). -/
inductive Loc where
  | id
  | ctrl
  | status
  | cmd
  | ecmd
  | ecause
  | ccount
  | caps
  | cfg (name : CfgName)
  | pLogn
  | pChain
  | pSigma
  /-- Word `k` of a slot (R63). -/
  | word (slot : Slot) (k : Nat)
  | unmapped
deriving DecidableEq, Repr

/-- The control and status registers, by word index (R66). -/
def csrAt (word : Nat) : Loc :=
  match word with
  | 0 => .id
  | 1 => .ctrl
  | 2 => .status
  | 3 => .cmd
  | 4 => .ecmd
  | 5 => .ecause
  | 6 => .ccount
  | 7 => .caps
  | 8 => .cfg .logn
  | 9 => .cfg .pbits
  | 10 => .cfg .cbits
  | 11 => .cfg .chain
  | 12 => .cfg .sigma
  | 13 => .pLogn
  | 14 => .pChain
  | 15 => .pSigma
  | _ => .unmapped

/-- The index of the slot of a sixteen-slot region at distance `d` from its base. -/
def slotIndex (d : Nat) : Fin 16 := ⟨d / 0x40 % 16, Nat.mod_lt _ (by decide)⟩

/-- Which buffer's window the offset lies in (R67). -/
def bufIndex (off : Nat) : PBuf := ⟨(off - 0x01000000) / 0x00400000 % 16, Nat.mod_lt _ (by decide)⟩

/-- Which coefficient's slot the offset lies in (R67). -/
def coeffIndex (off : Nat) : Nat := (off - 0x01000000) % 0x00400000 / 0x40

/-- The address map (R66, R67). -/
def locate (p : Config.Params) (off : Nat) : Loc :=
  let k := off % 0x40 / 4
  if off < 0x40 then csrAt (off / 4)
  else if off < 0x1000 then .unmapped
  else if off < 0x1400 then .word (.scalar (slotIndex (off - 0x1000))) k
  else if off < 0x2000 then .unmapped
  else if off < 0x2040 then .word .t k
  else if off < 0x2100 then .unmapped
  else if off < 0x2500 then
    if (slotIndex (off - 0x2100)).val ≤ p.lMax then .word (.q (slotIndex (off - 0x2100))) k else .unmapped
  else if off < 0x2900 then
    if (slotIndex (off - 0x2500)).val ≤ p.lMax then .word (.bigQ (slotIndex (off - 0x2500))) k else .unmapped
  else if off < 0x01000000 then .unmapped
  else if off < 0x05000000 then
    if (bufIndex off).val < p.nbuf ∧ coeffIndex off < nMax p then .word (.coeff (bufIndex off) (coeffIndex off)) k
    else .unmapped
  else .unmapped

/-- The value a slot holds. -/
def State.slotValue (s : State) : Slot → Int
  | .scalar i => s.scalar i
  | .t => s.par.t
  | .q i => s.par.q[i]
  | .bigQ i => s.par.bigQ[i]
  | .coeff b j => s.coeff b j

/-- Word `k` of the slot of a value: below WPS a word of its pattern, above it the sign fill (R63). -/
def wordOfValue (p : Config.Params) (v : Int) (k : Nat) : Word :=
  if k < wps p then BitVec.ofNat 32 (pattern p v / 2 ^ (32 * k))
  else if v < 0 then 0xFFFFFFFF else 0

/-- The value with word `k` of its pattern replaced (R64). -/
def valueWithWord (p : Config.Params) (v : Int) (k : Nat) (w : Word) : Int :=
  let pat := pattern p v
  signedOf p (pat - pat / 2 ^ (32 * k) % 2 ^ 32 * 2 ^ (32 * k) + w.toNat * 2 ^ (32 * k))

/-- A configuration register. -/
def CfgRegs.get (c : CfgRegs) : CfgName → Word
  | .logn => c.logn
  | .pbits => c.pbits
  | .cbits => c.cbits
  | .chain => c.chain
  | .sigma => c.sigma

/-- A configuration register replaced. -/
def CfgRegs.put (c : CfgRegs) (name : CfgName) (w : Word) : CfgRegs :=
  match name with
  | .logn => { c with logn := w }
  | .pbits => { c with pbits := w }
  | .cbits => { c with cbits := w }
  | .chain => { c with chain := w }
  | .sigma => { c with sigma := w }

/-- The word at a location (R65, R66); an unmapped one reads 0 (R69). -/
def State.wordAt (s : State) : Loc → Word
  | .id => idWord
  | .ctrl => s.ctrlWord
  | .status => s.statusWord
  | .cmd => s.csr.cmd
  | .ecmd => s.csr.ecmd
  | .ecause => s.csr.ecause
  | .ccount => s.csr.ccount
  | .caps => capsWord s.params
  | .cfg name => s.cfg.get name
  | .pLogn => s.par.pLogn
  | .pChain => s.par.pChain
  | .pSigma => s.par.pSigma
  | .word slot k => wordOfValue s.params (s.slotValue slot) k
  | .unmapped => 0

/-- The locations a read of which is unspecified and sets HAZ while BUSY = 1 (R71 a). -/
def Loc.guardedRead : Loc → Bool
  | .word _ _ | .pLogn | .pChain | .pSigma => true
  | .id | .ctrl | .status | .cmd | .ecmd | .ecause | .ccount | .caps | .cfg _ | .unmapped => false

/-- Is the access malformed (R61)? -/
def malformed (width : Width) (offset : Offset) : Bool := decide (width ≠ .bits32) || offset.toNat % 4 != 0

/-- STATUS.AERR set (R70). -/
def State.busError (s : State) : State := { s with csr := s.csr.withAerr }

/-- STATUS.HAZ set (R71). -/
def State.hazard (s : State) : State := { s with csr := s.csr.withHaz }

/-- A read that answers an unspecified word: the next free one (I9, I10). -/
def State.answerFree (s : State) : State :=
  { s with busData := Config.freeWord s.freeCount, freeCount := s.freeCount + 1 }

/-- A host read (R61, R65, R69 to R72); the word it returns is left in `busData`. -/
def State.hostRead (s : State) (width : Width) (offset : Offset) : State :=
  if s.resetPin then s.answerFree
  else if malformed width offset then { s.busError with busData := 0 }
  else
    let loc := locate s.params offset.toNat
    if loc = .unmapped then { s.busError with busData := 0 }
    else if s.busy && loc.guardedRead then s.hazard.answerFree
    else { s with busData := s.wordAt loc }

/-- The command word `w` becomes pending (10_state.md R28, R35). -/
def State.accept (s : State) (w : Word) : State := { s with csr := s.csr.accepted w, pending := some w }

/-- A write to CMD (10_state.md R28): acceptance while BUSY = 0 and ERR = 0, else the write is dropped and HAZ set. -/
def State.writeCmd (s : State) (w : Word) : State :=
  if s.busy || s.csr.err then s.hazard else s.accept w

/-- A write to CTRL (10_state.md R27): SRST = 1 resets whatever else the word says (R301). -/
def State.writeCtrl (s : State) (w : Word) : State :=
  if bitOf w 2 then s.softReset else { s with csr := s.csr.writeCtrl s.busy w }

/-- A write that has no effect of its own sets HAZ while BUSY = 1 (70_reset_and_hazards.md R310, item 2). -/
def State.ignoreWrite (s : State) : State := if s.busy then s.hazard else s

/-- A write to word `k` of a slot. At `k ≥ WPS` it is ignored without AERR, in a read-only slot too (R63, I22; log entry 5);
below, it replaces the word (R64) or sets AERR (R70). While BUSY = 1 it is ignored and sets HAZ, beside the AERR of a read-only
slot (R71, 70_reset_and_hazards.md R310; log entry 15). -/
def State.writeSlot (s : State) (slot : Slot) (k : Nat) (w : Word) : State :=
  if wps s.params ≤ k then s.ignoreWrite
  else
    match slot with
    | .scalar i => if s.busy then s.hazard else s.writeScalar i (valueWithWord s.params (s.scalar i) k w)
    | .coeff b j =>
      if s.busy then s.hazard
      else { s with bufs := s.bufs.set b ((s.bufs[b]).splice j 1 (fun _ => valueWithWord s.params (s.coeff b j) k w)) }
    | .t | .q _ | .bigQ _ => s.busError.ignoreWrite

/-- A well-formed write of `w` to a location (R66, R69 to R71). -/
def State.writeAt (s : State) (loc : Loc) (w : Word) : State :=
  match loc with
  | .id | .ecmd | .ecause | .caps | .unmapped => s.busError
  | .pLogn | .pChain | .pSigma => s.busError.ignoreWrite
  | .ctrl => s.writeCtrl w
  | .status => s.returnFromError w
  | .cmd => s.writeCmd w
  | .ccount => if s.busy then s.hazard else { s with csr := { s.csr with ccount := w } }
  | .cfg name => if s.busy then s.hazard else { s with cfg := s.cfg.put name w }
  | .word slot k => s.writeSlot slot k w

/-- A host write (R61, R64, R69 to R72). -/
def State.hostWrite (s : State) (width : Width) (offset : Offset) (w : Word) : State :=
  if s.resetPin then s
  else if malformed width offset then s.busError
  else s.writeAt (locate s.params offset.toNat) w

end Sys2Proof.Machine
end

