-- ==== Sys2Proof/Machine/Operands.lean ====
section
/-! DEFINITION. The operand checks every command shares, in the order of 60_exceptions.md R252: buffer indices, PN, the
modulus selector and its class (30_encoding.md R100 to R102). -/

namespace Sys2Proof.Machine

/-- `PN = 2^P_LOGN` (10_state.md R34). -/
def State.pn (s : State) : Nat := 2 ^ s.par.pLogn.toNat

/-- `raise e` unless `ok`. -/
def require (ok : Bool) (e : CmdError) : Except CmdError Unit := if ok then .ok () else .error e

/-- BADOPND `sub` unless the buffer exists (R251). -/
def State.needBuffer (s : State) (sub : BitVec 8) (b : PBuf) : Except CmdError Unit :=
  require (decide (b.val < s.params.nbuf)) (raised .badopnd sub)

/-- NOPARAM unless PVALID = 1: the check of the commands that act on PN coefficients (R251). -/
def State.needPn (s : State) : Except CmdError Unit := require s.csr.pvalid (raised .noparam 0)

/-- `i ≤ PL`, where `PL = P_CHAIN - 1` (R34). -/
def State.chainHas (s : State) (i : Fin 16) : Bool := decide (i.val + 1 ≤ s.par.pChain.toNat)

/-- `M(ms)` with the selector checks 1 to 3 of R102: BADMOD 1, NOPARAM, BADMOD 2. -/
def State.selected (s : State) (ms : ModSel) : Except CmdError Int :=
  match ms with
  | .reserved _ => .error (raised .badmod 1)
  | .t => do
    s.needPn
    return s.par.t
  | .q i => do
    s.needPn
    require (s.chainHas i) (raised .badmod 2)
    return s.par.q[i]
  | .bigQ i => do
    s.needPn
    require (s.chainHas i) (raised .badmod 2)
    return s.par.bigQ[i]
  | .s i => return s.scalar i

/-- Class `mod`: `M(ms) ≥ 2`, else BADMOD 3 (R102). -/
def State.modulus (s : State) (ms : ModSel) : Except CmdError Int := do
  let m ← s.selected ms
  require (decide (2 ≤ m)) (raised .badmod 3)
  return m

/-- The value checks of the classes `ntt` and `root`: `M(ms) ≥ 2`, prime, and 1 modulo `order` (R102): BADMOD 3, 4, 5. -/
def State.primeModulus (s : State) (ms : ModSel) (order : Nat) : Except CmdError Nat := do
  let m ← s.modulus ms
  require (isPrime m.toNat) (raised .badmod 4)
  require (m.toNat % order == 1) (raised .badmod 5)
  return m.toNat

/-- Class `ntt`: prime and 1 modulo `2·PN` (R102). -/
def State.nttModulus (s : State) (ms : ModSel) : Except CmdError Nat := s.primeModulus ms (2 * s.pn)

/-- Class `root`: prime and 1 modulo `2^(k+1)` (R102, 43_ntt.md R191). -/
def State.rootModulus (s : State) (ms : ModSel) (k : Nat) : Except CmdError Nat := s.primeModulus ms (2 ^ (k + 1))

/-- Class `b`: `M(ms) ≥ 1`, else DOMAIN 2 (R102). -/
def State.multiple (s : State) (ms : ModSel) : Except CmdError Int := do
  let b ← s.selected ms
  require (decide (0 < b)) (raised .domain 2)
  return b

end Sys2Proof.Machine
end

