-- ==== Sys2Proof/Machine/Elementwise.lean ====
section
/-! DEFINITION. Data movement, coefficient-wise reduction and arithmetic, and NOP (44_elementwise.md). -/

namespace Sys2Proof.Machine

/-- R209 for one source buffer and a modulus of class `mod`: `P[rd][j] <- f (P[a][j]) m` for every `j < PN`. -/
def State.mapLanes (s : State) (rd a : PBuf) (ms : ModSel) (f : Int → Int → Int) : Except CmdError State := do
  s.needBuffer 1 rd
  s.needBuffer 2 a
  s.needPn
  let m ← s.modulus ms
  return s.writeLanes rd s.pn (fun j => f (s.coeff a j) m)

/-- R209 for two source buffers and a modulus of class `mod`: `P[rd][j] <- f (P[a][j]) (P[b][j]) mod m`. -/
def State.zipLanes (s : State) (rd a b : PBuf) (ms : ModSel) (f : Int → Int → Int) : Except CmdError State := do
  s.needBuffer 1 rd
  s.needBuffer 2 a
  s.needBuffer 3 b
  s.needPn
  let m ← s.modulus ms
  return s.writeLanes rd s.pn (fun j => red (f (s.coeff a j) (s.coeff b j)) m)

/-- NOP (R221). -/
def execNop (s : State) : Outcome := s.retire (.ok s)

/-- PZERO (R210): the empty buffer's coefficients are all 0. -/
def execPzero (rd : PBuf) (s : State) : Outcome :=
  s.retire do
    s.needBuffer 1 rd
    return s.copyLanes rd (nMax s.params) []

/-- PCOPY (R211). -/
def execPcopy (rd a : PBuf) (s : State) : Outcome :=
  s.retire do
    s.needBuffer 1 rd
    s.needBuffer 2 a
    return s.copyLanes rd (nMax s.params) s.bufs[a]

/-- PRED (R212). -/
def execPred (rd a : PBuf) (ms : ModSel) (s : State) : Outcome := s.retire (s.mapLanes rd a ms red)

/-- PCTR (R213). -/
def execPctr (rd a : PBuf) (ms : ModSel) (s : State) : Outcome := s.retire (s.mapLanes rd a ms ctr)

/-- PADDM (R214). -/
def execPaddm (rd a b : PBuf) (ms : ModSel) (s : State) : Outcome :=
  s.retire (s.zipLanes rd a b ms (fun x y => x + y))

/-- PSUBM (R215). -/
def execPsubm (rd a b : PBuf) (ms : ModSel) (s : State) : Outcome :=
  s.retire (s.zipLanes rd a b ms (fun x y => x - y))

/-- PNEGM (R216). -/
def execPnegm (rd a : PBuf) (ms : ModSel) (s : State) : Outcome :=
  s.retire (s.mapLanes rd a ms (fun x m => red (-x) m))

/-- PSCALM (R217). -/
def execPscalm (rd a : PBuf) (c : SReg) (ms : ModSel) (s : State) : Outcome :=
  s.retire (s.mapLanes rd a ms (fun x m => red (s.scalar c * x) m))

/-- PMULEW (R218). -/
def execPmulew (rd a b : PBuf) (ms : ModSel) (s : State) : Outcome :=
  s.retire (s.zipLanes rd a b ms (fun x y => x * y))

/-- PRNDMUL (R219). -/
def execPrndmul (rd a : PBuf) (num den : SReg) (ms : ModSel) (s : State) : Outcome :=
  s.retire do
    s.needBuffer 1 rd
    s.needBuffer 2 a
    s.needPn
    let b ← s.multiple ms
    require (decide (s.scalar den ≠ 0)) (raised .domain 3)
    s.storeLanes rd s.pn (fun j => roundScaled (s.coeff a j) (s.scalar num) (s.scalar den) b s.csr.tie)

end Sys2Proof.Machine
end

