-- ==== Sys2Proof/Machine/Ntt.lean ====
section
/-! DEFINITION. The NTT transform engine (43_ntt.md): ROOT, NTTF, NTTI. -/

namespace Sys2Proof.Machine

/-- ROOT (R191). -/
def execRoot (rd : SReg) (ms : ModSel) (k : BitVec 8) (s : State) : Outcome :=
  s.retire do
    require (decide (k.toNat ≤ s.params.lognMax)) (raised .badopnd 6)
    let m ← s.rootModulus ms k.toNat
    return s.writeScalar rd (canonicalRoot m k.toNat)

/-- NTTF (R194). -/
def execNttf (rd a : PBuf) (ms : ModSel) (s : State) : Outcome :=
  s.retire do
    s.needBuffer 1 rd
    s.needBuffer 2 a
    s.needPn
    let q ← s.nttModulus ms
    return s.writeLanes rd s.pn (ntt (s.coeff a) q s.par.pLogn.toNat)

/-- NTTI (R196). -/
def execNtti (rd a : PBuf) (ms : ModSel) (s : State) : Outcome :=
  s.retire do
    s.needBuffer 1 rd
    s.needBuffer 2 a
    s.needPn
    let q ← s.nttModulus ms
    return s.writeLanes rd s.pn (intt (s.coeff a) q s.par.pLogn.toNat)

end Sys2Proof.Machine
end

