-- ==== Sys2Proof/Machine/NumberTheory.lean ====
section
/-! DEFINITION. The number-theory commands (40_number_theory.md): FINDPRIME, FINDPRIMES, MODINV, RNDMUL, MODRED, MODCTR. -/

namespace Sys2Proof.Machine

/-- The prime search of FINDPRIME and FINDPRIMES with its checks: PARAM 8, PARAM 9, OVERFLOW 1 (R122, R124). -/
def State.findPrimes (s : State) (nb m : SReg) (qty : Nat) : Except CmdError (List Nat) := do
  require (decide (0 ≤ s.scalar nb)) (raised .param 8)
  require (decide (0 < s.scalar m)) (raised .param 9)
  match primeSearch s.params (s.scalar nb).toNat (s.scalar m).toNat qty with
  | some primes => return primes
  | none => .error (raised .overflow 1)

/-- FINDPRIME (R122). -/
def execFindprime (rd nb m : SReg) (s : State) : Outcome :=
  s.retire do
    let primes ← s.findPrimes nb m 1
    return s.writeScalar rd (primes.getD 0 0)

/-- FINDPRIMES (R124). -/
def execFindprimes (rd : PBuf) (nb m : SReg) (qty : BitVec 8) (s : State) : Outcome :=
  s.retire do
    s.needBuffer 1 rd
    require (decide (1 ≤ qty.toNat) && decide (qty.toNat ≤ min 255 (nMax s.params))) (raised .badopnd 5)
    let primes ← s.findPrimes nb m qty.toNat
    return s.writeLanes rd qty.toNat (fun j => primes.getD j 0)

/-- MODINV (R126). -/
def execModinv (rd n : SReg) (ms : ModSel) (s : State) : Outcome :=
  s.retire do
    let m ← s.modulus ms
    let r := (s.scalar n % m).toNat
    require (Nat.gcd r m.toNat == 1) (raised .domain 1)
    return s.writeScalar rd (inverse r m.toNat)

/-- MODRED (R134). -/
def execModred (rd x : SReg) (ms : ModSel) (s : State) : Outcome :=
  s.retire do
    let m ← s.modulus ms
    return s.writeScalar rd (red (s.scalar x) m)

/-- MODCTR (R136). -/
def execModctr (rd x : SReg) (ms : ModSel) (s : State) : Outcome :=
  s.retire do
    let m ← s.modulus ms
    return s.writeScalar rd (ctr (s.scalar x) m)

/-- RNDMUL (R131). -/
def execRndmul (rd x num den : SReg) (ms : ModSel) (s : State) : Outcome :=
  s.retire do
    let b ← s.multiple ms
    require (decide (s.scalar den ≠ 0)) (raised .domain 3)
    s.storeScalar rd (roundScaled (s.scalar x) (s.scalar num) (s.scalar den) b s.csr.tie)

end Sys2Proof.Machine
end

