-- ==== Sys2Proof/Machine/Parameters.lean ====
section
/-! DEFINITION. Parameter construction (42_parameters.md): PBUILD, MODGET. -/

namespace Sys2Proof.Machine

/-- Step 4 of PBUILD for the chain index `i`: `Q_i > t`, else PARAM(6, i); `gcd(t, Q_i) = 1`, else PARAM(7, i) (R170). -/
def checkChainAt (t : Nat) (primes : List Nat) (i : Nat) : Except CmdError Unit := do
  require (decide (t < chainProduct primes i)) { code := .param, sub := 6, idx := BitVec.ofNat 8 i }
  require (Nat.gcd t (chainProduct primes i) == 1) { code := .param, sub := 7, idx := BitVec.ofNat 8 i }

/-- Step 4 of PBUILD for the chain indices `0..n-1` in rising order. -/
def checkChain (t : Nat) (primes : List Nat) : Nat → Except CmdError Unit
  | 0 => .ok ()
  | n + 1 => do
    checkChain t primes n
    checkChainAt t primes n

/-- The sixteen chain places: `f i` for `i < len`, 0 above (R170, commit). -/
def chainPlaces (len : Nat) (f : Nat → Nat) : Vector Int 16 :=
  sixteen fun i => if i < len then (f i : Int) else 0

/-- The parameter set PBUILD derives from the configuration registers, or the PARAM error it raises (R170, R171). -/
def deriveParams (p : Config.Params) (cfg : CfgRegs) : Except CmdError ParamSet := do
  let logn := cfg.logn.toNat
  let len := cfg.chain.toNat
  require (decide (logn ≤ p.lognMax)) (raised .param 1)
  require (decide (1 ≤ len) && decide (len ≤ p.lMax + 1)) (raised .param 2)
  let order := 2 * 2 ^ logn
  match primeSearch p cfg.pbits.toNat order 1 with
  | none => .error (raised .param 3)
  | some found =>
    let t := found.getD 0 0
    match primeSearch p cfg.cbits.toNat order len with
    | none => .error (raised .param 4)
    | some primes =>
      require (decide (chainProduct primes (len - 1) ≤ limit p)) (raised .param 4)
      require (t % order == 1) (raised .param 5)
      checkChain t primes len
      return { t := t
               q := chainPlaces len (fun i => primes.getD i 0)
               bigQ := chainPlaces len (chainProduct primes)
               pLogn := cfg.logn
               pChain := cfg.chain
               pSigma := cfg.sigma }

/-- PBUILD (R170): on success the whole parameter set is replaced and PVALID set; on failure nothing changes (R174). -/
def execPbuild (s : State) : Outcome :=
  s.retire do
    let set ← deriveParams s.params s.cfg
    return { s with par := set, csr := { s.csr with pvalid := true } }

/-- MODGET (R178). -/
def execModget (rd : SReg) (ms : ModSel) (s : State) : Outcome :=
  s.retire do
    let v ← s.selected ms
    return s.writeScalar rd v

end Sys2Proof.Machine
end

