-- ==== Sys2Proof/Machine/Polymul.lean ====
section
/-! DEFINITION. The negacyclic polynomial multiplier (41_polymul.md): PMUL, PMULM. -/

namespace Sys2Proof.Machine

/-- PMUL (R152). -/
def execPmul (rd a b : PBuf) (s : State) : Outcome :=
  s.retire do
    s.needBuffer 1 rd
    s.needBuffer 2 a
    s.needBuffer 3 b
    s.needPn
    s.storeLanes rd s.pn (negacyclic (s.coeff a) (s.coeff b) s.pn)

/-- PMULM (R154). -/
def execPmulm (rd a b : PBuf) (ms : ModSel) (s : State) : Outcome :=
  s.retire do
    s.needBuffer 1 rd
    s.needBuffer 2 a
    s.needBuffer 3 b
    s.needPn
    let m ← s.modulus ms
    return s.writeLanes rd s.pn (fun k => red (negacyclic (s.coeff a) (s.coeff b) s.pn k) m)

end Sys2Proof.Machine
end

