-- ==== Sys2Proof/Machine/Dispatch.lean ====
section
/-! DEFINITION. The meaning of every command: one arm per constructor (30_encoding.md R103). -/

namespace Sys2Proof.Machine

def exec (i : Instr) (s : State) : Host.Outcome State Fault Refusal :=
  match i with
  | .nop => Sys2Proof.Machine.execNop s
  | .pbuild => Sys2Proof.Machine.execPbuild s
  | .findprime rd nb m => Sys2Proof.Machine.execFindprime rd nb m s
  | .findprimes rd nb m qty => Sys2Proof.Machine.execFindprimes rd nb m qty s
  | .modinv rd n ms => Sys2Proof.Machine.execModinv rd n ms s
  | .modred rd x ms => Sys2Proof.Machine.execModred rd x ms s
  | .modctr rd x ms => Sys2Proof.Machine.execModctr rd x ms s
  | .rndmul rd x num den ms => Sys2Proof.Machine.execRndmul rd x num den ms s
  | .root rd ms k => Sys2Proof.Machine.execRoot rd ms k s
  | .modget rd ms => Sys2Proof.Machine.execModget rd ms s
  | .pzero rd => Sys2Proof.Machine.execPzero rd s
  | .pcopy rd a => Sys2Proof.Machine.execPcopy rd a s
  | .pred rd a ms => Sys2Proof.Machine.execPred rd a ms s
  | .pctr rd a ms => Sys2Proof.Machine.execPctr rd a ms s
  | .paddm rd a b ms => Sys2Proof.Machine.execPaddm rd a b ms s
  | .psubm rd a b ms => Sys2Proof.Machine.execPsubm rd a b ms s
  | .pnegm rd a ms => Sys2Proof.Machine.execPnegm rd a ms s
  | .pscalm rd a c ms => Sys2Proof.Machine.execPscalm rd a c ms s
  | .pmulew rd a b ms => Sys2Proof.Machine.execPmulew rd a b ms s
  | .prndmul rd a num den ms => Sys2Proof.Machine.execPrndmul rd a num den ms s
  | .pmul rd a b => Sys2Proof.Machine.execPmul rd a b s
  | .pmulm rd a b ms => Sys2Proof.Machine.execPmulm rd a b ms s
  | .nttf rd a ms => Sys2Proof.Machine.execNttf rd a ms s
  | .ntti rd a ms => Sys2Proof.Machine.execNtti rd a ms s

end Sys2Proof.Machine
end

