-- ==== Sys2Proof/Machine/Perform.lean ====
section
/-! DEFINITION. The engine's only step: performing the pending command (10_state.md R35). -/

namespace Sys2Proof.Machine

/-- The ILLEGAL error of a word that is no command (30_encoding.md R95, R104). -/
def illegalError : DecodeError → CmdError
  | .unassignedOpcode => raised .illegal 1
  | .reservedField => raised .illegal 2

/-- Perform the command word `w`: decode it, then the command's meaning or the error entry of ILLEGAL (R104). -/
def perform (w : Word) (s : State) : Outcome :=
  match decode w with
  | .ok i => exec i s
  | .error e => .next (s.enterError (illegalError e))

/-- The engine's turn: it performs the pending command, and is idle without one (60_exceptions.md R272) or while the reset
input is asserted (70_reset_and_hazards.md R300). -/
def State.engineTurn (s : State) : Outcome :=
  if s.resetPin then .next s
  else
    match s.pending with
    | none => .next s
    | some w => perform w s

/-- What happens in one turn (20_memory.md R76). -/
def State.takeTurn (s : State) : Turn → Outcome
  | .engine => s.engineTurn
  | .read width offset => .next (s.hostRead width offset)
  | .write width offset data => .next (s.hostWrite width offset data)
  | .resetPin asserted => .next (s.driveReset asserted)

/-- Make the very next turn perform the command word `w`: it is pending as its acceptance leaves it (R28, R35), the reset
input is not asserted and the engine has the next turn. -/
def State.loadCommand (s : State) (w : Word) : State :=
  { s.accept w with resetPin := false, schedule := .engine :: s.schedule }

end Sys2Proof.Machine
end

