-- ==== Sys2Proof/Machine/Step.lean ====
section
/-! DEFINITION. One step of the machine: the next turn of the schedule, or the engine's turn where the schedule is used up
(20_memory.md R76, 70_reset_and_hazards.md R318). -/

namespace Sys2Proof.Machine

/-- One step. The schedule is plain data that nothing constrains, so every order of host accesses and engine turns that
R76 and R318 allow is the schedule of some state (log entry 6). -/
def step (s : State) : Host.Outcome State Fault Refusal :=
  match s.schedule with
  | [] => s.engineTurn
  | turn :: rest => { s with schedule := rest }.takeTurn turn

/-- `s` with the table word `w` of `nbits` bits as the command the next step performs (log entry 8). -/
def State.withFetchWord (s : State) (nbits w : Nat) : State := s.loadCommand (BitVec.ofNat 32 (w % 2 ^ nbits))

end Sys2Proof.Machine
end

