-- ==== Sys2Proof/Safety.lean ====
section
/-! DEFINITION. The terms the statements use: the spec's own notions said independently of the functions of the model, the
effect of a command's end, and the invariant every step keeps. -/

namespace Sys2Proof.Machine

/-- `Prime(n)` (00_scope.md R11). -/
abbrev IsPrime (n : Nat) : Prop := 2 ≤ n ∧ ∀ d, 1 < d → d < n → ¬ d ∣ n

/-- A prime `p ≥ lo` with `p ≡ 1 (mod m)`: what the prime search looks for (40_number_theory.md R120). -/
abbrev SoughtPrime (lo m p : Nat) : Prop := lo ≤ p ∧ p % m = 1 % m ∧ IsPrime p

/-- `r` lists the smallest sought primes in increasing order: a sought prime that is not listed is above all listed. -/
def SmallestSought (lo m : Nat) (r : List Nat) : Prop :=
  r.Pairwise (· < ·) ∧ (∀ p ∈ r, SoughtPrime lo m p) ∧ ∀ p, SoughtPrime lo m p → p ∈ r ∨ ∀ x ∈ r, x < p

/-- `ψ(m, k)` (43_ntt.md R190): the smallest `ψ` in `[1, m - 1]` with `ψ^(2^k) mod m = m - 1`. -/
def IsCanonicalRoot (psi m k : Nat) : Prop :=
  1 ≤ psi ∧ psi ≤ m - 1 ∧ psi ^ 2 ^ k % m = m - 1 ∧ ∀ c, 1 ≤ c → c < psi → c ^ 2 ^ k % m ≠ m - 1

/-- `k · b` is the multiple of `b` nearest to the rational `a`; of two equally near, the upper one for `tie = 0` and the one
with even `k` for `tie = 1` (40_number_theory.md R130). -/
def NearestMultiple (a : ℚ) (b k : Int) (tie : Bool) : Prop :=
  |a - k * b| ≤ (b : ℚ) / 2 ∧ (tie = false → a - k * b < (b : ℚ) / 2) ∧ (tie = true → |a - k * b| = (b : ℚ) / 2 → 2 ∣ k)

/-- `NEGA(a, b, N)[k]` as 41_polymul.md R150 writes it. -/
def schoolbook (a b : Nat → Int) (n k : Nat) : Int :=
  (∑ i ∈ Finset.range n, ∑ j ∈ Finset.range n, if i + j = k then a i * b j else 0) -
    ∑ i ∈ Finset.range n, ∑ j ∈ Finset.range n, if i + j = k + n then a i * b j else 0

/-- The selector names a modulus the state has, and its value is `m` (30_encoding.md R101). -/
def Selects (s : State) (ms : ModSel) (m : Int) : Prop :=
  match ms with
  | .t => s.csr.pvalid = true ∧ m = s.par.t
  | .q i => s.csr.pvalid = true ∧ i.val < s.par.pChain.toNat ∧ m = s.par.q[i]
  | .bigQ i => s.csr.pvalid = true ∧ i.val < s.par.pChain.toNat ∧ m = s.par.bigQ[i]
  | .s i => m = s.scalars[i]
  | .reserved _ => False

/-- The error of a selector that names no modulus, as (ECODE, ESUB) (30_encoding.md R102, checks 1 to 3). -/
def selectorError (s : State) (ms : ModSel) : Option (Nat × Nat) :=
  match ms with
  | .t => if s.csr.pvalid then none else some (3, 0)
  | .q i | .bigQ i =>
    if s.csr.pvalid then (if i.val < s.par.pChain.toNat then none else some (4, 2)) else some (3, 0)
  | .s _ => none
  | .reserved _ => some (4, 1)

/-- The buffer exists (10_state.md R24). -/
abbrev HasBuffer (s : State) (b : PBuf) : Prop := b.val < s.params.nbuf

/-- What the success of a command does beside its own writes, which are already in `s` (60_exceptions.md R258). -/
def afterSuccess (s : State) : State :=
  { s with pending := none, csr := { s.csr with done := true, ccount := s.csr.ccount + 1 } }

/-- Error entry for the command word `w` with ECODE, ESUB and EIDX (60_exceptions.md R256). -/
def afterError (s : State) (w : Word) (ecode esub eidx : Nat) : State :=
  { s with
    pending := none
    csr := { s.csr with
      done := true
      err := true
      ccount := s.csr.ccount + 1
      ecmd := w
      ecause := BitVec.ofNat 32 (eidx * 2 ^ 16 + esub * 2 ^ 8 + ecode) } }

/-- `t` is `s` after a successful command that wrote `f j` to `P[rd][j]` for every `j < n` and nothing else. -/
def LanesWritten (s t : State) (rd : PBuf) (n : Nat) (f : Nat → Int) : Prop :=
  { t with bufs := s.bufs } = afterSuccess s ∧
    (∀ j, t.coeff rd j = if j < n then f j else s.coeff rd j) ∧
    ∀ b : PBuf, b ≠ rd → t.bufs[b] = s.bufs[b]

/-- `t` is `s` after a successful command that wrote `v` to `S[rd]` and nothing else. -/
def ScalarWritten (s t : State) (rd : SReg) (v : Int) : Prop :=
  { t with scalars := s.scalars } = afterSuccess s ∧
    t.scalars[rd] = v ∧ ∀ r : SReg, r ≠ rd → t.scalars[r] = s.scalars[r]

/-- The scalar register a command writes, if it writes one (10_state.md R23). -/
def scalarDest : Instr → Option SReg
  | .findprime rd _ _ | .modinv rd _ _ | .modred rd _ _ | .modctr rd _ _ | .rndmul rd _ _ _ _ | .root rd _ _
  | .modget rd _ => some rd
  | .nop | .pbuild | .findprimes .. | .pzero .. | .pcopy .. | .pred .. | .pctr .. | .paddm .. | .psubm .. | .pnegm ..
  | .pscalm .. | .pmulew .. | .prndmul .. | .pmul .. | .pmulm .. | .nttf .. | .ntti .. => none

/-- The buffer a command writes, if it writes one. -/
def bufferDest : Instr → Option PBuf
  | .findprimes rd _ _ _ | .pzero rd | .pcopy rd _ | .pred rd _ _ | .pctr rd _ _ | .paddm rd _ _ _ | .psubm rd _ _ _
  | .pnegm rd _ _ | .pscalm rd _ _ _ | .pmulew rd _ _ _ | .prndmul rd _ _ _ _ | .pmul rd _ _ | .pmulm rd _ _ _
  | .nttf rd _ _ | .ntti rd _ _ => some rd
  | .nop | .pbuild | .findprime .. | .modinv .. | .modred .. | .modctr .. | .rndmul .. | .root .. | .modget .. => none

/-- The pairs (ECODE, ESUB) of the error table (60_exceptions.md R250) that some command raises. -/
def listedErrors : List (Nat × Nat) :=
  [(1, 1), (1, 2), (2, 1), (2, 2), (2, 3), (2, 5), (2, 6), (3, 0), (4, 1), (4, 2), (4, 3), (4, 4), (4, 5), (5, 1), (5, 2),
   (5, 3), (6, 1), (7, 1), (7, 2), (7, 3), (7, 4), (7, 5), (7, 6), (7, 7), (7, 8), (7, 9)]

/-- The assigned opcodes with the bits of their reserved-zero fields: the rows of spec/opcode_table.json, whose masks are
these and the op bits (30_encoding.md R100, R103). -/
def reservedBits : List (Nat × Word) :=
  [(0x01, 0x03FFFFFF), (0x02, 0x03FFFFFF), (0x08, 0x03F000FF), (0x09, 0x03F00000), (0x0A, 0x00000FFF), (0x0B, 0x00000FFF),
   (0x0C, 0x00000FFF), (0x0D, 0x0000000F), (0x0E, 0x0000FF00), (0x0F, 0x0000FFFF), (0x10, 0x03F0FFFF), (0x11, 0x03F00FFF),
   (0x12, 0x00000FFF), (0x13, 0x00000FFF), (0x14, 0x000000FF), (0x15, 0x000000FF), (0x16, 0x00000FFF), (0x17, 0x000000FF),
   (0x18, 0x000000FF), (0x19, 0x0000000F), (0x20, 0x03F000FF), (0x21, 0x000000FF), (0x22, 0x00000FFF), (0x23, 0x00000FFF)]

/-- A value a CW-bit register holds (00_scope.md R7). -/
abbrev Fits (p : Config.Params) (v : Int) : Prop := -(2 ^ (p.cw - 1)) ≤ v ∧ v ≤ 2 ^ (p.cw - 1) - 1

/-- A prime that a parameter register may hold: `≡ 1 (mod 2·PN)` and at most LIMIT (10_state.md R25). -/
def NttPrime (p : Config.Params) (par : ParamSet) (v : Int) : Prop :=
  0 ≤ v ∧ IsPrime v.toNat ∧ v.toNat % 2 ^ (par.pLogn.toNat + 1) = 1 ∧ Fits p v

/-- The parameter registers while PVALID = 1 (10_state.md R25, 42_parameters.md R172). -/
def ParamSet.Valid (p : Config.Params) (par : ParamSet) : Prop :=
  par.pLogn.toNat ≤ p.lognMax ∧ 1 ≤ par.pChain.toNat ∧ par.pChain.toNat ≤ p.lMax + 1 ∧ NttPrime p par par.t ∧
    (∀ i : Fin 16, i.val < par.pChain.toNat →
      NttPrime p par par.q[i] ∧ Fits p par.bigQ[i] ∧ par.t < par.bigQ[i] ∧ Int.gcd par.t par.bigQ[i] = 1 ∧
        (i.val = 0 → par.bigQ[i] = par.q[i])) ∧
    (∀ i j : Fin 16, j.val = i.val + 1 → j.val < par.pChain.toNat →
      par.q[i] < par.q[j] ∧ par.bigQ[j] = par.bigQ[i] * par.q[j]) ∧
    ∀ i : Fin 16, par.pChain.toNat ≤ i.val → par.q[i] = 0 ∧ par.bigQ[i] = 0

/-- Every register value and coefficient fits CW bits, and the buffers are canonical, of at most N_MAX coefficients, NBUF in
number (00_scope.md R7, 10_state.md R23, R24). -/
def DataInv (s : State) : Prop :=
  (∀ i : SReg, Fits s.params s.scalars[i]) ∧
    ∀ b : PBuf, Buf.Canonical s.bufs[b] ∧ (∀ e ∈ s.bufs[b], e.1 < 2 ^ s.params.lognMax ∧ Fits s.params e.2) ∧
      (s.params.nbuf ≤ b.val → s.bufs[b] = [])

/-- The parameter registers are valid while PVALID = 1, and all 0 while it is 0 (10_state.md R25, R37). -/
def ParamInv (s : State) : Prop :=
  if s.csr.pvalid then s.par.Valid s.params else s.par = ParamSet.zero

/-- While a command is pending, CMD holds it, DONE and ERR are 0 (10_state.md R28) and the reset input is not asserted
(70_reset_and_hazards.md R300). -/
def PendingInv (s : State) : Prop :=
  ∀ w, s.pending = some w → s.csr.cmd = w ∧ s.csr.done = false ∧ s.csr.err = false ∧ s.resetPin = false

/-- ECAUSE is 0 or the word of a listed error, with EIDX = 0 but for PARAM 6 and 7 (60_exceptions.md R250). -/
def CauseInv (s : State) : Prop :=
  s.csr.ecause = 0 ∨ ∃ e ∈ listedErrors, ∃ idx, (idx = 0 ∨ e = (7, 6) ∨ e = (7, 7)) ∧ idx ≤ 15 ∧
    s.csr.ecause = BitVec.ofNat 32 (idx * 2 ^ 16 + e.2 * 2 ^ 8 + e.1)

/-- The invariant of the machine. -/
def Inv (s : State) : Prop := s.params.Legal ∧ DataInv s ∧ ParamInv s ∧ PendingInv s ∧ CauseInv s

/-- The parameter set that PBUILD derives from the configuration registers (42_parameters.md R170, R171): `t` is the smallest
sought prime, `r` the `CFG_CHAIN` smallest sought primes, and every check of R170 holds. -/
def DerivedParams (p : Config.Params) (cfg : CfgRegs) (par : ParamSet) : Prop :=
  cfg.logn.toNat ≤ p.lognMax ∧ 1 ≤ cfg.chain.toNat ∧ cfg.chain.toNat ≤ p.lMax + 1 ∧
    par.pLogn = cfg.logn ∧ par.pChain = cfg.chain ∧ par.pSigma = cfg.sigma ∧
    ∃ (t : Nat) (r : List Nat),
      SmallestSought (2 ^ cfg.pbits.toNat) (2 * 2 ^ cfg.logn.toNat) [t] ∧ Fits p t ∧
      r.length = cfg.chain.toNat ∧ SmallestSought (2 ^ cfg.cbits.toNat) (2 * 2 ^ cfg.logn.toNat) r ∧ Fits p r.prod ∧
      (∀ i < r.length, t < (r.take (i + 1)).prod ∧ Nat.gcd t (r.take (i + 1)).prod = 1) ∧
      par.t = t ∧
      ∀ i : Fin 16,
        par.q[i] = (if i.val < r.length then (r.getD i 0 : Int) else 0) ∧
          par.bigQ[i] = if i.val < r.length then ((r.take (i.val + 1)).prod : Int) else 0

end Sys2Proof.Machine
end

