-- ==== Sys2Proof/Certificates/Slice0/Obligations.lean ====
section
/-! DEFINITION. The statements for the provers. -/

open Sys2Proof Sys2Proof.Machine

/-! Encoding (30_encoding.md). -/

/-- Decoding the word of a well-formed command gives the command back (R91, R92, R100, R101, R103). -/
def Obligations.DecodeInvertsEncode : Prop :=
  ∀ i : Instr, i.wellFormed = true → decode (encode i) = .ok i

/-- A word that decodes to a command is the word of that command, and the command is well formed: no two words mean the same
command (R95, R104). -/
def Obligations.EncodeInvertsDecode : Prop :=
  ∀ (w : Word) (i : Instr), decode w = .ok i → i.wellFormed = true ∧ encode i = w

/-- The decoder refuses exactly the words R104 and R95 call illegal: an opcode that is not assigned, or an assigned one with a
nonzero reserved-zero field. -/
def Obligations.DecoderRefusesExactlyIllegalWords : Prop :=
  ∀ w : Word,
    (decode w = .error .unassignedOpcode ↔ w.toNat / 2 ^ 26 ∉ reservedBits.map Prod.fst) ∧
      (decode w = .error .reservedField ↔ ∃ row ∈ reservedBits, w.toNat / 2 ^ 26 = row.1 ∧ w &&& row.2 ≠ 0)

/-- Words of the spec's examples decode to the commands they stand for, one or two of every family. -/
def Obligations.ExampleWordsDecode : Prop :=
  decode 0x20001200 = .ok (.findprime 0 1 2) ∧ decode 0x24001205 = .ok (.findprimes 0 1 2 5) ∧
    decode 0x2B510000 = .ok (.modinv 1 0 (.s 5)) ∧ decode 0x37401230 = .ok (.rndmul 0 1 2 3 (.s 4)) ∧
    decode 0x08000000 = .ok .pbuild ∧ decode 0x3E1E0000 = .ok (.modget 14 (.bigQ 1)) ∧
    decode 0x86320100 = .ok (.pmulm 2 0 1 (.bigQ 3)) ∧ decode 0x3920000F = .ok (.root 0 (.q 2) 15) ∧
    decode 0x88010000 = .ok (.nttf 1 0 .t) ∧ decode 0x64010120 = .ok (.prndmul 1 0 1 2 .t) ∧
    decode 0x2850100F = .error .reservedField ∧ decode 0x28501000 = .ok (.modinv 0 1 (.reserved 5)) ∧
    decode 0 = .error .unassignedOpcode

/-! One step. -/

/-- In the engine's turn, with the reset input not asserted, a pending word that decodes to `i` is performed as `i`, with the
turn taken off the schedule (10_state.md R35). -/
def Obligations.StepPerformsDecodedCommand : Prop :=
  ∀ (s : State) (w : Word) (i : Instr), s.resetPin = false →
    (s.schedule = [] ∨ s.schedule.head? = some .engine) → s.pending = some w → decode w = .ok i →
    step s = exec i { s with schedule := s.schedule.tail }

/-- A pending word with an unassigned opcode takes the error entry of ILLEGAL 1, one with a nonzero reserved-zero field that of
ILLEGAL 2 (30_encoding.md R104, 60_exceptions.md R256). -/
def Obligations.StepTakesIllegalError : Prop :=
  ∀ (s : State) (w : Word), s.resetPin = false → (s.schedule = [] ∨ s.schedule.head? = some .engine) → s.pending = some w →
    (w.toNat / 2 ^ 26 ∉ reservedBits.map Prod.fst →
      step s = .next (afterError { s with schedule := s.schedule.tail } w 1 1 0)) ∧
      ∀ row ∈ reservedBits, w.toNat / 2 ^ 26 = row.1 → w &&& row.2 ≠ 0 →
        step s = .next (afterError { s with schedule := s.schedule.tail } w 1 2 0)

/-- From a state that meets the invariant every step answers a next state, whichever agent takes its turn, and that state meets it
again: values fit CW bits, buffers stay canonical, the parameter set stays valid while PVALID = 1, the pending command stays
coherent with CMD, DONE, ERR and the reset input (the last is the model's choice, log entry 7), ECAUSE stays a listed error. -/
def Obligations.StepKeepsInvariant : Prop :=
  ∀ s : State, Inv s → (∃ t, step s = .next t) ∧ ∀ t, step s = .next t → Inv t

/-- The state after reset meets the invariant; its S and P hold the 0 that log entry 2 chose, and any CW-bit value would do. -/
def Obligations.ResetMeetsInvariant : Prop := Inv State.reset

/-- From an idle engine with ERR = 0, a host write of a word to CMD and then the engine's turn leave BUSY = 0, DONE = 1, CMD at
the word and CCOUNT one up: every accepted command completes (R28, R35, R319). -/
def Obligations.AcceptedCommandCompletes : Prop :=
  ∀ (s : State) (w : Word) (rest : List Turn), s.pending = none → s.csr.err = false → s.resetPin = false →
    s.schedule = .write .bits32 0x00C w :: .engine :: rest →
    ∃ t u : State, step s = .next t ∧ t.statusWord.getLsbD 0 = true ∧ step t = .next u ∧ u.pending = none ∧
      u.csr.done = true ∧ u.csr.cmd = w ∧ u.csr.ccount = s.csr.ccount + 1 ∧ u.schedule = rest

/-! Reset (10_state.md R37, 70_reset_and_hazards.md R300 to R303). -/

/-- In the state after reset, after a soft reset, and when the reset input is deasserted, every register has its value of R37 and
the implementation parameters stay; ID and CAPS read as their constants in these states and in every other one whose reset input is not
asserted. S and P, which R37 leaves unspecified, are not in this statement. -/
def Obligations.ResetSetsRegisters : Prop :=
  ∀ (s : State) (w : Word), w.getLsbD 2 = true → s.resetPin = false →
    let soft := s.hostWrite .bits32 0x004 w
    let hard := (s.driveReset true).driveReset false
    (∀ t ∈ [State.reset, soft, hard],
      t.par = { t := 0, q := Vector.replicate 16 0, bigQ := Vector.replicate 16 0, pLogn := 0, pChain := 0, pSigma := 0 } ∧
        t.cfg = { logn := 0, pbits := 0, cbits := 0, chain := 0, sigma := 0 } ∧
        t.statusWord = 0 ∧ t.csr.pvalid = false ∧ t.ctrlWord = 0 ∧ t.csr.cmd = 0 ∧ t.csr.ecmd = 0 ∧ t.csr.ecause = 0 ∧
        t.csr.ccount = 0 ∧ t.pending = none ∧ t.irq = false ∧ t.resetPin = false) ∧
      (∀ t ∈ [State.reset, soft, hard, s],
        (t.hostRead .bits32 0x000).busData = 0x4E545401 ∧ (t.hostRead .bits32 0x01C).busData = capsWord t.params) ∧
      capsWord State.reset.params = 0x00F0C708 ∧
      capsWord { cw := 64, nbuf := 4, lognMax := 10, lMax := 3 } = 0x0030A302 ∧ soft.params = s.params ∧ hard.params = s.params

/-- While the reset input is asserted the engine drops writes, performs nothing (the model's reading, log entry 7), and a read
changes no register (R300). -/
def Obligations.AssertedResetIgnoresAccesses : Prop :=
  ∀ (s : State) (width : Width) (o : Offset) (w : Word), s.resetPin = true →
    s.hostWrite width o w = s ∧ s.engineTurn = .next s ∧
      { s.hostRead width o with busData := s.busData, freeCount := s.freeCount } = s

/-! The host bus (20_memory.md). -/

/-- The address map of the slots (R66, R67). -/
def Obligations.SlotsLieWhereTheMapSays : Prop :=
  ∀ (p : Config.Params) (k : Nat), p.Legal → k < 16 →
    (∀ i : Fin 16, locate p (0x1000 + 0x40 * i.val + 4 * k) = .word (.scalar i) k) ∧
      locate p (0x2000 + 4 * k) = .word .t k ∧
      (∀ i : Fin 16, locate p (0x2100 + 0x40 * i.val + 4 * k) = if i.val ≤ p.lMax then .word (.q i) k else .unmapped) ∧
      (∀ i : Fin 16, locate p (0x2500 + 0x40 * i.val + 4 * k) = if i.val ≤ p.lMax then .word (.bigQ i) k else .unmapped) ∧
      ∀ (b : PBuf) (j : Nat), j < 2 ^ 16 →
        locate p (0x01000000 + b.val * 0x00400000 + j * 0x40 + 4 * k) =
          if b.val < p.nbuf ∧ j < 2 ^ p.lognMax then .word (.coeff b j) k else .unmapped

/-- No two aligned offsets of the window name the same location (R66, R67). -/
def Obligations.AddressMapIsInjective : Prop :=
  ∀ (p : Config.Params) (x y : Nat), p.Legal → x % 4 = 0 → y % 4 = 0 → locate p x = locate p y →
    locate p x ≠ .unmapped → x = y

/-- While BUSY = 0, a word `k < WPS` written to a coefficient's slot reads back, the other words of the slot and every other
coefficient keep their values, and nothing else changes; a write to a word `k ≥ WPS` of a coefficient's or a scalar register's slot
is ignored, without AERR (R63, R64, R65, R67). -/
def Obligations.CoefficientSlotWordReadsBack : Prop :=
  ∀ (s : State) (b : PBuf) (j k k' : Nat) (w : Word), s.params.Legal → s.pending = none → s.resetPin = false →
    b.val < s.params.nbuf → j < 2 ^ s.params.lognMax → k < 16 → k' < s.params.cw / 32 →
    let at' (x : Nat) : Offset := BitVec.ofNat 27 (0x01000000 + b.val * 0x00400000 + j * 0x40 + 4 * x)
    let t := s.hostWrite .bits32 (at' k) w
    (k < s.params.cw / 32 →
      (t.hostRead .bits32 (at' k')).busData = (if k' = k then w else (s.hostRead .bits32 (at' k')).busData) ∧
        { t with bufs := s.bufs } = s ∧ ∀ (c : PBuf) (x : Nat), ¬ (c = b ∧ x = j) → t.coeff c x = s.coeff c x) ∧
      (s.params.cw / 32 ≤ k →
        t = s ∧ ∀ i : SReg, s.hostWrite .bits32 (BitVec.ofNat 27 (0x1000 + 0x40 * i.val + 4 * k)) w = s)

/-- Writing the WPS words of the pattern of a value that fits, each once and in any order, leaves the scalar register or the
coefficient holding the value, whatever it held before, and changes nothing else (R9, R63, R64). -/
def Obligations.WideWriteStoresValue : Prop :=
  ∀ (s : State) (v : Int) (order : List Nat), s.params.Legal → s.pending = none → s.resetPin = false → Fits s.params v →
    order.Perm (List.range (s.params.cw / 32)) →
    let writeAll (base : Nat) : State :=
      order.foldl
        (fun u k => u.hostWrite .bits32 (BitVec.ofNat 27 (base + 4 * k)) (BitVec.ofInt 32 (v / 2 ^ (32 * k)))) s
    (∀ i : SReg, writeAll (0x1000 + 0x40 * i.val) = { s with scalars := s.scalars.set i v }) ∧
      ∀ (b : PBuf) (j : Nat), b.val < s.params.nbuf → j < 2 ^ s.params.lognMax →
        let t := writeAll (0x01000000 + b.val * 0x00400000 + j * 0x40)
        t.coeff b j = v ∧ { t with bufs := s.bufs } = s ∧
          ∀ (c : PBuf) (x : Nat), ¬ (c = b ∧ x = j) → t.coeff c x = s.coeff c x

/-- While BUSY = 0 every slot (scalar, T, q, Q, coefficient) reads as its value's two's-complement pattern word by word, lowest
first, and as the sign fill from word WPS on (R63, R65). Such a read, and a read of any other mapped location while BUSY = 0,
changes nothing but the word on the bus (R72). -/
def Obligations.SlotReadsPatternAndSignFill : Prop :=
  ∀ (s : State) (o : Offset), s.params.Legal → s.pending = none → s.resetPin = false → o.toNat % 4 = 0 →
    (∀ (slot : Slot) (k : Nat), locate s.params o.toNat = .word slot k → Fits s.params (s.slotValue slot) →
      s.hostRead .bits32 o = { s with busData := BitVec.ofInt 32 (s.slotValue slot / 2 ^ (32 * k)) }) ∧
    (locate s.params o.toNat ≠ .unmapped → ∃ d, s.hostRead .bits32 o = { s with busData := d })

/-- A malformed access, and an access to an unmapped offset, sets AERR and changes nothing else; such a read returns 0, even
while BUSY = 1 (R61, R69, R70, R71). -/
def Obligations.BadAccessSetsAerrOnly : Prop :=
  ∀ (s : State) (width : Width) (o : Offset) (w : Word), s.resetPin = false →
    (width ≠ .bits32 ∨ o.toNat % 4 ≠ 0 ∨ locate s.params o.toNat = .unmapped) →
    s.hostWrite width o w = { s with csr := { s.csr with aerr := true } } ∧
      s.hostRead width o = { s with csr := { s.csr with aerr := true }, busData := 0 }

/-- A write to a read-only register, or to a word `k < WPS` of a read-only slot, is ignored and sets AERR; one to a word
`k ≥ WPS` of a read-only slot is ignored without AERR (R63, R70; log entry 5). While BUSY = 1 a write to a read-only slot or to
P_LOGN, P_CHAIN or P_SIGMA sets HAZ too (the model's reading of 70_reset_and_hazards.md R310 item 2 beside R71, log entry 15). -/
def Obligations.ReadOnlyWriteIsIgnored : Prop :=
  ∀ (s : State) (o : Offset) (w : Word), s.resetPin = false → o.toNat % 4 = 0 →
    let haz := s.csr.haz || s.pending.isSome
    (o.toNat ∈ [0x00, 0x10, 0x14, 0x1C] → s.hostWrite .bits32 o w = { s with csr := { s.csr with aerr := true } }) ∧
    (o.toNat ∈ [0x34, 0x38, 0x3C] →
      s.hostWrite .bits32 o w = { s with csr := { s.csr with aerr := true, haz := haz } }) ∧
    ∀ k < 16,
      (o.toNat = 0x2000 + 4 * k ∨
        ∃ i, i ≤ s.params.lMax ∧ i < 16 ∧ (o.toNat = 0x2100 + 0x40 * i + 4 * k ∨ o.toNat = 0x2500 + 0x40 * i + 4 * k)) →
      s.hostWrite .bits32 o w =
        { s with csr := { s.csr with aerr := s.csr.aerr || decide (k < s.params.cw / 32), haz := haz } }

/-- While BUSY = 1 a write to a scalar or buffer slot, to a CFG register, to CCOUNT or to CMD is dropped and sets HAZ, and a read
of a slot or of P_LOGN, P_CHAIN, P_SIGMA sets HAZ and changes no register (R28, R71). That a word at WPS or above counts as its
slot here, in a read and in a write, is the model's reading (log entry 15). -/
def Obligations.BusyAccessSetsHazOnly : Prop :=
  ∀ (s : State) (o : Offset) (w : Word), s.resetPin = false → s.pending.isSome = true → o.toNat % 4 = 0 →
    let loc := locate s.params o.toNat
    ((loc = .cmd ∨ loc = .ccount ∨ (∃ c, loc = .cfg c) ∨ (∃ i k, loc = .word (.scalar i) k) ∨
        ∃ b j k, loc = .word (.coeff b j) k) →
      s.hostWrite .bits32 o w = { s with csr := { s.csr with haz := true } }) ∧
    (((∃ slot k, loc = .word slot k) ∨ loc = .pLogn ∨ loc = .pChain ∨ loc = .pSigma) →
      { s.hostRead .bits32 o with busData := s.busData, freeCount := s.freeCount } =
        { s with csr := { s.csr with haz := true } })

/-- A write of `w` to CMD: while BUSY = 0 and ERR = 0 the command is accepted, else the write is dropped and HAZ set; a later read
of CMD returns the last accepted word (10_state.md R28). -/
def Obligations.CmdWriteAcceptsOrDrops : Prop :=
  ∀ (s : State) (w : Word), s.resetPin = false →
    (s.pending = none ∧ s.csr.err = false →
      s.hostWrite .bits32 0x00C w = { s with csr := { s.csr with cmd := w, done := false }, pending := some w }) ∧
    (¬ (s.pending = none ∧ s.csr.err = false) →
      s.hostWrite .bits32 0x00C w = { s with csr := { s.csr with haz := true } }) ∧
    (s.hostRead .bits32 0x00C).busData = s.csr.cmd

/-- STATUS reads BUSY, DONE, ERR, PVALID, AERR, HAZ in bits 0 to 5 and 0 above (10_state.md R26). -/
def Obligations.StatusBitsReadFlags : Prop :=
  ∀ (s : State) (i : Nat), s.resetPin = false →
    (s.hostRead .bits32 0x008).busData.getLsbD i =
      match i with
      | 0 => s.pending.isSome
      | 1 => s.csr.done
      | 2 => s.csr.err
      | 3 => s.csr.pvalid
      | 4 => s.csr.aerr
      | 5 => s.csr.haz
      | _ => false

/-- A write to STATUS clears exactly the W1C flags it writes 1 to; with bit 2 set it is the return from an error, and ECMD and
ECAUSE keep their values (10_state.md R26, 60_exceptions.md R259). -/
def Obligations.StatusWriteClearsFlags : Prop :=
  ∀ (s : State) (w : Word), s.resetPin = false →
    s.hostWrite .bits32 0x008 w =
      { s with csr := { s.csr with
          done := if w.getLsbD 1 then false else s.csr.done
          err := if w.getLsbD 2 then false else s.csr.err
          aerr := if w.getLsbD 4 then false else s.csr.aerr
          haz := if w.getLsbD 5 then false else s.csr.haz } }

/-- A write to CTRL without SRST: IE takes bit 0; TIE takes bit 1 while BUSY = 0, and while BUSY = 1 keeps its value, with HAZ set
if the written bit differs. A read of CTRL answers IE, TIE, SRST as 0 and 0 above; reads of ECMD and ECAUSE answer the registers,
as do reads of P_LOGN, P_CHAIN and P_SIGMA while BUSY = 0; none of these reads changes anything else (10_state.md R27,
20_memory.md R66, R71, R72). -/
def Obligations.CtrlWriteSetsModes : Prop :=
  ∀ (s : State) (w : Word), s.resetPin = false → w.getLsbD 2 = false →
    (s.pending = none →
      s.hostWrite .bits32 0x004 w = { s with csr := { s.csr with ie := w.getLsbD 0, tie := w.getLsbD 1 } }) ∧
    (s.pending ≠ none →
      s.hostWrite .bits32 0x004 w =
        { s with csr := { s.csr with
            ie := w.getLsbD 0
            haz := if w.getLsbD 1 = s.csr.tie then s.csr.haz else true } }) ∧
    (∃ d, s.hostRead .bits32 0x004 = { s with busData := d } ∧
      ∀ n, d.getLsbD n =
        match n with
        | 0 => s.csr.ie
        | 1 => s.csr.tie
        | _ => false) ∧
    s.hostRead .bits32 0x010 = { s with busData := s.csr.ecmd } ∧
    s.hostRead .bits32 0x014 = { s with busData := s.csr.ecause } ∧
    (s.pending = none →
      s.hostRead .bits32 0x034 = { s with busData := s.par.pLogn } ∧
      s.hostRead .bits32 0x038 = { s with busData := s.par.pChain } ∧
      s.hostRead .bits32 0x03C = { s with busData := s.par.pSigma })

/-- While BUSY = 0 the configuration registers and CCOUNT take the word written and read it back, and a CFG write changes nothing
else (10_state.md R32, R33, 70_reset_and_hazards.md R315). -/
def Obligations.ConfigurationRegistersStore : Prop :=
  ∀ (s : State) (w : Word), s.resetPin = false → s.pending = none →
    s.hostWrite .bits32 0x020 w = { s with cfg := { s.cfg with logn := w } } ∧
    s.hostWrite .bits32 0x024 w = { s with cfg := { s.cfg with pbits := w } } ∧
    s.hostWrite .bits32 0x028 w = { s with cfg := { s.cfg with cbits := w } } ∧
    s.hostWrite .bits32 0x02C w = { s with cfg := { s.cfg with chain := w } } ∧
    s.hostWrite .bits32 0x030 w = { s with cfg := { s.cfg with sigma := w } } ∧
    s.hostWrite .bits32 0x018 w = { s with csr := { s.csr with ccount := w } } ∧
    ∀ o ∈ ([0x020, 0x024, 0x028, 0x02C, 0x030, 0x018] : List Offset),
      ((s.hostWrite .bits32 o w).hostRead .bits32 o).busData = w

/-- The interrupt output is IE AND DONE; the host clears it by writing 1 to STATUS.DONE or 0 to CTRL.IE (10_state.md R36). -/
def Obligations.InterruptFollowsDone : Prop :=
  ∀ (s : State) (w : Word), s.resetPin = false →
    (s.irq = true ↔ s.csr.ie = true ∧ s.csr.done = true) ∧
      (w.getLsbD 1 = true → (s.hostWrite .bits32 0x008 w).irq = false) ∧
      (w.getLsbD 0 = false → (s.hostWrite .bits32 0x004 w).irq = false)

/-! Every command: its end, its frame, its errors (60_exceptions.md). -/

/-- Every command ends in success, with ECMD, ECAUSE and ERR unchanged, or in the error entry of a listed error, which changes no
register, buffer, parameter or CFG register; EIDX is 0 but for PARAM 6 and 7, and at most L_MAX (R250, R256, R257, R258). -/
def Obligations.CommandEndsInSuccessOrErrorEntry : Prop :=
  ∀ (i : Instr) (s : State) (w : Word), s.pending = some w →
    ∃ t : State, exec i s = .next t ∧
      ((∃ e ∈ listedErrors, ∃ idx ≤ s.params.lMax, (idx = 0 ∨ e = (7, 6) ∨ e = (7, 7)) ∧ t = afterError s w e.1 e.2 idx) ∨
        (t.pending = none ∧
          t.csr = { s.csr with
            done := true, ccount := s.csr.ccount + 1, pvalid := s.csr.pvalid || decide (i = .pbuild) }))

/-- The frame of every command: whatever its end, it changes no scalar register but its destination, no buffer but its destination,
no parameter register or PVALID unless it is PBUILD, and no CFG register, mode, bus flag or CMD (10_state.md R25, R33, R257). -/
def Obligations.CommandFrame : Prop :=
  ∀ (i : Instr) (s t : State), exec i s = .next t →
    t.cfg = s.cfg ∧ t.params = s.params ∧ t.resetPin = s.resetPin ∧ t.schedule = s.schedule ∧ t.busData = s.busData ∧
      t.freeCount = s.freeCount ∧ t.csr.ie = s.csr.ie ∧ t.csr.tie = s.csr.tie ∧ t.csr.aerr = s.csr.aerr ∧
      t.csr.haz = s.csr.haz ∧ t.csr.cmd = s.csr.cmd ∧
      (i ≠ .pbuild → t.par = s.par ∧ t.csr.pvalid = s.csr.pvalid) ∧
      (∀ r : SReg, scalarDest i ≠ some r → t.scalars[r] = s.scalars[r]) ∧
      ∀ b : PBuf, bufferDest i ≠ some b → t.bufs[b] = s.bufs[b]

/-- The parameter registers are immutable: a step of any agent that is neither a reset nor a PBUILD leaves them and PVALID as they
were (10_state.md R25, 42_parameters.md R174). That the turn which ASSERTS the reset input leaves them too, so that they change
only when it is deasserted, is the model's choice (log entry 7). -/
def Obligations.OnlyPbuildAndResetChangeParameters : Prop :=
  ∀ s t : State, step s = .next t →
    (s.pending = some 0x08000000 ∧ (s.schedule = [] ∨ s.schedule.head? = some .engine)) ∨
      s.schedule.head? = some (.resetPin false) ∨
      (∃ w, s.schedule.head? = some (.write .bits32 0x004 w) ∧ w.getLsbD 2 = true) ∨
      (t.par = s.par ∧ t.csr.pvalid = s.csr.pvalid)

/-- A command's result does not depend on the model's own fields: the schedule, the last bus answer and the number of the next
free value (70_reset_and_hazards.md R320). -/
def Obligations.CommandsReadNoHiddenSource : Prop :=
  ∀ (i : Instr) (s t : State) (l : List Turn) (d : Word) (n : Nat), exec i s = .next t →
    exec i { s with schedule := l, busData := d, freeCount := n } =
      .next { t with schedule := l, busData := d, freeCount := n }

/-- A buffer index that names no buffer is the first error reported, in the order rd, rs1, rs2 (R251, R252). -/
def Obligations.MissingBufferIsReportedFirst : Prop :=
  ∀ (s : State) (w : Word) (rd a b : PBuf) (x y : SReg) (ms : ModSel) (qty : BitVec 8), s.pending = some w →
    (¬ HasBuffer s rd →
      ∀ i ∈ [Instr.findprimes rd x y qty, .pzero rd, .pcopy rd a, .pred rd a ms, .pctr rd a ms, .paddm rd a b ms,
        .psubm rd a b ms, .pnegm rd a ms, .pscalm rd a x ms, .pmulew rd a b ms, .prndmul rd a x y ms, .pmul rd a b,
        .pmulm rd a b ms, .nttf rd a ms, .ntti rd a ms], exec i s = .next (afterError s w 2 1 0)) ∧
    (HasBuffer s rd → ¬ HasBuffer s a →
      ∀ i ∈ [Instr.pcopy rd a, .pred rd a ms, .pctr rd a ms, .paddm rd a b ms, .psubm rd a b ms, .pnegm rd a ms,
        .pscalm rd a x ms, .pmulew rd a b ms, .prndmul rd a x y ms, .pmul rd a b, .pmulm rd a b ms, .nttf rd a ms,
        .ntti rd a ms], exec i s = .next (afterError s w 2 2 0)) ∧
    (HasBuffer s rd → HasBuffer s a → ¬ HasBuffer s b →
      ∀ i ∈ [Instr.paddm rd a b ms, .psubm rd a b ms, .pmulew rd a b ms, .pmul rd a b, .pmulm rd a b ms],
        exec i s = .next (afterError s w 2 3 0))

/-- While PVALID = 0 every command that acts on PN coefficients raises NOPARAM, whatever its selector (R251, R252). -/
def Obligations.PolynomialCommandsNeedParameters : Prop :=
  ∀ (s : State) (w : Word) (rd a b : PBuf) (x y : SReg) (ms : ModSel), s.pending = some w → s.csr.pvalid = false →
    HasBuffer s rd → HasBuffer s a → HasBuffer s b →
    ∀ i ∈ [Instr.pred rd a ms, .pctr rd a ms, .paddm rd a b ms, .psubm rd a b ms, .pnegm rd a ms, .pscalm rd a x ms,
      .pmulew rd a b ms, .prndmul rd a x y ms, .pmul rd a b, .pmulm rd a b ms, .nttf rd a ms, .ntti rd a ms],
      exec i s = .next (afterError s w 3 0 0)

/-- A selector that names no modulus raises its error (30_encoding.md R102, checks 1 to 3), in every command that has one and meets
the checks before it. -/
def Obligations.SelectorErrorsAreRaised : Prop :=
  ∀ (s : State) (w : Word) (rd a b : PBuf) (d x y z : SReg) (ms : ModSel) (k : BitVec 8) (e : Nat × Nat),
    s.pending = some w → selectorError s ms = some e →
    (∀ i ∈ [Instr.modinv d x ms, .modred d x ms, .modctr d x ms, .rndmul d x y z ms, .modget d ms],
      exec i s = .next (afterError s w e.1 e.2 0)) ∧
    (k.toNat ≤ s.params.lognMax → exec (.root d ms k) s = .next (afterError s w e.1 e.2 0)) ∧
    (s.csr.pvalid = true → HasBuffer s rd → HasBuffer s a → HasBuffer s b →
      ∀ i ∈ [Instr.pred rd a ms, .pctr rd a ms, .paddm rd a b ms, .psubm rd a b ms, .pnegm rd a ms, .pscalm rd a x ms,
        .pmulew rd a b ms, .prndmul rd a x y ms, .pmulm rd a b ms, .nttf rd a ms, .ntti rd a ms],
        exec i s = .next (afterError s w e.1 e.2 0))

/-- The value checks of the selector's class: below 2, not prime, not 1 modulo the order (30_encoding.md R102, check 4). ROOT with
`k > LOGN_MAX` raises BADOPND 6 before its selector is looked at (43_ntt.md R191, R252). -/
def Obligations.UnfitModulusIsRefused : Prop :=
  ∀ (s : State) (w : Word) (rd a b : PBuf) (d x : SReg) (ms : ModSel) (k : BitVec 8) (m : Int),
    s.pending = some w →
    (¬ k.toNat ≤ s.params.lognMax → exec (.root d ms k) s = .next (afterError s w 2 6 0)) ∧
    (Selects s ms m →
      (m < 2 → ∀ i ∈ [Instr.modinv d x ms, .modred d x ms, .modctr d x ms], exec i s = .next (afterError s w 4 3 0)) ∧
      (k.toNat ≤ s.params.lognMax →
        (m < 2 → exec (.root d ms k) s = .next (afterError s w 4 3 0)) ∧
        (2 ≤ m → ¬ IsPrime m.toNat → exec (.root d ms k) s = .next (afterError s w 4 4 0)) ∧
        (IsPrime m.toNat → m.toNat % 2 ^ (k.toNat + 1) ≠ 1 → exec (.root d ms k) s = .next (afterError s w 4 5 0))) ∧
      (s.csr.pvalid = true → HasBuffer s rd → HasBuffer s a → HasBuffer s b →
        (m < 2 → ∀ i ∈ [Instr.pred rd a ms, .pctr rd a ms, .paddm rd a b ms, .psubm rd a b ms, .pnegm rd a ms,
          .pscalm rd a x ms, .pmulew rd a b ms, .pmulm rd a b ms, .nttf rd a ms, .ntti rd a ms],
          exec i s = .next (afterError s w 4 3 0)) ∧
        (2 ≤ m → ¬ IsPrime m.toNat → ∀ i ∈ [Instr.nttf rd a ms, .ntti rd a ms], exec i s = .next (afterError s w 4 4 0)) ∧
        (IsPrime m.toNat → m.toNat % 2 ^ (s.par.pLogn.toNat + 1) ≠ 1 →
          ∀ i ∈ [Instr.nttf rd a ms, .ntti rd a ms], exec i s = .next (afterError s w 4 5 0))))

/-! Number theory (40_number_theory.md). -/

/-- The primality test of the model is exact (R123, 00_scope.md R11). -/
def Obligations.PrimalityIsExact : Prop :=
  ∀ n : Nat, isPrime n = true ↔ 2 ≤ n ∧ ∀ d, 1 < d → d < n → ¬ d ∣ n

/-- FINDPRIME stores the smallest prime `≡ 1 (mod m)` that is at least `2^num_bits`, when it is at most LIMIT (R120, R122). -/
def Obligations.FindprimeStoresSmallestPrime : Prop :=
  ∀ (s : State) (rd nb m : SReg) (p : Nat), 0 ≤ s.scalars[nb] → 0 < s.scalars[m] →
    SmallestSought (2 ^ s.scalars[nb].toNat) s.scalars[m].toNat [p] → Fits s.params p →
    ∃ t, exec (.findprime rd nb m) s = .next t ∧ ScalarWritten s t rd p

/-- FINDPRIMES stores the `qty` smallest primes `≡ 1 (mod m)` that are at least `2^num_bits` in rising order in its first `qty`
coefficients and leaves the others, when all are at most LIMIT; PVALID does not matter (R124). -/
def Obligations.FindprimesStoresSmallestPrimes : Prop :=
  ∀ (s : State) (rd : PBuf) (nb m : SReg) (qty : BitVec 8) (r : List Nat), HasBuffer s rd → 1 ≤ qty.toNat →
    qty.toNat ≤ 2 ^ s.params.lognMax → 0 ≤ s.scalars[nb] → 0 < s.scalars[m] → r.length = qty.toNat →
    SmallestSought (2 ^ s.scalars[nb].toNat) s.scalars[m].toNat r → (∀ p ∈ r, Fits s.params p) →
    ∃ t, exec (.findprimes rd nb m qty) s = .next t ∧ LanesWritten s t rd qty.toNat (fun j => r.getD j 0)

/-- The errors of the prime search in their order: BADOPND 5 (FINDPRIMES only), PARAM 8, PARAM 9, OVERFLOW 1 when some of the
primes asked for is above LIMIT (R122, R124). -/
def Obligations.PrimeSearchErrors : Prop :=
  ∀ (s : State) (w : Word) (rd : SReg) (b : PBuf) (nb m : SReg) (qty : BitVec 8), s.pending = some w → HasBuffer s b →
    (qty = 0 ∨ 2 ^ s.params.lognMax < qty.toNat → exec (.findprimes b nb m qty) s = .next (afterError s w 2 5 0)) ∧
    (1 ≤ qty.toNat → qty.toNat ≤ 2 ^ s.params.lognMax →
      (s.scalars[nb] < 0 → exec (.findprime rd nb m) s = .next (afterError s w 7 8 0) ∧
        exec (.findprimes b nb m qty) s = .next (afterError s w 7 8 0)) ∧
      (0 ≤ s.scalars[nb] → s.scalars[m] ≤ 0 → exec (.findprime rd nb m) s = .next (afterError s w 7 9 0) ∧
        exec (.findprimes b nb m qty) s = .next (afterError s w 7 9 0)) ∧
      (0 ≤ s.scalars[nb] → 0 < s.scalars[m] →
        ((∀ p, SoughtPrime (2 ^ s.scalars[nb].toNat) s.scalars[m].toNat p → ¬ Fits s.params p) →
          exec (.findprime rd nb m) s = .next (afterError s w 6 1 0)) ∧
        ((∀ r : List Nat, r.length = qty.toNat →
            SmallestSought (2 ^ s.scalars[nb].toNat) s.scalars[m].toNat r → ∃ p ∈ r, ¬ Fits s.params p) →
          exec (.findprimes b nb m qty) s = .next (afterError s w 6 1 0))))

/-- MODINV stores the inverse of `n` modulo `m` in `[1, m - 1]`; where `gcd(n mod m, m) ≠ 1` it raises DOMAIN 1 (R125, R126). -/
def Obligations.ModinvStoresInverseOrRaises : Prop :=
  ∀ (s : State) (rd n : SReg) (ms : ModSel) (m : Int), Selects s ms m → 2 ≤ m →
    (∀ y : Int, 1 ≤ y → y ≤ m - 1 → s.scalars[n] * y % m = 1 →
      ∃ t, exec (.modinv rd n ms) s = .next t ∧ ScalarWritten s t rd y) ∧
    (Int.gcd s.scalars[n] m = 1 → ∃ y : Int, 1 ≤ y ∧ y ≤ m - 1 ∧ s.scalars[n] * y % m = 1) ∧
    (∀ w, s.pending = some w → Int.gcd (s.scalars[n] % m) m ≠ 1 →
      exec (.modinv rd n ms) s = .next (afterError s w 5 1 0))

/-- MODRED stores the residue in `[0, m)`, MODCTR the congruent integer in `(-m/2, m/2]`, for every `x` (R133 to R136). -/
def Obligations.ScalarReductionsStoreResidues : Prop :=
  ∀ (s : State) (rd x : SReg) (ms : ModSel) (m v : Int), Selects s ms m → 2 ≤ m → m ∣ s.scalars[x] - v →
    (0 ≤ v ∧ v < m → ∃ t, exec (.modred rd x ms) s = .next t ∧ ScalarWritten s t rd v) ∧
    (-m < 2 * v ∧ 2 * v ≤ m → ∃ t, exec (.modctr rd x ms) s = .next t ∧ ScalarWritten s t rd v)

/-- The half-range function: its value is the unique integer in `(-m/2, m/2]` congruent to `x`; for even `m` the value `m/2` stays
positive, for odd `m` the range is `[-(m-1)/2, (m-1)/2]`; it and the reduction are inverse to each other (R135). -/
def Obligations.HalfRangeReductionIsCanonical : Prop :=
  ∀ x m : Int, 2 ≤ m →
    (-m < 2 * ctr x m ∧ 2 * ctr x m ≤ m ∧ m ∣ x - ctr x m) ∧
      (∀ v, -m < 2 * v → 2 * v ≤ m → m ∣ x - v → v = ctr x m) ∧
      (m % 2 = 0 → m ∣ x - m / 2 → ctr x m = m / 2) ∧
      (m % 2 = 1 → -((m - 1) / 2) ≤ ctr x m ∧ ctr x m ≤ (m - 1) / 2) ∧
      red (ctr x m) m = red x m ∧ ctr (red x m) m = ctr x m

/-- RNDMUL stores the multiple of `b` nearest to the exact rational `x · num / den`, ties by CTRL.TIE (R130, R131). -/
def Obligations.RndmulStoresNearestMultiple : Prop :=
  ∀ (s : State) (rd x num den : SReg) (ms : ModSel) (b k : Int), Selects s ms b → 1 ≤ b → s.scalars[den] ≠ 0 →
    NearestMultiple ((s.scalars[x] : ℚ) * s.scalars[num] / s.scalars[den]) b k s.csr.tie → Fits s.params (k * b) →
    ∃ t, exec (.rndmul rd x num den ms) s = .next t ∧ ScalarWritten s t rd (k * b)

/-- The errors of RNDMUL and PRNDMUL after the selector's: DOMAIN 2, DOMAIN 3, and OVERFLOW 1 when some result does not fit, in
that order (R131, 44_elementwise.md R219). -/
def Obligations.RoundingErrors : Prop :=
  ∀ (s : State) (w : Word) (d x num den : SReg) (rd a : PBuf) (ms : ModSel) (b : Int), s.pending = some w →
    Selects s ms b →
    (b ≤ 0 → exec (.rndmul d x num den ms) s = .next (afterError s w 5 2 0)) ∧
    (1 ≤ b → s.scalars[den] = 0 → exec (.rndmul d x num den ms) s = .next (afterError s w 5 3 0)) ∧
    (1 ≤ b → s.scalars[den] ≠ 0 → ∀ k, ¬ Fits s.params (k * b) →
      NearestMultiple ((s.scalars[x] : ℚ) * s.scalars[num] / s.scalars[den]) b k s.csr.tie →
      exec (.rndmul d x num den ms) s = .next (afterError s w 6 1 0)) ∧
    (s.csr.pvalid = true → HasBuffer s rd → HasBuffer s a →
      (b ≤ 0 → exec (.prndmul rd a num den ms) s = .next (afterError s w 5 2 0)) ∧
      (1 ≤ b → s.scalars[den] = 0 → exec (.prndmul rd a num den ms) s = .next (afterError s w 5 3 0)) ∧
      (1 ≤ b → s.scalars[den] ≠ 0 → ∀ j k, j < 2 ^ s.par.pLogn.toNat → ¬ Fits s.params (k * b) →
        NearestMultiple ((s.coeff a j : ℚ) * s.scalars[num] / s.scalars[den]) b k s.csr.tie →
        exec (.prndmul rd a num den ms) s = .next (afterError s w 6 1 0)))

/-! Parameter construction (42_parameters.md). -/

/-- PBUILD installs the parameter set that R170 derives from the configuration registers and sets PVALID; nothing else changes
(R170, R174). -/
def Obligations.PbuildInstallsDerivedParameters : Prop :=
  ∀ (s : State) (par : ParamSet), DerivedParams s.params s.cfg par →
    exec .pbuild s = .next (afterSuccess { s with par := par, csr := { s.csr with pvalid := true } })

/-- The errors of PBUILD in their order: PARAM 1 to 4, and PARAM 6 at index 0 when the first chain prime is at most `t` (R170, R171,
R173). -/
def Obligations.PbuildReportsFirstFailingCheck : Prop :=
  ∀ (s : State) (w : Word), s.pending = some w →
    let lo := s.cfg.logn.toNat
    let len := s.cfg.chain.toNat
    let order := 2 * 2 ^ lo
    (s.params.lognMax < lo → exec .pbuild s = .next (afterError s w 7 1 0)) ∧
    (lo ≤ s.params.lognMax → (len = 0 ∨ s.params.lMax + 1 < len) → exec .pbuild s = .next (afterError s w 7 2 0)) ∧
    (lo ≤ s.params.lognMax → 1 ≤ len → len ≤ s.params.lMax + 1 →
      ((∀ t, SoughtPrime (2 ^ s.cfg.pbits.toNat) order t → ¬ Fits s.params t) →
        exec .pbuild s = .next (afterError s w 7 3 0)) ∧
      ∀ t, SmallestSought (2 ^ s.cfg.pbits.toNat) order [t] → Fits s.params t →
        ((∀ r : List Nat, r.length = len → SmallestSought (2 ^ s.cfg.cbits.toNat) order r → ¬ Fits s.params r.prod) →
          exec .pbuild s = .next (afterError s w 7 4 0)) ∧
        ∀ r : List Nat, r.length = len → SmallestSought (2 ^ s.cfg.cbits.toNat) order r → Fits s.params r.prod →
          r.getD 0 0 ≤ t → exec .pbuild s = .next (afterError s w 7 6 0))

/-- A PBUILD that raises leaves the parameter registers and PVALID as they were; one that succeeds replaces the whole set and
leaves every buffer and scalar register; no other command writes a parameter register (R174). -/
def Obligations.PbuildReplacesAllOrNothing : Prop :=
  ∀ s t : State, exec .pbuild s = .next t →
    t.scalars = s.scalars ∧ t.bufs = s.bufs ∧
      ((t.par = s.par ∧ t.csr.pvalid = s.csr.pvalid ∧ t.csr.err = true) ∨
        (DerivedParams s.params s.cfg t.par ∧ t.csr.pvalid = true ∧ t.csr.err = s.csr.err)) ∧
      ∀ i u, i ≠ .pbuild → exec i s = .next u → u.par = s.par ∧ u.csr.pvalid = s.csr.pvalid

/-- MODGET copies the selected value, whatever it is, into its destination (R178). -/
def Obligations.ModgetCopiesModulus : Prop :=
  ∀ (s : State) (rd : SReg) (ms : ModSel) (v : Int), Selects s ms v →
    ∃ t, exec (.modget rd ms) s = .next t ∧ ScalarWritten s t rd v

/-! The polynomial multiplier (41_polymul.md). -/

/-- PMUL stores the exact negacyclic product of the first PN coefficients when each coefficient of it fits, and raises OVERFLOW 1
when one does not (R150, R152). -/
def Obligations.PmulStoresExactProduct : Prop :=
  ∀ (s : State) (rd a b : PBuf), HasBuffer s rd → HasBuffer s a → HasBuffer s b → s.csr.pvalid = true →
    let n : Nat := 2 ^ s.par.pLogn.toNat
    let c := schoolbook (s.coeff a) (s.coeff b) n
    ((∀ k < n, Fits s.params (c k)) → ∃ t, exec (.pmul rd a b) s = .next t ∧ LanesWritten s t rd n c) ∧
      ∀ w, s.pending = some w → (∃ k < n, ¬ Fits s.params (c k)) → exec (.pmul rd a b) s = .next (afterError s w 6 1 0)

/-- PMULM stores the negacyclic product of the first PN coefficients modulo `m` and never overflows (R150, R154). -/
def Obligations.PmulmStoresReducedProduct : Prop :=
  ∀ (s : State) (rd a b : PBuf) (ms : ModSel) (m : Int), HasBuffer s rd → HasBuffer s a → HasBuffer s b →
    s.csr.pvalid = true → Selects s ms m → 2 ≤ m →
    let n : Nat := 2 ^ s.par.pLogn.toNat
    ∃ t, exec (.pmulm rd a b ms) s = .next t ∧
      LanesWritten s t rd n (fun k => schoolbook (s.coeff a) (s.coeff b) n k % m)

/-- The laws of the multiplier: commutative, bilinear, products of monomials wrap with a sign flip, and the reduced product depends
on the operands only modulo `m` (R155). -/
def Obligations.NegacyclicProductLaws : Prop :=
  ∀ (n k : Nat), k < n →
    (∀ a b, negacyclic a b n k = negacyclic b a n k) ∧
    (∀ (x y : Int) (a a' b : Nat → Int),
      negacyclic (fun i => x * a i + y * a' i) b n k = x * negacyclic a b n k + y * negacyclic a' b n k ∧
        negacyclic b (fun i => x * a i + y * a' i) n k = x * negacyclic b a n k + y * negacyclic b a' n k) ∧
    (∀ i j, i < n → j < n →
      negacyclic (fun l => if l = i then 1 else 0) (fun l => if l = j then 1 else 0) n k =
        if i + j < n then (if k = i + j then 1 else 0) else (if k = i + j - n then -1 else 0)) ∧
    ∀ (a b : Nat → Int) (m : Int), 1 ≤ m →
      negacyclic a b n k % m = negacyclic (fun l => a l % m) (fun l => b l % m) n k % m

/-! The NTT transform engine (43_ntt.md). -/

/-- ROOT stores the canonical root for a prime `m ≡ 1 (mod 2^(k+1))`, which exists (R190, R191). -/
def Obligations.RootStoresCanonicalRoot : Prop :=
  ∀ (s : State) (rd : SReg) (ms : ModSel) (k : BitVec 8) (m : Int), k.toNat ≤ s.params.lognMax → Selects s ms m →
    IsPrime m.toNat → m.toNat % 2 ^ (k.toNat + 1) = 1 →
    ∃ (psi : Nat) (t : State), IsCanonicalRoot psi m.toNat k.toNat ∧ exec (.root rd ms k) s = .next t ∧
      ScalarWritten s t rd psi

/-- NTTF stores the values of the polynomial at the points `ψ^(2i+1)` in natural order (R192 to R194). -/
def Obligations.NttfEvaluatesAtOddPowers : Prop :=
  ∀ (s : State) (rd a : PBuf) (ms : ModSel) (q : Int), HasBuffer s rd → HasBuffer s a → s.csr.pvalid = true →
    Selects s ms q → IsPrime q.toNat → q.toNat % 2 ^ (s.par.pLogn.toNat + 1) = 1 →
    let n : Nat := 2 ^ s.par.pLogn.toNat
    ∃ (psi : Nat) (t : State), IsCanonicalRoot psi q.toNat s.par.pLogn.toNat ∧ exec (.nttf rd a ms) s = .next t ∧
      LanesWritten s t rd n
        (fun i => (∑ j ∈ Finset.range n, s.coeff a j % q * (psi : Int) ^ ((2 * i + 1) * j)) % q)

/-- NTTI stores the scaled inverse sum, with the inverse root and the inverse of N modulo `q` (R195, R196). -/
def Obligations.NttiInterpolates : Prop :=
  ∀ (s : State) (rd a : PBuf) (ms : ModSel) (q : Int), HasBuffer s rd → HasBuffer s a → s.csr.pvalid = true →
    Selects s ms q → IsPrime q.toNat → q.toNat % 2 ^ (s.par.pLogn.toNat + 1) = 1 →
    let n : Nat := 2 ^ s.par.pLogn.toNat
    ∃ (psi : Nat) (psiInv nInv : Int) (t : State), IsCanonicalRoot psi q.toNat s.par.pLogn.toNat ∧
      1 ≤ psiInv ∧ psiInv ≤ q - 1 ∧ psi * psiInv % q = 1 ∧ 1 ≤ nInv ∧ nInv ≤ q - 1 ∧ (n : Int) * nInv % q = 1 ∧
      exec (.ntti rd a ms) s = .next t ∧
      LanesWritten s t rd n
        (fun j => nInv * (∑ i ∈ Finset.range n, s.coeff a i % q * psiInv ^ ((2 * i + 1) * j)) % q)

/-- The transforms undo each other modulo `q`, so both are bijections of `[0, q)^N` (R197). -/
def Obligations.TransformsInvertEachOther : Prop :=
  ∀ (q k : Nat) (a : Nat → Int), IsPrime q → q % 2 ^ (k + 1) = 1 → ∀ j < 2 ^ k,
    intt (ntt a q k) q k j = a j % q ∧ ntt (intt a q k) q k j = a j % q ∧
      (0 ≤ ntt a q k j ∧ ntt a q k j < q) ∧ (0 ≤ intt a q k j ∧ intt a q k j < q)

/-- The negacyclic convolution theorem: the transform of the negacyclic product is the pointwise product of the transforms, and so
the inverse transform of the pointwise product is the product modulo `q` (R198). -/
def Obligations.NegacyclicConvolutionTheorem : Prop :=
  ∀ (q k : Nat) (a b : Nat → Int), IsPrime q → q % 2 ^ (k + 1) = 1 → ∀ i < 2 ^ k,
    ntt (negacyclic a b (2 ^ k)) q k i = ntt a q k i * ntt b q k i % q ∧
      intt (fun j => ntt a q k j * ntt b q k j % q) q k i = negacyclic a b (2 ^ k) i % q

/-- `encode` and then `decode` (30_encoding.md R117) give back every message entry modulo `t`, and the encoded coefficients lie in
`(-t/2, t/2]` (43_ntt.md R199). -/
def Obligations.DecodeReturnsEncodedMessage : Prop :=
  ∀ (s : State) (d e a : PBuf), HasBuffer s d → HasBuffer s e → HasBuffer s a → s.csr.pvalid = true →
    s.par.Valid s.params →
    ∃ s1 s2 s3 s4, exec (.ntti d a .t) s = .next s1 ∧ exec (.pctr d d .t) s1 = .next s2 ∧
      exec (.pred e d .t) s2 = .next s3 ∧ exec (.nttf e e .t) s3 = .next s4 ∧
      ∀ j < 2 ^ s.par.pLogn.toNat,
        s4.coeff e j = s.coeff a j % s.par.t ∧ -s.par.t < 2 * s2.coeff d j ∧ 2 * s2.coeff d j ≤ s.par.t

/-! Coefficient-wise commands (44_elementwise.md). -/

/-- NOP changes nothing beside its completion (R221). -/
def Obligations.NopOnlyCompletes : Prop :=
  ∀ s : State, exec .nop s = .next (afterSuccess s)

/-- PZERO clears the N_MAX coefficients of its buffer and PCOPY copies all N_MAX coefficients unchanged, both whatever PVALID is
(R210, R211). -/
def Obligations.DataMovementCoversWholeBuffers : Prop :=
  ∀ (s : State) (rd a : PBuf), HasBuffer s rd →
    (∃ t, exec (.pzero rd) s = .next t ∧ LanesWritten s t rd (2 ^ s.params.lognMax) (fun _ => 0)) ∧
    (HasBuffer s a → ∃ t, exec (.pcopy rd a) s = .next t ∧ LanesWritten s t rd (2 ^ s.params.lognMax) (s.coeff a))

/-- PRED and PCTR reduce each of the first PN coefficients into `[0, m)` and into `(-m/2, m/2]` (R209, R212, R213). -/
def Obligations.ReductionLanes : Prop :=
  ∀ (s : State) (rd a : PBuf) (ms : ModSel) (m : Int) (v : Nat → Int), HasBuffer s rd → HasBuffer s a →
    s.csr.pvalid = true → Selects s ms m → 2 ≤ m →
    let n : Nat := 2 ^ s.par.pLogn.toNat
    (∀ j < n, m ∣ s.coeff a j - v j) →
    ((∀ j < n, 0 ≤ v j ∧ v j < m) → ∃ t, exec (.pred rd a ms) s = .next t ∧ LanesWritten s t rd n v) ∧
      ((∀ j < n, -m < 2 * v j ∧ 2 * v j ≤ m) → ∃ t, exec (.pctr rd a ms) s = .next t ∧ LanesWritten s t rd n v)

/-- PADDM, PSUBM, PMULEW, PNEGM and PSCALM store the exact sum, difference, product, negative and scalar multiple modulo `m` of
each of the first PN coefficients (R209, R214 to R218). -/
def Obligations.ModularArithmeticLanes : Prop :=
  ∀ (s : State) (rd a b : PBuf) (c : SReg) (ms : ModSel) (m : Int), HasBuffer s rd → HasBuffer s a → HasBuffer s b →
    s.csr.pvalid = true → Selects s ms m → 2 ≤ m →
    let n : Nat := 2 ^ s.par.pLogn.toNat
    (∃ t, exec (.paddm rd a b ms) s = .next t ∧ LanesWritten s t rd n (fun j => (s.coeff a j + s.coeff b j) % m)) ∧
    (∃ t, exec (.psubm rd a b ms) s = .next t ∧ LanesWritten s t rd n (fun j => (s.coeff a j - s.coeff b j) % m)) ∧
    (∃ t, exec (.pmulew rd a b ms) s = .next t ∧ LanesWritten s t rd n (fun j => s.coeff a j * s.coeff b j % m)) ∧
    (∃ t, exec (.pnegm rd a ms) s = .next t ∧ LanesWritten s t rd n (fun j => -s.coeff a j % m)) ∧
    (∃ t, exec (.pscalm rd a c ms) s = .next t ∧ LanesWritten s t rd n (fun j => s.scalars[c] * s.coeff a j % m))

/-- PRNDMUL stores in each of the first PN coefficients the multiple of `b` nearest to the exact rational
`coefficient · num / den`, ties by CTRL.TIE, when all of them fit (R219). -/
def Obligations.PrndmulStoresNearestMultiples : Prop :=
  ∀ (s : State) (rd a : PBuf) (num den : SReg) (ms : ModSel) (b : Int) (k : Nat → Int), HasBuffer s rd → HasBuffer s a →
    s.csr.pvalid = true → Selects s ms b → 1 ≤ b → s.scalars[den] ≠ 0 →
    let n : Nat := 2 ^ s.par.pLogn.toNat
    (∀ j < n, NearestMultiple ((s.coeff a j : ℚ) * s.scalars[num] / s.scalars[den]) b (k j) s.csr.tie ∧
      Fits s.params (k j * b)) →
    ∃ t, exec (.prndmul rd a num den ms) s = .next t ∧ LanesWritten s t rd n (fun j => k j * b)
end

