-- ==== Sys2Proof/Laws/Buf.lean ====
section
/-! SUPPORT. Reading a buffer after each operation on it, and the canonical form, which every operation keeps. -/

namespace Sys2Proof.Machine

/-- A register file made of sixteen values reads as the function it was made of. -/
@[simp] theorem sixteen_getElem {α : Type} (f : Nat → α) (i : Nat) (h : i < 16) : (sixteen f)[i] = f i := by
  have : ∀ j : Fin 16, (sixteen f)[j.val] = f j.val := by
    intro j
    fin_cases j <;> rfl
  exact this ⟨i, h⟩

@[simp] theorem Buf.get_nil (j : Nat) : Buf.get [] j = 0 := rfl

theorem Buf.get_eq_zero {b : Buf} {j : Nat} (h : ∀ e ∈ b, e.1 ≠ j) : b.get j = 0 := by
  induction b with
  | nil => rfl
  | cons e rest ih =>
    have h1 : e.1 ≠ j := h e (by simp)
    simp [Buf.get, h1, ih fun e he => h e (by simp [he])]

/-- Reading a concatenation: the first part answers where it lists the index. -/
theorem Buf.get_append (b c : Buf) (j : Nat) :
    Buf.get (b ++ c) j = if ∃ e ∈ b, e.1 = j then b.get j else c.get j := by
  induction b with
  | nil => simp
  | cons e rest ih =>
    rw [List.cons_append, Buf.get, Buf.get, ih]
    simp only [List.exists_mem_cons_iff]
    by_cases h : e.1 = j
    · simp only [h, if_true, true_or]
    · simp only [h, if_false, false_or]

/-- Reading through a filter on indices. -/
theorem Buf.get_filter (b : Buf) (p : Nat → Bool) (j : Nat) :
    Buf.get (b.filter fun e => p e.1) j = if p j then b.get j else 0 := by
  induction b with
  | nil => simp
  | cons e rest ih =>
    obtain ⟨k, v⟩ := e
    by_cases hk : k = j
    · subst hk
      by_cases hp : p k
      · simp [hp, Buf.get]
      · simpa [List.filter_cons, hp] using ih
    · by_cases hp : p k
      · simp [hp, Buf.get, hk, ih]
      · simp [hp, Buf.get, hk, ih]

theorem Buf.mem_entries {f : Nat → Int} {lo count : Nat} {e : Nat × Int} (h : e ∈ Buf.entries f lo count) :
    lo ≤ e.1 ∧ e.1 < lo + count ∧ e.2 = f e.1 ∧ e.2 ≠ 0 := by
  induction count generalizing lo with
  | zero => simp [Buf.entries] at h
  | succ n ih =>
    rw [Buf.entries] at h
    split at h
    · have := ih h
      omega
    · rename_i hz
      rcases List.mem_cons.1 h with rfl | h
      · exact ⟨Nat.le_refl _, by simp, rfl, hz⟩
      · have := ih h
        omega

/-- Reading freshly made entries. -/
theorem Buf.get_entries (f : Nat → Int) (lo count j : Nat) :
    (Buf.entries f lo count).get j = if lo ≤ j ∧ j < lo + count then f j else 0 := by
  induction count generalizing lo with
  | zero =>
    have : ¬ (lo ≤ j ∧ j < lo + 0) := by omega
    rw [if_neg this]
    rfl
  | succ n ih =>
    rw [Buf.entries]
    by_cases hj : lo = j
    · subst hj
      have h1 : ¬ (lo + 1 ≤ lo) := by omega
      by_cases hz : f lo = 0 <;> simp [hz, Buf.get, ih, h1]
    · have : (lo ≤ j ∧ j < lo + (n + 1)) ↔ (lo + 1 ≤ j ∧ j < lo + 1 + n) := by omega
      by_cases hz : f lo = 0 <;> simp [hz, Buf.get, ih, hj, this]

/-- Reading after a splice: the new value inside the range, the old one outside. -/
theorem Buf.get_splice (b : Buf) (lo count j : Nat) (f : Nat → Int) :
    (b.splice lo count f).get j = if lo ≤ j ∧ j < lo + count then f j else b.get j := by
  have hlow := Buf.get_filter b (fun k => decide (k < lo)) j
  have hhigh := Buf.get_filter b (fun k => decide (lo + count ≤ k)) j
  simp only [decide_eq_true_eq] at hlow hhigh
  rw [Buf.splice, List.append_assoc, Buf.get_append, Buf.get_append, Buf.get_entries, hlow, hhigh]
  by_cases h1 : j < lo
  · have hr : ¬ (lo ≤ j ∧ j < lo + count) := by omega
    have hh : ¬ (lo + count ≤ j) := by omega
    have he : ¬ ∃ e ∈ Buf.entries f lo count, e.1 = j := by
      rintro ⟨e, he, rfl⟩
      have := Buf.mem_entries he
      omega
    simp only [h1, hr, hh, he, if_true, if_false]
    split
    · rfl
    · rename_i hne
      refine (Buf.get_eq_zero fun e he hej => hne ⟨e, ?_, hej⟩).symm
      simp [he, hej, h1]
  · have hl : ¬ ∃ e ∈ b.filter (fun e => decide (e.1 < lo)), e.1 = j := by
      rintro ⟨e, he, rfl⟩
      simp at he
      omega
    simp only [hl, if_false]
    by_cases h2 : j < lo + count
    · have hr : lo ≤ j ∧ j < lo + count := by omega
      have hh : ¬ (lo + count ≤ j) := by omega
      simp only [hr, hh, if_true, if_false, true_and]
      split
      · rfl
      · rename_i hne
        by_contra hf
        have : (Buf.entries f lo count).get j = 0 := Buf.get_eq_zero fun e he hej => hne ⟨e, he, hej⟩
        rw [Buf.get_entries, if_pos hr] at this
        exact hf this.symm
    · have hr : ¬ (lo ≤ j ∧ j < lo + count) := by omega
      have hh : lo + count ≤ j := by omega
      have he : ¬ ∃ e ∈ Buf.entries f lo count, e.1 = j := by
        rintro ⟨e, he, rfl⟩
        have := Buf.mem_entries he
        omega
      simp [hr, hh, he]

/-- Reading after an overlay: the source below the count, the old buffer from it on. -/
theorem Buf.get_overlay (b src : Buf) (count j : Nat) :
    (b.overlay src count).get j = if j < count then src.get j else b.get j := by
  have hlow := Buf.get_filter src (fun k => decide (k < count)) j
  have hhigh := Buf.get_filter b (fun k => decide (count ≤ k)) j
  simp only [decide_eq_true_eq] at hlow hhigh
  rw [Buf.overlay, Buf.get_append, hlow, hhigh]
  by_cases h : j < count
  · have hh : ¬ (count ≤ j) := by omega
    simp only [h, hh, if_true, if_false]
    split
    · rfl
    · rename_i hne
      refine (Buf.get_eq_zero fun e he hej => hne ⟨e, ?_, hej⟩).symm
      simp [he, hej, h]
  · have hl : ¬ ∃ e ∈ src.filter (fun e => decide (e.1 < count)), e.1 = j := by
      rintro ⟨e, he, rfl⟩
      simp at he
      omega
    have hh : count ≤ j := by omega
    simp [h, hh]

theorem Buf.canonical_entries (f : Nat → Int) (lo count : Nat) : Buf.Canonical (Buf.entries f lo count) := by
  refine ⟨?_, fun e he => (Buf.mem_entries he).2.2.2⟩
  induction count generalizing lo with
  | zero => simp [Buf.entries]
  | succ n ih =>
    rw [Buf.entries]
    split
    · exact ih _
    · refine List.pairwise_cons.2 ⟨fun e he => ?_, ih _⟩
      have := (Buf.mem_entries he).1
      omega

/-- A splice keeps the canonical form. -/
theorem Buf.canonical_splice {b : Buf} (h : Buf.Canonical b) (lo count : Nat) (f : Nat → Int) :
    Buf.Canonical (b.splice lo count f) := by
  obtain ⟨hp, hz⟩ := h
  have he := Buf.canonical_entries f lo count
  refine ⟨?_, ?_⟩
  · rw [Buf.splice, List.pairwise_append, List.pairwise_append]
    refine ⟨⟨hp.filter _, he.1, fun x hx y hy => ?_⟩, hp.filter _, fun x hx y hy => ?_⟩
    · have := Buf.mem_entries hy
      simp at hx
      omega
    · simp at hy
      rcases List.mem_append.1 hx with hx | hx
      · simp at hx
        omega
      · have := Buf.mem_entries hx
        omega
  · intro e hm
    simp only [Buf.splice, List.mem_append, List.mem_filter] at hm
    rcases hm with (hm | hm) | hm
    · exact hz e hm.1
    · exact he.2 e hm
    · exact hz e hm.1

/-- An overlay keeps the canonical form. -/
theorem Buf.canonical_overlay {b src : Buf} (h : Buf.Canonical b) (hs : Buf.Canonical src) (count : Nat) :
    Buf.Canonical (b.overlay src count) := by
  refine ⟨?_, ?_⟩
  · rw [Buf.overlay, List.pairwise_append]
    refine ⟨hs.1.filter _, h.1.filter _, fun x hx y hy => ?_⟩
    simp at hx hy
    omega
  · intro e hm
    simp only [Buf.overlay, List.mem_append, List.mem_filter] at hm
    rcases hm with hm | hm
    · exact hs.2 e hm.1
    · exact h.2 e hm.1

/-- Every buffer after reset is canonical. -/
theorem Buf.canonical_reset (b : PBuf) : Buf.Canonical State.reset.bufs[b] := by
  simp [State.reset, Buf.Canonical]

end Sys2Proof.Machine
end

