-- ==== Sys2Proof/Laws/State.lean ====
section
/-! SUPPORT. One lemma per field per update of the state and of the control and status registers. -/

namespace Sys2Proof.Machine

section
variable (s : State)

@[simp] theorem State.writeScalar_scalars (rd : SReg) (v : Int) : (s.writeScalar rd v).scalars = s.scalars.set rd v := rfl
@[simp] theorem State.writeScalar_bufs (rd : SReg) (v : Int) : (s.writeScalar rd v).bufs = s.bufs := rfl
@[simp] theorem State.writeScalar_par (rd : SReg) (v : Int) : (s.writeScalar rd v).par = s.par := rfl
@[simp] theorem State.writeScalar_cfg (rd : SReg) (v : Int) : (s.writeScalar rd v).cfg = s.cfg := rfl
@[simp] theorem State.writeScalar_csr (rd : SReg) (v : Int) : (s.writeScalar rd v).csr = s.csr := rfl
@[simp] theorem State.writeScalar_pending (rd : SReg) (v : Int) : (s.writeScalar rd v).pending = s.pending := rfl
@[simp] theorem State.writeScalar_resetPin (rd : SReg) (v : Int) : (s.writeScalar rd v).resetPin = s.resetPin := rfl
@[simp] theorem State.writeScalar_busData (rd : SReg) (v : Int) : (s.writeScalar rd v).busData = s.busData := rfl
@[simp] theorem State.writeScalar_params (rd : SReg) (v : Int) : (s.writeScalar rd v).params = s.params := rfl
@[simp] theorem State.writeScalar_schedule (rd : SReg) (v : Int) : (s.writeScalar rd v).schedule = s.schedule := rfl
@[simp] theorem State.writeScalar_freeCount (rd : SReg) (v : Int) : (s.writeScalar rd v).freeCount = s.freeCount := rfl

@[simp] theorem State.writeLanes_scalars (rd : PBuf) (n : Nat) (f : Nat → Int) : (s.writeLanes rd n f).scalars = s.scalars := rfl
@[simp] theorem State.writeLanes_bufs (rd : PBuf) (n : Nat) (f : Nat → Int) : (s.writeLanes rd n f).bufs = s.bufs.set rd ((s.bufs[rd]).splice 0 n f) := rfl
@[simp] theorem State.writeLanes_par (rd : PBuf) (n : Nat) (f : Nat → Int) : (s.writeLanes rd n f).par = s.par := rfl
@[simp] theorem State.writeLanes_cfg (rd : PBuf) (n : Nat) (f : Nat → Int) : (s.writeLanes rd n f).cfg = s.cfg := rfl
@[simp] theorem State.writeLanes_csr (rd : PBuf) (n : Nat) (f : Nat → Int) : (s.writeLanes rd n f).csr = s.csr := rfl
@[simp] theorem State.writeLanes_pending (rd : PBuf) (n : Nat) (f : Nat → Int) : (s.writeLanes rd n f).pending = s.pending := rfl
@[simp] theorem State.writeLanes_resetPin (rd : PBuf) (n : Nat) (f : Nat → Int) : (s.writeLanes rd n f).resetPin = s.resetPin := rfl
@[simp] theorem State.writeLanes_busData (rd : PBuf) (n : Nat) (f : Nat → Int) : (s.writeLanes rd n f).busData = s.busData := rfl
@[simp] theorem State.writeLanes_params (rd : PBuf) (n : Nat) (f : Nat → Int) : (s.writeLanes rd n f).params = s.params := rfl
@[simp] theorem State.writeLanes_schedule (rd : PBuf) (n : Nat) (f : Nat → Int) : (s.writeLanes rd n f).schedule = s.schedule := rfl
@[simp] theorem State.writeLanes_freeCount (rd : PBuf) (n : Nat) (f : Nat → Int) : (s.writeLanes rd n f).freeCount = s.freeCount := rfl

@[simp] theorem State.copyLanes_scalars (rd : PBuf) (n : Nat) (src : Buf) : (s.copyLanes rd n src).scalars = s.scalars := rfl
@[simp] theorem State.copyLanes_bufs (rd : PBuf) (n : Nat) (src : Buf) : (s.copyLanes rd n src).bufs = s.bufs.set rd ((s.bufs[rd]).overlay src n) := rfl
@[simp] theorem State.copyLanes_par (rd : PBuf) (n : Nat) (src : Buf) : (s.copyLanes rd n src).par = s.par := rfl
@[simp] theorem State.copyLanes_cfg (rd : PBuf) (n : Nat) (src : Buf) : (s.copyLanes rd n src).cfg = s.cfg := rfl
@[simp] theorem State.copyLanes_csr (rd : PBuf) (n : Nat) (src : Buf) : (s.copyLanes rd n src).csr = s.csr := rfl
@[simp] theorem State.copyLanes_pending (rd : PBuf) (n : Nat) (src : Buf) : (s.copyLanes rd n src).pending = s.pending := rfl
@[simp] theorem State.copyLanes_resetPin (rd : PBuf) (n : Nat) (src : Buf) : (s.copyLanes rd n src).resetPin = s.resetPin := rfl
@[simp] theorem State.copyLanes_busData (rd : PBuf) (n : Nat) (src : Buf) : (s.copyLanes rd n src).busData = s.busData := rfl
@[simp] theorem State.copyLanes_params (rd : PBuf) (n : Nat) (src : Buf) : (s.copyLanes rd n src).params = s.params := rfl
@[simp] theorem State.copyLanes_schedule (rd : PBuf) (n : Nat) (src : Buf) : (s.copyLanes rd n src).schedule = s.schedule := rfl
@[simp] theorem State.copyLanes_freeCount (rd : PBuf) (n : Nat) (src : Buf) : (s.copyLanes rd n src).freeCount = s.freeCount := rfl

@[simp] theorem State.enterError_scalars (e : CmdError) : (s.enterError e).scalars = s.scalars := rfl
@[simp] theorem State.enterError_bufs (e : CmdError) : (s.enterError e).bufs = s.bufs := rfl
@[simp] theorem State.enterError_par (e : CmdError) : (s.enterError e).par = s.par := rfl
@[simp] theorem State.enterError_cfg (e : CmdError) : (s.enterError e).cfg = s.cfg := rfl
@[simp] theorem State.enterError_csr (e : CmdError) : (s.enterError e).csr = { s.csr.completed with err := true, ecmd := s.commandWord, ecause := ecauseWord e } := rfl
@[simp] theorem State.enterError_pending (e : CmdError) : (s.enterError e).pending = none := rfl
@[simp] theorem State.enterError_resetPin (e : CmdError) : (s.enterError e).resetPin = s.resetPin := rfl
@[simp] theorem State.enterError_busData (e : CmdError) : (s.enterError e).busData = s.busData := rfl
@[simp] theorem State.enterError_params (e : CmdError) : (s.enterError e).params = s.params := rfl
@[simp] theorem State.enterError_schedule (e : CmdError) : (s.enterError e).schedule = s.schedule := rfl
@[simp] theorem State.enterError_freeCount (e : CmdError) : (s.enterError e).freeCount = s.freeCount := rfl

@[simp] theorem State.returnFromError_scalars (w : Word) : (s.returnFromError w).scalars = s.scalars := rfl
@[simp] theorem State.returnFromError_bufs (w : Word) : (s.returnFromError w).bufs = s.bufs := rfl
@[simp] theorem State.returnFromError_par (w : Word) : (s.returnFromError w).par = s.par := rfl
@[simp] theorem State.returnFromError_cfg (w : Word) : (s.returnFromError w).cfg = s.cfg := rfl
@[simp] theorem State.returnFromError_csr (w : Word) : (s.returnFromError w).csr = s.csr.writeStatus w := rfl
@[simp] theorem State.returnFromError_pending (w : Word) : (s.returnFromError w).pending = s.pending := rfl
@[simp] theorem State.returnFromError_resetPin (w : Word) : (s.returnFromError w).resetPin = s.resetPin := rfl
@[simp] theorem State.returnFromError_busData (w : Word) : (s.returnFromError w).busData = s.busData := rfl
@[simp] theorem State.returnFromError_params (w : Word) : (s.returnFromError w).params = s.params := rfl
@[simp] theorem State.returnFromError_schedule (w : Word) : (s.returnFromError w).schedule = s.schedule := rfl
@[simp] theorem State.returnFromError_freeCount (w : Word) : (s.returnFromError w).freeCount = s.freeCount := rfl

@[simp] theorem State.complete_scalars : (s.complete).scalars = s.scalars := rfl
@[simp] theorem State.complete_bufs : (s.complete).bufs = s.bufs := rfl
@[simp] theorem State.complete_par : (s.complete).par = s.par := rfl
@[simp] theorem State.complete_cfg : (s.complete).cfg = s.cfg := rfl
@[simp] theorem State.complete_csr : (s.complete).csr = s.csr.completed := rfl
@[simp] theorem State.complete_pending : (s.complete).pending = none := rfl
@[simp] theorem State.complete_resetPin : (s.complete).resetPin = s.resetPin := rfl
@[simp] theorem State.complete_busData : (s.complete).busData = s.busData := rfl
@[simp] theorem State.complete_params : (s.complete).params = s.params := rfl
@[simp] theorem State.complete_schedule : (s.complete).schedule = s.schedule := rfl
@[simp] theorem State.complete_freeCount : (s.complete).freeCount = s.freeCount := rfl

@[simp] theorem State.resetValues_par : (s.resetValues).par = ParamSet.zero := rfl
@[simp] theorem State.resetValues_cfg : (s.resetValues).cfg = CfgRegs.zero := rfl
@[simp] theorem State.resetValues_csr : (s.resetValues).csr = Csr.zero := rfl
@[simp] theorem State.resetValues_pending : (s.resetValues).pending = none := rfl
@[simp] theorem State.resetValues_resetPin : (s.resetValues).resetPin = s.resetPin := rfl
@[simp] theorem State.resetValues_busData : (s.resetValues).busData = s.busData := rfl
@[simp] theorem State.resetValues_params : (s.resetValues).params = s.params := rfl
@[simp] theorem State.resetValues_schedule : (s.resetValues).schedule = s.schedule := rfl
@[simp] theorem State.resetValues_freeCount : (s.resetValues).freeCount = s.freeCount + 1 := rfl

@[simp] theorem State.softReset_par : (s.softReset).par = ParamSet.zero := rfl
@[simp] theorem State.softReset_cfg : (s.softReset).cfg = CfgRegs.zero := rfl
@[simp] theorem State.softReset_csr : (s.softReset).csr = Csr.zero := rfl
@[simp] theorem State.softReset_pending : (s.softReset).pending = none := rfl
@[simp] theorem State.softReset_resetPin : (s.softReset).resetPin = s.resetPin := rfl
@[simp] theorem State.softReset_busData : (s.softReset).busData = s.busData := rfl
@[simp] theorem State.softReset_params : (s.softReset).params = s.params := rfl
@[simp] theorem State.softReset_schedule : (s.softReset).schedule = s.schedule := rfl
@[simp] theorem State.softReset_freeCount : (s.softReset).freeCount = s.freeCount + 1 := rfl

@[simp] theorem State.busError_scalars : (s.busError).scalars = s.scalars := rfl
@[simp] theorem State.busError_bufs : (s.busError).bufs = s.bufs := rfl
@[simp] theorem State.busError_par : (s.busError).par = s.par := rfl
@[simp] theorem State.busError_cfg : (s.busError).cfg = s.cfg := rfl
@[simp] theorem State.busError_csr : (s.busError).csr = s.csr.withAerr := rfl
@[simp] theorem State.busError_pending : (s.busError).pending = s.pending := rfl
@[simp] theorem State.busError_resetPin : (s.busError).resetPin = s.resetPin := rfl
@[simp] theorem State.busError_busData : (s.busError).busData = s.busData := rfl
@[simp] theorem State.busError_params : (s.busError).params = s.params := rfl
@[simp] theorem State.busError_schedule : (s.busError).schedule = s.schedule := rfl
@[simp] theorem State.busError_freeCount : (s.busError).freeCount = s.freeCount := rfl

@[simp] theorem State.hazard_scalars : (s.hazard).scalars = s.scalars := rfl
@[simp] theorem State.hazard_bufs : (s.hazard).bufs = s.bufs := rfl
@[simp] theorem State.hazard_par : (s.hazard).par = s.par := rfl
@[simp] theorem State.hazard_cfg : (s.hazard).cfg = s.cfg := rfl
@[simp] theorem State.hazard_csr : (s.hazard).csr = s.csr.withHaz := rfl
@[simp] theorem State.hazard_pending : (s.hazard).pending = s.pending := rfl
@[simp] theorem State.hazard_resetPin : (s.hazard).resetPin = s.resetPin := rfl
@[simp] theorem State.hazard_busData : (s.hazard).busData = s.busData := rfl
@[simp] theorem State.hazard_params : (s.hazard).params = s.params := rfl
@[simp] theorem State.hazard_schedule : (s.hazard).schedule = s.schedule := rfl
@[simp] theorem State.hazard_freeCount : (s.hazard).freeCount = s.freeCount := rfl

@[simp] theorem State.ignoreWrite_scalars : (s.ignoreWrite).scalars = s.scalars := by
  unfold State.ignoreWrite; split <;> rfl
@[simp] theorem State.ignoreWrite_bufs : (s.ignoreWrite).bufs = s.bufs := by
  unfold State.ignoreWrite; split <;> rfl
@[simp] theorem State.ignoreWrite_par : (s.ignoreWrite).par = s.par := by
  unfold State.ignoreWrite; split <;> rfl
@[simp] theorem State.ignoreWrite_cfg : (s.ignoreWrite).cfg = s.cfg := by
  unfold State.ignoreWrite; split <;> rfl
@[simp] theorem State.ignoreWrite_pending : (s.ignoreWrite).pending = s.pending := by
  unfold State.ignoreWrite; split <;> rfl
@[simp] theorem State.ignoreWrite_resetPin : (s.ignoreWrite).resetPin = s.resetPin := by
  unfold State.ignoreWrite; split <;> rfl
@[simp] theorem State.ignoreWrite_busData : (s.ignoreWrite).busData = s.busData := by
  unfold State.ignoreWrite; split <;> rfl
@[simp] theorem State.ignoreWrite_params : (s.ignoreWrite).params = s.params := by
  unfold State.ignoreWrite; split <;> rfl
@[simp] theorem State.ignoreWrite_schedule : (s.ignoreWrite).schedule = s.schedule := by
  unfold State.ignoreWrite; split <;> rfl
@[simp] theorem State.ignoreWrite_freeCount : (s.ignoreWrite).freeCount = s.freeCount := by
  unfold State.ignoreWrite; split <;> rfl

@[simp] theorem State.answerFree_scalars : (s.answerFree).scalars = s.scalars := rfl
@[simp] theorem State.answerFree_bufs : (s.answerFree).bufs = s.bufs := rfl
@[simp] theorem State.answerFree_par : (s.answerFree).par = s.par := rfl
@[simp] theorem State.answerFree_cfg : (s.answerFree).cfg = s.cfg := rfl
@[simp] theorem State.answerFree_csr : (s.answerFree).csr = s.csr := rfl
@[simp] theorem State.answerFree_pending : (s.answerFree).pending = s.pending := rfl
@[simp] theorem State.answerFree_resetPin : (s.answerFree).resetPin = s.resetPin := rfl
@[simp] theorem State.answerFree_busData : (s.answerFree).busData = Config.freeWord s.freeCount := rfl
@[simp] theorem State.answerFree_params : (s.answerFree).params = s.params := rfl
@[simp] theorem State.answerFree_schedule : (s.answerFree).schedule = s.schedule := rfl
@[simp] theorem State.answerFree_freeCount : (s.answerFree).freeCount = s.freeCount + 1 := rfl

@[simp] theorem State.accept_scalars (w : Word) : (s.accept w).scalars = s.scalars := rfl
@[simp] theorem State.accept_bufs (w : Word) : (s.accept w).bufs = s.bufs := rfl
@[simp] theorem State.accept_par (w : Word) : (s.accept w).par = s.par := rfl
@[simp] theorem State.accept_cfg (w : Word) : (s.accept w).cfg = s.cfg := rfl
@[simp] theorem State.accept_csr (w : Word) : (s.accept w).csr = s.csr.accepted w := rfl
@[simp] theorem State.accept_pending (w : Word) : (s.accept w).pending = some w := rfl
@[simp] theorem State.accept_resetPin (w : Word) : (s.accept w).resetPin = s.resetPin := rfl
@[simp] theorem State.accept_busData (w : Word) : (s.accept w).busData = s.busData := rfl
@[simp] theorem State.accept_params (w : Word) : (s.accept w).params = s.params := rfl
@[simp] theorem State.accept_schedule (w : Word) : (s.accept w).schedule = s.schedule := rfl
@[simp] theorem State.accept_freeCount (w : Word) : (s.accept w).freeCount = s.freeCount := rfl

@[simp] theorem State.loadCommand_scalars (w : Word) : (s.loadCommand w).scalars = s.scalars := rfl
@[simp] theorem State.loadCommand_bufs (w : Word) : (s.loadCommand w).bufs = s.bufs := rfl
@[simp] theorem State.loadCommand_par (w : Word) : (s.loadCommand w).par = s.par := rfl
@[simp] theorem State.loadCommand_cfg (w : Word) : (s.loadCommand w).cfg = s.cfg := rfl
@[simp] theorem State.loadCommand_csr (w : Word) : (s.loadCommand w).csr = s.csr.accepted w := rfl
@[simp] theorem State.loadCommand_pending (w : Word) : (s.loadCommand w).pending = some w := rfl
@[simp] theorem State.loadCommand_resetPin (w : Word) : (s.loadCommand w).resetPin = false := rfl
@[simp] theorem State.loadCommand_busData (w : Word) : (s.loadCommand w).busData = s.busData := rfl
@[simp] theorem State.loadCommand_params (w : Word) : (s.loadCommand w).params = s.params := rfl
@[simp] theorem State.loadCommand_schedule (w : Word) : (s.loadCommand w).schedule = .engine :: s.schedule := rfl
@[simp] theorem State.loadCommand_freeCount (w : Word) : (s.loadCommand w).freeCount = s.freeCount := rfl

@[simp] theorem State.withFetchWord_scalars (nbits w : Nat) : (s.withFetchWord nbits w).scalars = s.scalars := rfl
@[simp] theorem State.withFetchWord_bufs (nbits w : Nat) : (s.withFetchWord nbits w).bufs = s.bufs := rfl
@[simp] theorem State.withFetchWord_par (nbits w : Nat) : (s.withFetchWord nbits w).par = s.par := rfl
@[simp] theorem State.withFetchWord_cfg (nbits w : Nat) : (s.withFetchWord nbits w).cfg = s.cfg := rfl
@[simp] theorem State.withFetchWord_csr (nbits w : Nat) : (s.withFetchWord nbits w).csr = s.csr.accepted (BitVec.ofNat 32 (w % 2 ^ nbits)) := rfl
@[simp] theorem State.withFetchWord_pending (nbits w : Nat) : (s.withFetchWord nbits w).pending = some (BitVec.ofNat 32 (w % 2 ^ nbits)) := rfl
@[simp] theorem State.withFetchWord_resetPin (nbits w : Nat) : (s.withFetchWord nbits w).resetPin = false := rfl
@[simp] theorem State.withFetchWord_busData (nbits w : Nat) : (s.withFetchWord nbits w).busData = s.busData := rfl
@[simp] theorem State.withFetchWord_params (nbits w : Nat) : (s.withFetchWord nbits w).params = s.params := rfl
@[simp] theorem State.withFetchWord_schedule (nbits w : Nat) : (s.withFetchWord nbits w).schedule = .engine :: s.schedule := rfl
@[simp] theorem State.withFetchWord_freeCount (nbits w : Nat) : (s.withFetchWord nbits w).freeCount = s.freeCount := rfl

end

section
variable (c : Csr)

@[simp] theorem Csr.completed_ie : (c.completed).ie = c.ie := rfl
@[simp] theorem Csr.completed_tie : (c.completed).tie = c.tie := rfl
@[simp] theorem Csr.completed_done : (c.completed).done = true := rfl
@[simp] theorem Csr.completed_err : (c.completed).err = c.err := rfl
@[simp] theorem Csr.completed_pvalid : (c.completed).pvalid = c.pvalid := rfl
@[simp] theorem Csr.completed_aerr : (c.completed).aerr = c.aerr := rfl
@[simp] theorem Csr.completed_haz : (c.completed).haz = c.haz := rfl
@[simp] theorem Csr.completed_cmd : (c.completed).cmd = c.cmd := rfl
@[simp] theorem Csr.completed_ecmd : (c.completed).ecmd = c.ecmd := rfl
@[simp] theorem Csr.completed_ecause : (c.completed).ecause = c.ecause := rfl
@[simp] theorem Csr.completed_ccount : (c.completed).ccount = c.ccount + 1 := rfl

@[simp] theorem Csr.accepted_ie (w : Word) : (c.accepted w).ie = c.ie := rfl
@[simp] theorem Csr.accepted_tie (w : Word) : (c.accepted w).tie = c.tie := rfl
@[simp] theorem Csr.accepted_done (w : Word) : (c.accepted w).done = false := rfl
@[simp] theorem Csr.accepted_err (w : Word) : (c.accepted w).err = c.err := rfl
@[simp] theorem Csr.accepted_pvalid (w : Word) : (c.accepted w).pvalid = c.pvalid := rfl
@[simp] theorem Csr.accepted_aerr (w : Word) : (c.accepted w).aerr = c.aerr := rfl
@[simp] theorem Csr.accepted_haz (w : Word) : (c.accepted w).haz = c.haz := rfl
@[simp] theorem Csr.accepted_cmd (w : Word) : (c.accepted w).cmd = w := rfl
@[simp] theorem Csr.accepted_ecmd (w : Word) : (c.accepted w).ecmd = c.ecmd := rfl
@[simp] theorem Csr.accepted_ecause (w : Word) : (c.accepted w).ecause = c.ecause := rfl
@[simp] theorem Csr.accepted_ccount (w : Word) : (c.accepted w).ccount = c.ccount := rfl

@[simp] theorem Csr.withAerr_ie : (c.withAerr).ie = c.ie := rfl
@[simp] theorem Csr.withAerr_tie : (c.withAerr).tie = c.tie := rfl
@[simp] theorem Csr.withAerr_done : (c.withAerr).done = c.done := rfl
@[simp] theorem Csr.withAerr_err : (c.withAerr).err = c.err := rfl
@[simp] theorem Csr.withAerr_pvalid : (c.withAerr).pvalid = c.pvalid := rfl
@[simp] theorem Csr.withAerr_aerr : (c.withAerr).aerr = true := rfl
@[simp] theorem Csr.withAerr_haz : (c.withAerr).haz = c.haz := rfl
@[simp] theorem Csr.withAerr_cmd : (c.withAerr).cmd = c.cmd := rfl
@[simp] theorem Csr.withAerr_ecmd : (c.withAerr).ecmd = c.ecmd := rfl
@[simp] theorem Csr.withAerr_ecause : (c.withAerr).ecause = c.ecause := rfl
@[simp] theorem Csr.withAerr_ccount : (c.withAerr).ccount = c.ccount := rfl

@[simp] theorem Csr.withHaz_ie : (c.withHaz).ie = c.ie := rfl
@[simp] theorem Csr.withHaz_tie : (c.withHaz).tie = c.tie := rfl
@[simp] theorem Csr.withHaz_done : (c.withHaz).done = c.done := rfl
@[simp] theorem Csr.withHaz_err : (c.withHaz).err = c.err := rfl
@[simp] theorem Csr.withHaz_pvalid : (c.withHaz).pvalid = c.pvalid := rfl
@[simp] theorem Csr.withHaz_aerr : (c.withHaz).aerr = c.aerr := rfl
@[simp] theorem Csr.withHaz_haz : (c.withHaz).haz = true := rfl
@[simp] theorem Csr.withHaz_cmd : (c.withHaz).cmd = c.cmd := rfl
@[simp] theorem Csr.withHaz_ecmd : (c.withHaz).ecmd = c.ecmd := rfl
@[simp] theorem Csr.withHaz_ecause : (c.withHaz).ecause = c.ecause := rfl
@[simp] theorem Csr.withHaz_ccount : (c.withHaz).ccount = c.ccount := rfl

@[simp] theorem Csr.writeStatus_ie (w : Word) : (c.writeStatus w).ie = c.ie := rfl
@[simp] theorem Csr.writeStatus_tie (w : Word) : (c.writeStatus w).tie = c.tie := rfl
@[simp] theorem Csr.writeStatus_done (w : Word) : (c.writeStatus w).done = (c.done && !bitOf w 1) := rfl
@[simp] theorem Csr.writeStatus_err (w : Word) : (c.writeStatus w).err = (c.err && !bitOf w 2) := rfl
@[simp] theorem Csr.writeStatus_pvalid (w : Word) : (c.writeStatus w).pvalid = c.pvalid := rfl
@[simp] theorem Csr.writeStatus_aerr (w : Word) : (c.writeStatus w).aerr = (c.aerr && !bitOf w 4) := rfl
@[simp] theorem Csr.writeStatus_haz (w : Word) : (c.writeStatus w).haz = (c.haz && !bitOf w 5) := rfl
@[simp] theorem Csr.writeStatus_cmd (w : Word) : (c.writeStatus w).cmd = c.cmd := rfl
@[simp] theorem Csr.writeStatus_ecmd (w : Word) : (c.writeStatus w).ecmd = c.ecmd := rfl
@[simp] theorem Csr.writeStatus_ecause (w : Word) : (c.writeStatus w).ecause = c.ecause := rfl
@[simp] theorem Csr.writeStatus_ccount (w : Word) : (c.writeStatus w).ccount = c.ccount := rfl

@[simp] theorem Csr.writeCtrl_ie (busy : Bool) (w : Word) : (c.writeCtrl busy w).ie = bitOf w 0 := rfl
@[simp] theorem Csr.writeCtrl_tie (busy : Bool) (w : Word) : (c.writeCtrl busy w).tie = (if busy then c.tie else bitOf w 1) := rfl
@[simp] theorem Csr.writeCtrl_done (busy : Bool) (w : Word) : (c.writeCtrl busy w).done = c.done := rfl
@[simp] theorem Csr.writeCtrl_err (busy : Bool) (w : Word) : (c.writeCtrl busy w).err = c.err := rfl
@[simp] theorem Csr.writeCtrl_pvalid (busy : Bool) (w : Word) : (c.writeCtrl busy w).pvalid = c.pvalid := rfl
@[simp] theorem Csr.writeCtrl_aerr (busy : Bool) (w : Word) : (c.writeCtrl busy w).aerr = c.aerr := rfl
@[simp] theorem Csr.writeCtrl_haz (busy : Bool) (w : Word) : (c.writeCtrl busy w).haz = (c.haz || (busy && (bitOf w 1 != c.tie))) := rfl
@[simp] theorem Csr.writeCtrl_cmd (busy : Bool) (w : Word) : (c.writeCtrl busy w).cmd = c.cmd := rfl
@[simp] theorem Csr.writeCtrl_ecmd (busy : Bool) (w : Word) : (c.writeCtrl busy w).ecmd = c.ecmd := rfl
@[simp] theorem Csr.writeCtrl_ecause (busy : Bool) (w : Word) : (c.writeCtrl busy w).ecause = c.ecause := rfl
@[simp] theorem Csr.writeCtrl_ccount (busy : Bool) (w : Word) : (c.writeCtrl busy w).ccount = c.ccount := rfl

end

end Sys2Proof.Machine
end

