-- ==== Sys2Proof/Laws/Ops.lean ====
section
/-! SUPPORT. Everything each shared operation of the commands can do, said once: the operand checks, the writes, the end of a
command. A proof about a command cites these and unfolds only the command's own meaning. -/

namespace Sys2Proof.Machine

/-! The checks. -/

@[simp] theorem require_true (e : CmdError) : require true e = .ok () := rfl

@[simp] theorem require_false (e : CmdError) : require false e = .error e := rfl

theorem require_ok {ok : Bool} {e : CmdError} {u : Unit} : require ok e = .ok u ↔ ok = true := by
  cases ok <;> simp

theorem require_error {ok : Bool} {e e' : CmdError} : require ok e = .error e' ↔ ok = false ∧ e = e' := by
  cases ok <;> simp

@[simp] theorem Except.bind_ok {ε α β : Type} (a : α) (f : α → Except ε β) : (Except.ok a >>= f) = f a := rfl

@[simp] theorem Except.bind_error {ε α β : Type} (e : ε) (f : α → Except ε β) :
    ((Except.error e : Except ε α) >>= f) = .error e := rfl

@[simp] theorem Except.pure_eq_ok {ε α : Type} (a : α) : (pure a : Except ε α) = .ok a := rfl

/-- A computation that succeeds succeeded in its first part. -/
theorem Except.bind_eq_ok {ε α β : Type} {x : Except ε α} {f : α → Except ε β} {b : β} :
    (x >>= f) = .ok b ↔ ∃ a, x = .ok a ∧ f a = .ok b := by
  cases x <;> simp

/-- A computation that fails fails in its first part or in the rest. -/
theorem Except.bind_eq_error {ε α β : Type} {x : Except ε α} {f : α → Except ε β} {e : ε} :
    (x >>= f) = .error e ↔ x = .error e ∨ ∃ a, x = .ok a ∧ f a = .error e := by
  cases x <;> simp

variable {s t : State}

theorem State.needBuffer_ok {b : PBuf} (sub : BitVec 8) (h : HasBuffer s b) : s.needBuffer sub b = .ok () := by
  simp [State.needBuffer, h]

theorem State.needBuffer_error {b : PBuf} (sub : BitVec 8) (h : ¬ HasBuffer s b) :
    s.needBuffer sub b = .error (raised .badopnd sub) := by
  simp [State.needBuffer, h]

theorem State.needPn_ok (h : s.csr.pvalid = true) : s.needPn = .ok () := by
  simp [State.needPn, h]

theorem State.needPn_error (h : s.csr.pvalid = false) : s.needPn = .error (raised .noparam 0) := by
  simp [State.needPn, h]

theorem State.chainHas_iff {i : Fin 16} : s.chainHas i = true ↔ i.val < s.par.pChain.toNat := by
  simp [State.chainHas]

/-- The selector of a command answers exactly the modulus it names. -/
theorem State.selected_ok_iff {ms : ModSel} {m : Int} : s.selected ms = .ok m ↔ Selects s ms m := by
  cases ms <;>
    simp only [State.selected, Selects, State.needPn, Except.bind_eq_ok, require_ok, State.chainHas_iff, State.scalar,
      Except.pure_eq_ok, Except.ok.injEq, exists_and_left, exists_const, reduceCtorEq, eq_comm (a := m)]

theorem State.selected_ok {ms : ModSel} {m : Int} (h : Selects s ms m) : s.selected ms = .ok m :=
  State.selected_ok_iff.2 h

/-- A selector that names no modulus raises its error. -/
theorem State.selected_error {ms : ModSel} {e : Nat × Nat} (h : selectorError s ms = some e) :
    ∃ c : CmdError, s.selected ms = .error c ∧ codeBits c.code = e.1 ∧ c.sub.toNat = e.2 ∧ c.idx = 0 := by
  cases ms <;> simp only [selectorError] at h
  case s => cases h
  case reserved v => cases h; exact ⟨_, rfl, rfl, rfl, rfl⟩
  case t =>
    split at h
    · cases h
    · rename_i hv
      cases h
      exact ⟨raised .noparam 0, by simp [State.selected, State.needPn_error (by simpa using hv)], rfl, rfl, rfl⟩
  case q i =>
    split at h
    · rename_i hv
      split at h
      · cases h
      · rename_i hi
        cases h
        have : s.chainHas i = false := by rw [Bool.eq_false_iff, Ne, State.chainHas_iff]; exact hi
        exact ⟨raised .badmod 2, by simp [State.selected, State.needPn_ok hv, this], rfl, rfl, rfl⟩
    · rename_i hv
      cases h
      exact ⟨raised .noparam 0, by simp [State.selected, State.needPn_error (by simpa using hv)], rfl, rfl, rfl⟩
  case bigQ i =>
    split at h
    · rename_i hv
      split at h
      · cases h
      · rename_i hi
        cases h
        have : s.chainHas i = false := by rw [Bool.eq_false_iff, Ne, State.chainHas_iff]; exact hi
        exact ⟨raised .badmod 2, by simp [State.selected, State.needPn_ok hv, this], rfl, rfl, rfl⟩
    · rename_i hv
      cases h
      exact ⟨raised .noparam 0, by simp [State.selected, State.needPn_error (by simpa using hv)], rfl, rfl, rfl⟩

theorem State.modulus_ok_iff {ms : ModSel} {m : Int} : s.modulus ms = .ok m ↔ Selects s ms m ∧ 2 ≤ m := by
  simp only [State.modulus, Except.bind_eq_ok, State.selected_ok_iff, require_ok, decide_eq_true_eq, Except.pure_eq_ok,
    Except.ok.injEq]
  constructor
  · rintro ⟨_, h, -, h2, rfl⟩
    exact ⟨h, h2⟩
  · rintro ⟨h, h2⟩
    exact ⟨m, h, (), h2, rfl⟩

theorem State.modulus_ok {ms : ModSel} {m : Int} (h : Selects s ms m) (h2 : 2 ≤ m) : s.modulus ms = .ok m :=
  State.modulus_ok_iff.2 ⟨h, h2⟩

theorem State.modulus_small {ms : ModSel} {m : Int} (h : Selects s ms m) (h2 : m < 2) :
    s.modulus ms = .error (raised .badmod 3) := by
  have : ¬ 2 ≤ m := by omega
  simp [State.modulus, State.selected_ok h, this]

theorem State.multiple_ok {ms : ModSel} {b : Int} (h : Selects s ms b) (h1 : 1 ≤ b) : s.multiple ms = .ok b := by
  have : 0 < b := by omega
  simp [State.multiple, State.selected_ok h, this]

theorem State.multiple_small {ms : ModSel} {b : Int} (h : Selects s ms b) (h1 : b ≤ 0) :
    s.multiple ms = .error (raised .domain 2) := by
  have : ¬ 0 < b := by omega
  simp [State.multiple, State.selected_ok h, this]

theorem State.primeModulus_ok {ms : ModSel} {m : Int} {order : Nat} (h : Selects s ms m) (h2 : 2 ≤ m)
    (hp : isPrime m.toNat = true) (ho : m.toNat % order = 1) : s.primeModulus ms order = .ok m.toNat := by
  simp [State.primeModulus, State.modulus_ok h h2, hp, ho]

theorem State.primeModulus_small {ms : ModSel} {m : Int} {order : Nat} (h : Selects s ms m) (h2 : m < 2) :
    s.primeModulus ms order = .error (raised .badmod 3) := by
  simp [State.primeModulus, State.modulus_small h h2]

theorem State.primeModulus_composite {ms : ModSel} {m : Int} {order : Nat} (h : Selects s ms m) (h2 : 2 ≤ m)
    (hp : isPrime m.toNat = false) : s.primeModulus ms order = .error (raised .badmod 4) := by
  simp [State.primeModulus, State.modulus_ok h h2, hp]

theorem State.primeModulus_unfit {ms : ModSel} {m : Int} {order : Nat} (h : Selects s ms m) (h2 : 2 ≤ m)
    (hp : isPrime m.toNat = true) (ho : m.toNat % order ≠ 1) :
    s.primeModulus ms order = .error (raised .badmod 5) := by
  have : (m.toNat % order == 1) = false := by simpa using ho
  simp [State.primeModulus, State.modulus_ok h h2, hp, this]

/-! The end of a command. -/

@[simp] theorem State.retire_ok (s t : State) : s.retire (.ok t) = .next t.complete := rfl

@[simp] theorem State.retire_error (s : State) (e : CmdError) : s.retire (.error e) = .next (s.enterError e) := rfl

/-- A command ends in success from a state its writes left, or in the entry of an error it raised. -/
theorem State.retire_cases {r : Except CmdError State} (h : s.retire r = .next t) :
    (∃ u, r = .ok u ∧ t = u.complete) ∨ ∃ e, r = .error e ∧ t = s.enterError e := by
  cases r with
  | ok u => exact .inl ⟨u, rfl, by simpa using h.symm⟩
  | error e => exact .inr ⟨e, rfl, by simpa using h.symm⟩

theorem State.complete_eq (s : State) : s.complete = afterSuccess s := rfl

theorem State.enterError_eq {w : Word} (h : s.pending = some w) (e : CmdError) :
    s.enterError e = afterError s w (codeBits e.code) e.sub.toNat e.idx.toNat := by
  simp [State.enterError, afterError, State.commandWord, h, ecauseWord, Csr.completed]

/-! The writes. -/

theorem fits_iff {p : Config.Params} {v : Int} : fits p v = true ↔ Fits p v := by
  have h : ((2 ^ (p.cw - 1) - 1 : Nat) : Int) = 2 ^ (p.cw - 1) - 1 := by
    have := Nat.one_le_two_pow (n := p.cw - 1)
    push_cast [this]
    rfl
  have h' : ((2 ^ (p.cw - 1) : Nat) : Int) = 2 ^ (p.cw - 1) := by push_cast; rfl
  simp only [fits, minv, limit, h, h', Fits, Bool.and_eq_true, decide_eq_true_eq]

theorem allBelow_iff {n : Nat} {ok : Nat → Bool} : allBelow n ok = true ↔ ∀ j < n, ok j = true := by
  induction n with
  | zero => simp [allBelow]
  | succ n ih =>
    simp only [allBelow, Bool.and_eq_true, ih]
    constructor
    · rintro ⟨h, hn⟩ j hj
      rcases Nat.lt_succ_iff_lt_or_eq.1 hj with hj | rfl
      · exact h j hj
      · exact hn
    · exact fun h => ⟨fun j hj => h j (by omega), h n (by omega)⟩

theorem State.storeScalar_ok {rd : SReg} {v : Int} (h : Fits s.params v) : s.storeScalar rd v = .ok (s.writeScalar rd v) := by
  simp [State.storeScalar, fits_iff.2 h]

theorem State.storeScalar_overflow {rd : SReg} {v : Int} (h : ¬ Fits s.params v) :
    s.storeScalar rd v = .error (raised .overflow 1) := by
  have : fits s.params v = false := by rw [Bool.eq_false_iff, Ne, fits_iff]; exact h
  simp [State.storeScalar, this]

theorem State.storeLanes_ok {rd : PBuf} {n : Nat} {f : Nat → Int} (h : ∀ j < n, Fits s.params (f j)) :
    s.storeLanes rd n f = .ok (s.writeLanes rd n f) := by
  have : allBelow n (fun j => fits s.params (f j)) = true := allBelow_iff.2 fun j hj => fits_iff.2 (h j hj)
  simp [State.storeLanes, this]

theorem State.storeLanes_overflow {rd : PBuf} {n : Nat} {f : Nat → Int} {j : Nat} (hj : j < n)
    (h : ¬ Fits s.params (f j)) : s.storeLanes rd n f = .error (raised .overflow 1) := by
  have : allBelow n (fun j => fits s.params (f j)) = false := by
    rw [Bool.eq_false_iff, Ne, allBelow_iff]
    exact fun hall => h (fits_iff.1 (hall j hj))
  simp [State.storeLanes, this]

theorem State.storeScalar_cases {rd : SReg} {v : Int} {r : Except CmdError State} (h : s.storeScalar rd v = r) :
    (Fits s.params v ∧ r = .ok (s.writeScalar rd v)) ∨ r = .error (raised .overflow 1) := by
  by_cases hf : Fits s.params v
  · exact .inl ⟨hf, by rw [← h, State.storeScalar_ok hf]⟩
  · exact .inr (by rw [← h, State.storeScalar_overflow hf])

theorem State.storeLanes_cases {rd : PBuf} {n : Nat} {f : Nat → Int} {r : Except CmdError State}
    (h : s.storeLanes rd n f = r) :
    ((∀ j < n, Fits s.params (f j)) ∧ r = .ok (s.writeLanes rd n f)) ∨ r = .error (raised .overflow 1) := by
  by_cases hf : ∀ j < n, Fits s.params (f j)
  · exact .inl ⟨hf, by rw [← h, State.storeLanes_ok hf]⟩
  · push Not at hf
    obtain ⟨j, hj, hf⟩ := hf
    exact .inr (by rw [← h, State.storeLanes_overflow hj hf])

/-- A register file after a write, at the written place and elsewhere. -/
theorem set_getElem_fin {α : Type} (v : Vector α 16) (i j : Fin 16) (x : α) :
    (v.set i x)[j] = if j = i then x else v[j] := by
  by_cases h : j = i
  · subst h
    simp
  · have : ¬ i.val = j.val := fun hv => h (Fin.ext hv.symm)
    simp [h, this]

theorem State.scalarWritten (s : State) (rd : SReg) (v : Int) : ScalarWritten s (s.writeScalar rd v).complete rd v := by
  refine ⟨rfl, ?_, fun r hr => ?_⟩
  · change (s.scalars.set rd v)[rd] = v
    rw [set_getElem_fin, if_pos rfl]
  · change (s.scalars.set rd v)[r] = s.scalars[r]
    rw [set_getElem_fin, if_neg hr]

/-- A coefficient after `writeLanes`. -/
theorem State.coeff_writeLanes (s : State) (rd b : PBuf) (n : Nat) (f : Nat → Int) (j : Nat) :
    (s.writeLanes rd n f).coeff b j = if b = rd ∧ j < n then f j else s.coeff b j := by
  simp only [State.coeff, State.writeLanes_bufs, set_getElem_fin]
  by_cases h : b = rd
  · subst h
    simp [Buf.get_splice]
  · simp [h]

/-- A coefficient after `copyLanes`. -/
theorem State.coeff_copyLanes (s : State) (rd b : PBuf) (n : Nat) (src : Buf) (j : Nat) :
    (s.copyLanes rd n src).coeff b j = if b = rd ∧ j < n then src.get j else s.coeff b j := by
  simp only [State.coeff, State.copyLanes_bufs, set_getElem_fin]
  by_cases h : b = rd
  · subst h
    simp [Buf.get_overlay]
  · simp [h]

theorem State.lanesWritten (s : State) (rd : PBuf) (n : Nat) (f : Nat → Int) :
    LanesWritten s (s.writeLanes rd n f).complete rd n f := by
  refine ⟨rfl, fun j => ?_, fun b hb => ?_⟩
  · change (s.writeLanes rd n f).coeff rd j = _
    simp [State.coeff_writeLanes]
  · change (s.bufs.set rd _)[b] = s.bufs[b]
    rw [set_getElem_fin, if_neg hb]

theorem State.lanesCopied (s : State) (rd : PBuf) (n : Nat) (src : Buf) :
    LanesWritten s (s.copyLanes rd n src).complete rd n src.get := by
  refine ⟨rfl, fun j => ?_, fun b hb => ?_⟩
  · change (s.copyLanes rd n src).coeff rd j = _
    simp [State.coeff_copyLanes]
  · change (s.bufs.set rd _)[b] = s.bufs[b]
    rw [set_getElem_fin, if_neg hb]

/-- Only the values below `n` matter to what `LanesWritten` says. -/
theorem LanesWritten.congr {rd : PBuf} {n : Nat} {f g : Nat → Int} (h : LanesWritten s t rd n f) (hfg : ∀ j < n, f j = g j) :
    LanesWritten s t rd n g := by
  refine ⟨h.1, fun j => ?_, h.2.2⟩
  rw [h.2.1 j]
  by_cases hj : j < n
  · simp [hj, hfg j hj]
  · simp [hj]

/-- The lanes of a command with one source buffer and a modulus. -/
theorem State.mapLanes_ok {rd a : PBuf} {ms : ModSel} {m : Int} (f : Int → Int → Int) (hr : HasBuffer s rd)
    (ha : HasBuffer s a) (hv : s.csr.pvalid = true) (hm : Selects s ms m) (h2 : 2 ≤ m) :
    s.mapLanes rd a ms f = .ok (s.writeLanes rd s.pn fun j => f (s.coeff a j) m) := by
  simp [State.mapLanes, State.needBuffer_ok _ hr, State.needBuffer_ok _ ha, State.needPn_ok hv, State.modulus_ok hm h2]

/-- The lanes of a command with two source buffers and a modulus. -/
theorem State.zipLanes_ok {rd a b : PBuf} {ms : ModSel} {m : Int} (f : Int → Int → Int) (hr : HasBuffer s rd)
    (ha : HasBuffer s a) (hb : HasBuffer s b) (hv : s.csr.pvalid = true) (hm : Selects s ms m) (h2 : 2 ≤ m) :
    s.zipLanes rd a b ms f = .ok (s.writeLanes rd s.pn fun j => red (f (s.coeff a j) (s.coeff b j)) m) := by
  simp [State.zipLanes, State.needBuffer_ok _ hr, State.needBuffer_ok _ ha, State.needBuffer_ok _ hb, State.needPn_ok hv,
    State.modulus_ok hm h2]

end Sys2Proof.Machine
end

