-- ==== Sys2Proof/Laws/Arith.lean ====
section
/-! SUPPORT. The arithmetic helpers of the model in Mathlib's terms: sums, powers modulo, CW-bit patterns. -/

namespace Sys2Proof.Machine

theorem sumTo_eq_sum (n : Nat) (f : Nat → Int) : sumTo n f = ∑ i ∈ Finset.range n, f i := by
  induction n with
  | zero => rfl
  | succ n ih => rw [sumTo, ih, Finset.sum_range_succ]

theorem powModFuel_eq {fuel e : Nat} (b m : Nat) (h : e ≤ fuel) : powModFuel fuel b e m = b ^ e % m := by
  induction fuel generalizing b e with
  | zero =>
    obtain rfl : e = 0 := by omega
    simp [powModFuel]
  | succ fuel ih =>
    rw [powModFuel]
    split
    · rename_i h0
      simp [h0]
    · have hs : (b * b % m) ^ (e / 2) % m = b ^ (2 * (e / 2)) % m := by
        rw [← Nat.pow_mod, ← pow_two, ← pow_mul]
      rw [ih _ (by omega), hs]
      split
      · rename_i h2
        rw [show 2 * (e / 2) = e by omega]
      · rename_i h2
        rw [Nat.mul_mod_mod, ← pow_succ', show 2 * (e / 2) + 1 = e by omega]

theorem powMod_eq (b e m : Nat) : powMod b e m = b ^ e % m := powModFuel_eq b m le_rfl

variable {p : Config.Params}

theorem pattern_lt (p : Config.Params) (v : Int) : pattern p v < 2 ^ p.cw := by
  have h := Int.emod_lt_of_pos v (show (0 : Int) < (2 ^ p.cw : Nat) by positivity)
  have h0 := Int.emod_nonneg v (show ((2 ^ p.cw : Nat) : Int) ≠ 0 by positivity)
  unfold pattern
  omega

/-- A CW-bit pattern is two half ranges. -/
theorem two_pow_cw (h : 1 ≤ p.cw) : 2 ^ p.cw = 2 * 2 ^ (p.cw - 1) := by
  rw [← pow_succ', Nat.sub_add_cancel h]

theorem signedOf_fits {pat : Nat} (h : 1 ≤ p.cw) (hp : pat < 2 ^ p.cw) : Fits p (signedOf p pat) := by
  have h2 := two_pow_cw h
  have hc : ((2 ^ (p.cw - 1) : Nat) : Int) = 2 ^ (p.cw - 1) := by push_cast; rfl
  have hpos : 0 < 2 ^ (p.cw - 1) := by positivity
  unfold signedOf Fits
  rw [← hc]
  split <;> omega

theorem pattern_signedOf {pat : Nat} (hp : pat < 2 ^ p.cw) : pattern p (signedOf p pat) = pat := by
  have hn : ((pat : Int) % (2 ^ p.cw : Nat)).toNat = pat := by
    rw [Int.emod_eq_of_lt (by omega) (by exact_mod_cast hp)]
    rfl
  unfold pattern signedOf
  split
  · rw [Int.sub_emod_right, hn]
  · exact hn

theorem signedOf_pattern {v : Int} (h : 1 ≤ p.cw) (hv : Fits p v) : signedOf p (pattern p v) = v := by
  have h2 := two_pow_cw h
  have hc : ((2 ^ (p.cw - 1) : Nat) : Int) = 2 ^ (p.cw - 1) := by push_cast; rfl
  obtain ⟨hl, hu⟩ := hv
  rw [← hc] at hl hu
  unfold signedOf pattern
  by_cases h0 : 0 ≤ v
  · have : v % (2 ^ p.cw : Nat) = v := Int.emod_eq_of_lt h0 (by omega)
    rw [this]
    split <;> omega
  · have : v % (2 ^ p.cw : Nat) = v + (2 ^ p.cw : Nat) := by
      rw [← Int.add_emod_right, Int.emod_eq_of_lt (by omega) (by omega)]
    rw [this]
    split <;> omega

theorem wrap_fits (h : 1 ≤ p.cw) (v : Int) : Fits p (wrap p v) := signedOf_fits h (pattern_lt p v)

/-- The pattern after a bus write of word `k`: its words other than `k` are kept. -/
theorem replaced_lt {pat k : Nat} (w : Word) (hp : pat < 2 ^ p.cw) (hk : 32 * k + 32 ≤ p.cw) :
    pat - pat / 2 ^ (32 * k) % 2 ^ 32 * 2 ^ (32 * k) + w.toNat * 2 ^ (32 * k) < 2 ^ p.cw := by
  obtain ⟨c, hc⟩ := Nat.exists_eq_add_of_le hk
  have hw := w.isLt
  generalize w.toNat = x at hw ⊢
  have e : 2 ^ p.cw = 2 ^ c * 2 ^ 32 * 2 ^ (32 * k) := by rw [hc, pow_add, pow_add]; ring
  rw [e] at hp ⊢
  generalize 2 ^ (32 * k) = y at hp ⊢
  generalize 2 ^ c = z at hp ⊢
  have hy : 0 < y := by
    rcases Nat.eq_zero_or_pos y with rfl | h
    · simp at hp
    · exact h
  have h1 := Nat.div_add_mod pat y
  have h2 := Nat.mod_lt pat hy
  have h3 := Nat.div_add_mod (pat / y) (2 ^ 32)
  have h4 : pat / y / 2 ^ 32 < z := by
    rw [Nat.div_div_eq_div_mul, Nat.div_lt_iff_lt_mul (by positivity)]
    calc pat < z * 2 ^ 32 * y := hp
      _ = z * (y * 2 ^ 32) := by ring
  generalize pat / y / 2 ^ 32 = u at h3 h4
  generalize pat / y % 2 ^ 32 = t at h3 ⊢
  generalize pat % y = r at h1 h2
  have h5 : pat = u * 2 ^ 32 * y + t * y + r := by rw [← h1, ← h3]; ring
  have h6 : pat - t * y = u * 2 ^ 32 * y + r := by omega
  rw [h6]
  have h7 : u * 2 ^ 32 * y + 2 ^ 32 * y ≤ z * 2 ^ 32 * y := by
    have : (u + 1) * (2 ^ 32 * y) ≤ z * (2 ^ 32 * y) := Nat.mul_le_mul_right _ h4
    nlinarith
  have h8 : x * y + y ≤ 2 ^ 32 * y := by
    have : (x + 1) * y ≤ 2 ^ 32 * y := Nat.mul_le_mul_right _ hw
    nlinarith
  omega

theorem valueWithWord_fits {k : Nat} (h : p.Legal) (v : Int) (w : Word) (hk : k < wps p) : Fits p (valueWithWord p v k w) := by
  obtain ⟨h32, h64, -⟩ := h
  exact signedOf_fits (by omega) (replaced_lt w (pattern_lt p v) (by unfold wps at hk; omega))

end Sys2Proof.Machine
end

