-- ==== Sys2Proof/Laws/Commands.lean ====
section
/-! SUPPORT. Said once for all commands: what a command that succeeds has committed, and which errors a command raises. -/

namespace Sys2Proof.Machine

/-! The errors. -/

/-- An error of the table (60_exceptions.md R250): a listed pair, with an index, at most L_MAX, only for PARAM 6 and 7. -/
def CmdError.Listed (lMax : Nat) (e : CmdError) : Prop :=
  (codeBits e.code, e.sub.toNat) ∈ listedErrors ∧
    (e.idx = 0 ∨ (codeBits e.code, e.sub.toNat) = (7, 6) ∨ (codeBits e.code, e.sub.toNat) = (7, 7)) ∧
    e.idx.toNat ≤ lMax

/-- Every error the computation raises satisfies `P`. -/
def Raises {α : Type} (P : CmdError → Prop) (x : Except CmdError α) : Prop := ∀ e, x = .error e → P e

variable {α β : Type} {P : CmdError → Prop} {s : State}

theorem Raises.ok (a : α) : Raises P (.ok a : Except CmdError α) := fun _ h => by cases h

theorem Raises.error {e : CmdError} (h : P e) : Raises P (.error e : Except CmdError α) := fun e' h' => by
  cases h'
  exact h

theorem Raises.bind {x : Except CmdError α} {f : α → Except CmdError β} (hx : Raises P x) (hf : ∀ a, Raises P (f a)) :
    Raises P (x >>= f) := fun e h => by
  rcases Except.bind_eq_error.1 h with h | ⟨a, -, h⟩
  · exact hx e h
  · exact hf a e h

/-- `Raises.bind` where the rest may use that the first part succeeded. -/
theorem Raises.bind' {x : Except CmdError α} {f : α → Except CmdError β} (hx : Raises P x)
    (hf : ∀ a, x = .ok a → Raises P (f a)) : Raises P (x >>= f) := fun e h => by
  rcases Except.bind_eq_error.1 h with h | ⟨a, ha, h⟩
  · exact hx e h
  · exact hf a ha e h

theorem Raises.require {ok : Bool} {e : CmdError} (h : P e) : Raises P (Machine.require ok e) := fun e' h' => by
  rw [require_error] at h'
  exact h'.2 ▸ h

theorem raised_listed {l : Nat} {code : ErrCode} {sub : BitVec 8} (h : (codeBits code, sub.toNat) ∈ listedErrors) :
    (raised code sub).Listed l := ⟨h, .inl rfl, Nat.zero_le _⟩

theorem Raises.needPn : Raises (CmdError.Listed s.params.lMax) s.needPn := .require (raised_listed (by decide))

theorem Raises.selected (ms : ModSel) : Raises (CmdError.Listed s.params.lMax) (s.selected ms) := by
  have hc : (raised .badmod 2).Listed s.params.lMax := raised_listed (by decide)
  cases ms with
  | t => exact .bind .needPn fun _ => .ok _
  | q i => exact .bind .needPn fun _ => .bind (.require hc) fun _ => .ok _
  | bigQ i => exact .bind .needPn fun _ => .bind (.require hc) fun _ => .ok _
  | s i => exact .ok _
  | reserved v => exact .error (raised_listed (by decide))

theorem Raises.modulus (ms : ModSel) : Raises (CmdError.Listed s.params.lMax) (s.modulus ms) :=
  .bind (.selected ms) fun _ => .bind (.require (raised_listed (by decide))) fun _ => .ok _

theorem Raises.multiple (ms : ModSel) : Raises (CmdError.Listed s.params.lMax) (s.multiple ms) :=
  .bind (.selected ms) fun _ => .bind (.require (raised_listed (by decide))) fun _ => .ok _

theorem Raises.primeModulus (ms : ModSel) (order : Nat) : Raises (CmdError.Listed s.params.lMax) (s.primeModulus ms order) :=
  .bind (.modulus ms) fun _ => .bind (.require (raised_listed (by decide))) fun _ =>
    .bind (.require (raised_listed (by decide))) fun _ => .ok _

theorem Raises.storeScalar (rd : SReg) (v : Int) : Raises (CmdError.Listed s.params.lMax) (s.storeScalar rd v) := by
  unfold State.storeScalar
  split
  · exact .ok _
  · exact .error (raised_listed (by decide))

theorem Raises.storeLanes (rd : PBuf) (n : Nat) (f : Nat → Int) : Raises (CmdError.Listed s.params.lMax) (s.storeLanes rd n f) := by
  unfold State.storeLanes
  split
  · exact .ok _
  · exact .error (raised_listed (by decide))

theorem Raises.findPrimes (nb m : SReg) (qty : Nat) : Raises (CmdError.Listed s.params.lMax) (s.findPrimes nb m qty) := by
  refine .bind (.require (raised_listed (by decide))) fun _ => .bind (.require (raised_listed (by decide))) fun _ => ?_
  cases primeSearch s.params (s.scalar nb).toNat (s.scalar m).toNat qty with
  | none => exact .error (raised_listed (by decide))
  | some r => exact .ok _

/-- The buffer checks, whose sub-cause is the place of the operand. -/
theorem Raises.needBuffer (sub : BitVec 8) (b : PBuf) (h : (2, sub.toNat) ∈ listedErrors) :
    Raises (CmdError.Listed s.params.lMax) (s.needBuffer sub b) := .require (raised_listed h)

theorem Raises.checkChain {Q : CmdError → Prop} (t : Nat) (primes : List Nat) (n : Nat)
    (h : ∀ i < n, Q { code := .param, sub := 6, idx := BitVec.ofNat 8 i } ∧
      Q { code := .param, sub := 7, idx := BitVec.ofNat 8 i }) : Raises Q (Machine.checkChain t primes n) := by
  induction n with
  | zero => exact .ok _
  | succ n ih =>
    exact .bind (ih fun i hi => h i (by omega)) fun _ =>
      .bind (.require (h n (by omega)).1) fun _ => .require (h n (by omega)).2

/-- PBUILD raises PARAM 1 to 5, or PARAM 6 or 7 with the index of a chain place below CFG_CHAIN. -/
theorem Raises.deriveParams {Q : CmdError → Prop} {p : Config.Params} {cfg : CfgRegs}
    (h : ∀ sub ∈ ([1, 2, 3, 4, 5] : List (BitVec 8)), Q (raised .param sub))
    (hi : ∀ i < p.lMax + 1, Q { code := .param, sub := 6, idx := BitVec.ofNat 8 i } ∧
      Q { code := .param, sub := 7, idx := BitVec.ofNat 8 i }) : Raises Q (Machine.deriveParams p cfg) := by
  refine .bind (.require (h 1 (by simp))) fun _ => .bind' (.require (h 2 (by simp))) fun _ hl => ?_
  rw [require_ok, Bool.and_eq_true, decide_eq_true_eq, decide_eq_true_eq] at hl
  dsimp only
  split
  · exact .error (h 3 (by simp))
  · split
    · exact .error (h 4 (by simp))
    · exact .bind (.require (h 4 (by simp))) fun _ => .bind (.require (h 5 (by simp))) fun _ =>
        .bind (.checkChain _ _ _ fun i hlt => hi i (by omega)) fun _ => .ok _

/-! What a command commits. -/

/-- `u` is `s` with the writes a successful command `i` may have made: nothing, the parameter set, its scalar register, or
lanes of its buffer. -/
inductive Commits (i : Instr) (s : State) : State → Prop where
  | nothing (h : i = .nop) : Commits i s s
  | params (h : i = .pbuild) (set : ParamSet) (hset : deriveParams s.params s.cfg = .ok set) :
      Commits i s { s with par := set, csr := { s.csr with pvalid := true } }
  | scalar (rd : SReg) (h : scalarDest i = some rd) (v : Int) : Commits i s (s.writeScalar rd v)
  | lanes (rd : PBuf) (h : bufferDest i = some rd) (hb : HasBuffer s rd) (n : Nat) (f : Nat → Int) :
      Commits i s (s.writeLanes rd n f)
  | copy (rd : PBuf) (h : bufferDest i = some rd) (hb : HasBuffer s rd) (src : Buf)
      (hs : src = [] ∨ ∃ a : PBuf, src = s.bufs[a]) : Commits i s (s.copyLanes rd (nMax s.params) src)

/-- Every success of the computation satisfies `Q`. -/
def Answers (Q : α → Prop) (x : Except CmdError α) : Prop := ∀ a, x = .ok a → Q a

theorem Answers.ok {Q : α → Prop} {a : α} (h : Q a) : Answers Q (.ok a) := fun a' h' => by
  cases h'
  exact h

theorem Answers.bind {Q : β → Prop} {x : Except CmdError α} {f : α → Except CmdError β}
    (h : ∀ a, x = .ok a → Answers Q (f a)) : Answers Q (x >>= f) := fun b hb => by
  obtain ⟨a, ha, hf⟩ := Except.bind_eq_ok.1 hb
  exact h a ha b hf

theorem Answers.buffer {Q : α → Prop} {sub : BitVec 8} {b : PBuf} {x : Except CmdError α}
    (h : HasBuffer s b → Answers Q x) : Answers Q (s.needBuffer sub b >>= fun _ => x) :=
  .bind fun _ hb => h (by simpa [State.needBuffer, require_ok] using hb)

theorem Answers.storeScalar {Q : State → Prop} {rd : SReg} {v : Int} (h : Fits s.params v → Q (s.writeScalar rd v)) :
    Answers Q (s.storeScalar rd v) := fun u hu => by
  rcases State.storeScalar_cases hu with ⟨hf, hr⟩ | hr
  · cases hr
    exact h hf
  · cases hr

theorem Answers.storeLanes {Q : State → Prop} {rd : PBuf} {n : Nat} {f : Nat → Int}
    (h : (∀ j < n, Fits s.params (f j)) → Q (s.writeLanes rd n f)) : Answers Q (s.storeLanes rd n f) := fun u hu => by
  rcases State.storeLanes_cases hu with ⟨hf, hr⟩ | hr
  · cases hr
    exact h hf
  · cases hr

theorem mapLanes_commits {i : Instr} {rd a : PBuf} {ms : ModSel} {f : Int → Int → Int} (h : bufferDest i = some rd) :
    Answers (Commits i s) (s.mapLanes rd a ms f) :=
  .buffer fun hb => .bind fun _ _ => .bind fun _ _ => .bind fun _ _ => .ok (.lanes rd h hb _ _)

theorem zipLanes_commits {i : Instr} {rd a b : PBuf} {ms : ModSel} {f : Int → Int → Int} (h : bufferDest i = some rd) :
    Answers (Commits i s) (s.zipLanes rd a b ms f) :=
  .buffer fun hb => .bind fun _ _ => .bind fun _ _ => .bind fun _ _ => .bind fun _ _ => .ok (.lanes rd h hb _ _)

theorem mapLanes_raises {rd a : PBuf} {ms : ModSel} {f : Int → Int → Int} :
    Raises (CmdError.Listed s.params.lMax) (s.mapLanes rd a ms f) :=
  .bind (.needBuffer _ _ (by decide)) fun _ => .bind (.needBuffer _ _ (by decide)) fun _ => .bind .needPn fun _ =>
    .bind (.modulus ms) fun _ => .ok _

theorem zipLanes_raises {rd a b : PBuf} {ms : ModSel} {f : Int → Int → Int} :
    Raises (CmdError.Listed s.params.lMax) (s.zipLanes rd a b ms f) :=
  .bind (.needBuffer _ _ (by decide)) fun _ => .bind (.needBuffer _ _ (by decide)) fun _ =>
    .bind (.needBuffer _ _ (by decide)) fun _ => .bind .needPn fun _ => .bind (.modulus ms) fun _ => .ok _

/-- Every command ends by retiring a computation that commits only what `Commits` allows and raises only listed errors. -/
theorem exec_retires (i : Instr) (s : State) :
    ∃ r, exec i s = s.retire r ∧ Answers (Commits i s) r ∧ Raises (CmdError.Listed s.params.lMax) r := by
  have listed {code : ErrCode} {sub : BitVec 8} (h : (codeBits code, sub.toNat) ∈ listedErrors) :
      (raised code sub).Listed s.params.lMax := raised_listed h
  cases i with
  | nop => exact ⟨_, rfl, .ok (.nothing rfl), .ok _⟩
  | pbuild =>
    refine ⟨_, rfl, .bind fun set hset => .ok (.params rfl set hset), .bind (.deriveParams ?_ ?_) fun _ => .ok _⟩
    · intro sub hsub
      simp only [List.mem_cons, List.not_mem_nil, or_false] at hsub
      rcases hsub with rfl | rfl | rfl | rfl | rfl <;> exact listed (by decide)
    · intro i hi
      have : (BitVec.ofNat 8 i).toNat ≤ s.params.lMax := by
        have := Nat.mod_le i (2 ^ 8)
        rw [BitVec.toNat_ofNat]
        omega
      have h6 : ((7, 6) : Nat × Nat) ∈ listedErrors := by decide
      have h7 : ((7, 7) : Nat × Nat) ∈ listedErrors := by decide
      exact ⟨⟨h6, .inr (.inl rfl), this⟩, h7, .inr (.inr rfl), this⟩
  | findprime rd nb m =>
    exact ⟨_, rfl, .bind fun _ _ => .ok (.scalar rd rfl _), .bind (.findPrimes nb m 1) fun _ => .ok _⟩
  | findprimes rd nb m qty =>
    exact ⟨_, rfl, .buffer fun hb => .bind fun _ _ => .bind fun _ _ => .ok (.lanes rd rfl hb _ _),
      .bind (.needBuffer _ _ (by decide)) fun _ => .bind (.require (listed (by decide))) fun _ =>
        .bind (.findPrimes nb m _) fun _ => .ok _⟩
  | modinv rd n ms =>
    exact ⟨_, rfl, .bind fun _ _ => .bind fun _ _ => .ok (.scalar rd rfl _),
      .bind (.modulus ms) fun _ => .bind (.require (listed (by decide))) fun _ => .ok _⟩
  | modred rd x ms => exact ⟨_, rfl, .bind fun _ _ => .ok (.scalar rd rfl _), .bind (.modulus ms) fun _ => .ok _⟩
  | modctr rd x ms => exact ⟨_, rfl, .bind fun _ _ => .ok (.scalar rd rfl _), .bind (.modulus ms) fun _ => .ok _⟩
  | rndmul rd x num den ms =>
    exact ⟨_, rfl, .bind fun _ _ => .bind fun _ _ => .storeScalar fun _ => .scalar rd rfl _,
      .bind (.multiple ms) fun _ => .bind (.require (listed (by decide))) fun _ => .storeScalar _ _⟩
  | root rd ms k =>
    exact ⟨_, rfl, .bind fun _ _ => .bind fun _ _ => .ok (.scalar rd rfl _),
      .bind (.require (listed (by decide))) fun _ => .bind (.primeModulus ms _) fun _ => .ok _⟩
  | modget rd ms => exact ⟨_, rfl, .bind fun _ _ => .ok (.scalar rd rfl _), .bind (.selected ms) fun _ => .ok _⟩
  | pzero rd =>
    exact ⟨_, rfl, .buffer fun hb => .ok (.copy rd rfl hb _ (.inl rfl)), .bind (.needBuffer _ _ (by decide)) fun _ => .ok _⟩
  | pcopy rd a =>
    exact ⟨_, rfl, .buffer fun hb => .bind fun _ _ => .ok (.copy rd rfl hb _ (.inr ⟨a, rfl⟩)),
      .bind (.needBuffer _ _ (by decide)) fun _ => .bind (.needBuffer _ _ (by decide)) fun _ => .ok _⟩
  | pred rd a ms => exact ⟨_, rfl, mapLanes_commits rfl, mapLanes_raises⟩
  | pctr rd a ms => exact ⟨_, rfl, mapLanes_commits rfl, mapLanes_raises⟩
  | paddm rd a b ms => exact ⟨_, rfl, zipLanes_commits rfl, zipLanes_raises⟩
  | psubm rd a b ms => exact ⟨_, rfl, zipLanes_commits rfl, zipLanes_raises⟩
  | pnegm rd a ms => exact ⟨_, rfl, mapLanes_commits rfl, mapLanes_raises⟩
  | pscalm rd a c ms => exact ⟨_, rfl, mapLanes_commits rfl, mapLanes_raises⟩
  | pmulew rd a b ms => exact ⟨_, rfl, zipLanes_commits rfl, zipLanes_raises⟩
  | prndmul rd a num den ms =>
    exact ⟨_, rfl, .buffer fun hb => .bind fun _ _ => .bind fun _ _ => .bind fun _ _ => .bind fun _ _ =>
        .storeLanes fun _ => .lanes rd rfl hb _ _,
      .bind (.needBuffer _ _ (by decide)) fun _ => .bind (.needBuffer _ _ (by decide)) fun _ => .bind .needPn fun _ =>
        .bind (.multiple ms) fun _ => .bind (.require (listed (by decide))) fun _ => .storeLanes _ _ _⟩
  | pmul rd a b =>
    exact ⟨_, rfl, .buffer fun hb => .bind fun _ _ => .bind fun _ _ => .bind fun _ _ => .storeLanes fun _ => .lanes rd rfl hb _ _,
      .bind (.needBuffer _ _ (by decide)) fun _ => .bind (.needBuffer _ _ (by decide)) fun _ =>
        .bind (.needBuffer _ _ (by decide)) fun _ => .bind .needPn fun _ => .storeLanes _ _ _⟩
  | pmulm rd a b ms =>
    exact ⟨_, rfl, .buffer fun hb => .bind fun _ _ => .bind fun _ _ => .bind fun _ _ => .bind fun _ _ => .ok (.lanes rd rfl hb _ _),
      .bind (.needBuffer _ _ (by decide)) fun _ => .bind (.needBuffer _ _ (by decide)) fun _ =>
        .bind (.needBuffer _ _ (by decide)) fun _ => .bind .needPn fun _ => .bind (.modulus ms) fun _ => .ok _⟩
  | nttf rd a ms =>
    exact ⟨_, rfl, .buffer fun hb => .bind fun _ _ => .bind fun _ _ => .bind fun _ _ => .ok (.lanes rd rfl hb _ _),
      .bind (.needBuffer _ _ (by decide)) fun _ => .bind (.needBuffer _ _ (by decide)) fun _ => .bind .needPn fun _ =>
        .bind (.primeModulus ms _) fun _ => .ok _⟩
  | ntti rd a ms =>
    exact ⟨_, rfl, .buffer fun hb => .bind fun _ _ => .bind fun _ _ => .bind fun _ _ => .ok (.lanes rd rfl hb _ _),
      .bind (.needBuffer _ _ (by decide)) fun _ => .bind (.needBuffer _ _ (by decide)) fun _ => .bind .needPn fun _ =>
        .bind (.primeModulus ms _) fun _ => .ok _⟩

/-- A command's next state: the success state of what it committed, or the error entry of a listed error. -/
theorem exec_cases {i : Instr} {s t : State} (h : exec i s = .next t) :
    (∃ u, Commits i s u ∧ t = u.complete) ∨ ∃ e : CmdError, e.Listed s.params.lMax ∧ t = s.enterError e := by
  obtain ⟨r, hr, hok, herr⟩ := exec_retires i s
  rw [hr] at h
  rcases State.retire_cases h with ⟨u, rfl, rfl⟩ | ⟨e, rfl, rfl⟩
  · exact .inl ⟨u, hok u rfl, rfl⟩
  · exact .inr ⟨e, herr e rfl, rfl⟩

end Sys2Proof.Machine
end

