-- ==== Sys2Proof/Laws/Bus.lean ====
section
/-! SUPPORT. What a bus access can do, said once, and the step by the agent whose turn it is. -/

namespace Sys2Proof.Machine

variable {s : State}

/-- A well-formed write reaches the location its offset names. -/
theorem State.hostWrite_aligned {o : Offset} (w : Word) (hr : s.resetPin = false) (ho : o.toNat % 4 = 0) :
    s.hostWrite .bits32 o w = s.writeAt (locate s.params o.toNat) w := by
  simp [State.hostWrite, hr, malformed, ho]

/-- A well-formed read of a location that is mapped and not guarded answers its word. -/
theorem State.hostRead_aligned {o : Offset} (hr : s.resetPin = false) (ho : o.toNat % 4 = 0)
    (hl : locate s.params o.toNat ≠ .unmapped) (hg : s.busy = false ∨ (locate s.params o.toNat).guardedRead = false) :
    s.hostRead .bits32 o = { s with busData := s.wordAt (locate s.params o.toNat) } := by
  rcases hg with hg | hg <;> simp [State.hostRead, hr, malformed, ho, hl, hg]

/-- Every read changes at most AERR, HAZ, the word on the bus and the number of the next free value. -/
theorem State.hostRead_cases (s : State) (width : Width) (o : Offset) :
    ∃ (d : Word) (n : Nat) (c : Csr), (c = s.csr ∨ c = s.csr.withAerr ∨ c = s.csr.withHaz) ∧
      s.hostRead width o = { s with busData := d, freeCount := n, csr := c } := by
  unfold State.hostRead
  split
  · exact ⟨_, _, _, .inl rfl, rfl⟩
  · split
    · exact ⟨_, s.freeCount, _, .inr (.inl rfl), rfl⟩
    · dsimp only
      split
      · exact ⟨_, s.freeCount, _, .inr (.inl rfl), rfl⟩
      · split
        · exact ⟨_, _, _, .inr (.inr rfl), rfl⟩
        · exact ⟨_, s.freeCount, _, .inl rfl, rfl⟩

/-- A write without an effect of its own changes at most HAZ, and that while BUSY = 1 only. -/
theorem State.ignoreWrite_eq (s : State) :
    s.ignoreWrite = { s with csr := { s.csr with haz := s.csr.haz || s.busy } } := by
  unfold State.ignoreWrite
  cases h : s.busy <;> simp [State.hazard, Csr.withHaz]

theorem State.ignoreWrite_idle (h : s.busy = false) : s.ignoreWrite = s := by simp [State.ignoreWrite, h]

theorem State.ignoreWrite_busy (h : s.busy = true) : s.ignoreWrite = s.hazard := by simp [State.ignoreWrite, h]

/-- Everything a write can do. -/
inductive Writes (s : State) (w : Word) : State → Prop where
  | ignored : Writes s w s
  | busError : Writes s w s.busError
  | hazard : Writes s w s.hazard
  | busErrorHazard : Writes s w s.busError.hazard
  | softReset (h : bitOf w 2 = true) : Writes s w s.softReset
  | ctrl (h : bitOf w 2 = false) : Writes s w { s with csr := s.csr.writeCtrl s.busy w }
  | status : Writes s w (s.returnFromError w)
  | accept (hb : s.pending = none) (he : s.csr.err = false) (hr : s.resetPin = false) : Writes s w (s.accept w)
  | ccount (hb : s.pending = none) : Writes s w { s with csr := { s.csr with ccount := w } }
  | cfg (hb : s.pending = none) (name : CfgName) : Writes s w { s with cfg := s.cfg.put name w }
  | scalar (hb : s.pending = none) (i : SReg) (k : Nat) (hk : k < wps s.params) :
      Writes s w (s.writeScalar i (valueWithWord s.params (s.scalar i) k w))
  | coeff (hb : s.pending = none) (b : PBuf) (j k : Nat) (hk : k < wps s.params) (hn : b.val < s.params.nbuf)
      (hj : j < nMax s.params) :
      Writes s w { s with bufs := s.bufs.set b ((s.bufs[b]).splice j 1 fun _ => valueWithWord s.params (s.coeff b j) k w) }

/-- A coefficient location that the map names exists. -/
theorem locate_coeff {p : Config.Params} {off : Nat} {b : PBuf} {j k : Nat} (h : locate p off = .word (.coeff b j) k) :
    b.val < p.nbuf ∧ j < nMax p := by
  simp only [locate] at h
  split at h
  · unfold csrAt at h
    split at h <;> cases h
  · repeat' split at h
    all_goals first
      | cases h
        done
      | (rename_i hb
         cases h
         exact hb)

theorem State.ignoreWrite_writes (s : State) (w : Word) : Writes s w s.ignoreWrite := by
  unfold State.ignoreWrite
  split
  · exact .hazard
  · exact .ignored

theorem State.busError_ignoreWrite_writes (s : State) (w : Word) : Writes s w s.busError.ignoreWrite := by
  unfold State.ignoreWrite
  split
  · exact .busErrorHazard
  · exact .busError

/-- Everything a host access that writes can do, whatever its width and offset. -/
theorem State.hostWrite_cases (s : State) (width : Width) (o : Offset) (w : Word) : Writes s w (s.hostWrite width o w) := by
  have idle : s.busy = false → s.pending = none := by simp [State.busy]
  unfold State.hostWrite
  split
  · exact .ignored
  · rename_i hr
    split
    · exact .busError
    · cases hl : locate s.params o.toNat with
      | id | ecmd | ecause | caps | unmapped => exact .busError
      | pLogn | pChain | pSigma => exact s.busError_ignoreWrite_writes w
      | ctrl =>
        simp only [State.writeAt, State.writeCtrl]
        split
        · exact .softReset ‹_›
        · exact .ctrl (Bool.eq_false_of_not_eq_true ‹_›)
      | status => exact .status
      | cmd =>
        simp only [State.writeAt, State.writeCmd]
        split
        · exact .hazard
        · rename_i h
          simp only [Bool.or_eq_true, not_or, Bool.not_eq_true] at h
          exact .accept (idle h.1) h.2 (by simpa using hr)
      | ccount =>
        simp only [State.writeAt]
        split
        · exact .hazard
        · exact .ccount (idle (Bool.eq_false_of_not_eq_true ‹_›))
      | cfg name =>
        simp only [State.writeAt]
        split
        · exact .hazard
        · exact .cfg (idle (Bool.eq_false_of_not_eq_true ‹_›)) name
      | word slot k =>
        simp only [State.writeAt, State.writeSlot]
        split
        · exact s.ignoreWrite_writes w
        · rename_i hk
          have hk := Nat.lt_of_not_le hk
          cases slot with
          | scalar i =>
            dsimp only
            split
            · exact .hazard
            · exact .scalar (idle (Bool.eq_false_of_not_eq_true ‹_›)) i k hk
          | coeff b j =>
            dsimp only
            split
            · exact .hazard
            · exact .coeff (idle (Bool.eq_false_of_not_eq_true ‹_›)) b j k hk (locate_coeff hl).1 (locate_coeff hl).2
          | t | q i | bigQ i => exact s.busError_ignoreWrite_writes w

/-- The engine's turn performs the pending command, if there is one and the reset input is not asserted. -/
theorem State.engineTurn_cases (s : State) :
    s.engineTurn = .next s ∨ ∃ w, s.pending = some w ∧ s.resetPin = false ∧ s.engineTurn = perform w s := by
  unfold State.engineTurn
  split
  · exact .inl rfl
  · rename_i hr
    cases h : s.pending with
    | none => exact .inl rfl
    | some w => exact .inr ⟨w, rfl, by simpa using hr, rfl⟩

/-- A step is the turn of the engine, of the host or of the platform. -/
theorem step_cases (s : State) :
    ∃ u : State, (u = s ∨ ∃ l, u = { s with schedule := l }) ∧
      (step s = u.engineTurn ∨ (∃ width o, step s = .next (u.hostRead width o)) ∨
        (∃ width o w, step s = .next (u.hostWrite width o w)) ∨ ∃ a, step s = .next (u.driveReset a)) := by
  unfold step
  cases hs : s.schedule with
  | nil => exact ⟨s, .inl rfl, .inl rfl⟩
  | cons turn rest =>
    refine ⟨{ s with schedule := rest }, .inr ⟨rest, rfl⟩, ?_⟩
    cases turn with
    | engine => exact .inl rfl
    | read width o => exact .inr (.inl ⟨width, o, rfl⟩)
    | write width o w => exact .inr (.inr (.inl ⟨width, o, w, rfl⟩))
    | resetPin a => exact .inr (.inr (.inr ⟨a, rfl⟩))

end Sys2Proof.Machine
end

