-- ==== Sys2Proof/Laws/Encoding.lean ====
section
/-! SUPPORT. The fields of an encoded word, and of an encoded selector. -/

namespace Sys2Proof

theorem selBits_lt (ms : ModSel) : selBits ms < 64 := by
  cases ms <;> simp only [selBits] <;> omega

theorem selOfBits_selBits {ms : ModSel} (h : ms.wellFormed = true) : selOfBits (selBits ms) = ms := by
  cases ms with
  | t => rfl
  | q i => revert i; decide
  | bigQ i => revert i; decide
  | s i => revert i; decide
  | reserved v => revert v; decide

/-- The fields of a format R word (R91). -/
theorem formatR_fields {op ms rd rs1 rs2 rs3 : Nat} (hop : op < 64) (hms : ms < 64) (hrd : rd < 16) (h1 : rs1 < 16)
    (h2 : rs2 < 16) (h3 : rs3 < 16) :
    bitsAt (formatR op ms rd rs1 rs2 rs3) 26 6 = op ∧ bitsAt (formatR op ms rd rs1 rs2 rs3) 20 6 = ms ∧
      bitsAt (formatR op ms rd rs1 rs2 rs3) 16 4 = rd ∧ bitsAt (formatR op ms rd rs1 rs2 rs3) 12 4 = rs1 ∧
      bitsAt (formatR op ms rd rs1 rs2 rs3) 8 4 = rs2 ∧ bitsAt (formatR op ms rd rs1 rs2 rs3) 4 4 = rs3 ∧
      bitsAt (formatR op ms rd rs1 rs2 rs3) 0 4 = 0 := by
  simp only [formatR, bitsAt, BitVec.toNat_ofNat]
  omega

/-- The fields of a format I word (R92). -/
theorem formatI_fields {op ms rd rs1 rs2 imm : Nat} (hop : op < 64) (hms : ms < 64) (hrd : rd < 16) (h1 : rs1 < 16)
    (h2 : rs2 < 16) (h3 : imm < 256) :
    bitsAt (formatI op ms rd rs1 rs2 imm) 26 6 = op ∧ bitsAt (formatI op ms rd rs1 rs2 imm) 20 6 = ms ∧
      bitsAt (formatI op ms rd rs1 rs2 imm) 16 4 = rd ∧ bitsAt (formatI op ms rd rs1 rs2 imm) 12 4 = rs1 ∧
      bitsAt (formatI op ms rd rs1 rs2 imm) 8 4 = rs2 ∧ bitsAt (formatI op ms rd rs1 rs2 imm) 0 8 = imm := by
  simp only [formatI, bitsAt, BitVec.toNat_ofNat]
  omega

end Sys2Proof
end

