-- ==== Sys2Proof/Laws/PerInstr.lean ====
section
/-! SUPPORT. The per-instruction family FixedFields: the opcode and the reserved-zero fields of every command's word. -/

namespace Sys2Proof.Laws.FixedFields

open Sys2Proof

/-- The op value of a command and its reserved-zero fields as (lowest bit, length): the z columns of 30_encoding.md R100 with
R103, written out from the masks of spec/opcode_table.json. -/
def fixed : Instr → Nat × List (Nat × Nat)
  | .nop => (0x01, [(20, 6), (16, 4), (12, 4), (8, 4), (4, 4), (0, 4)])
  | .pbuild => (0x02, [(20, 6), (16, 4), (12, 4), (8, 4), (4, 4), (0, 4)])
  | .findprime .. => (0x08, [(20, 6), (4, 4), (0, 4)])
  | .findprimes .. => (0x09, [(20, 6)])
  | .modinv .. => (0x0A, [(8, 4), (4, 4), (0, 4)])
  | .modred .. => (0x0B, [(8, 4), (4, 4), (0, 4)])
  | .modctr .. => (0x0C, [(8, 4), (4, 4), (0, 4)])
  | .rndmul .. => (0x0D, [(0, 4)])
  | .root .. => (0x0E, [(12, 4), (8, 4)])
  | .modget .. => (0x0F, [(12, 4), (8, 4), (4, 4), (0, 4)])
  | .pzero .. => (0x10, [(20, 6), (12, 4), (8, 4), (4, 4), (0, 4)])
  | .pcopy .. => (0x11, [(20, 6), (8, 4), (4, 4), (0, 4)])
  | .pred .. => (0x12, [(8, 4), (4, 4), (0, 4)])
  | .pctr .. => (0x13, [(8, 4), (4, 4), (0, 4)])
  | .paddm .. => (0x14, [(4, 4), (0, 4)])
  | .psubm .. => (0x15, [(4, 4), (0, 4)])
  | .pnegm .. => (0x16, [(8, 4), (4, 4), (0, 4)])
  | .pscalm .. => (0x17, [(4, 4), (0, 4)])
  | .pmulew .. => (0x18, [(4, 4), (0, 4)])
  | .prndmul .. => (0x19, [(0, 4)])
  | .pmul .. => (0x20, [(20, 6), (4, 4), (0, 4)])
  | .pmulm .. => (0x21, [(4, 4), (0, 4)])
  | .nttf .. => (0x22, [(8, 4), (4, 4), (0, 4)])
  | .ntti .. => (0x23, [(8, 4), (4, 4), (0, 4)])

/-- The word of a command has its op value, and zero in every field the command reserves (R91, R92, R95, R100, R103). -/
def Statement (i : Instr) : Prop :=
  bitsAt (encode i) 26 6 = (fixed i).1 ∧ ∀ z ∈ (fixed i).2, bitsAt (encode i) z.1 z.2 = 0

theorem nop : Statement .nop := by
  have h := formatR_fields (op := 0x01) (ms := 0) (rd := 0) (rs1 := 0) (rs2 := 0) (rs3 := 0) (by decide) (by decide) (by decide) (by decide) (by decide) (by decide)
  simp [Statement, fixed, encode, h]

theorem pbuild : Statement .pbuild := by
  have h := formatR_fields (op := 0x02) (ms := 0) (rd := 0) (rs1 := 0) (rs2 := 0) (rs3 := 0) (by decide) (by decide) (by decide) (by decide) (by decide) (by decide)
  simp [Statement, fixed, encode, h]

theorem findprime (rd nb m : SReg) : Statement (.findprime rd nb m) := by
  have h := formatR_fields (op := 0x08) (ms := 0) (rs3 := 0) (by decide) (by decide) rd.isLt nb.isLt m.isLt (by decide)
  simp [Statement, fixed, encode, h]

theorem findprimes (rd : PBuf) (nb m : SReg) (qty : BitVec 8) : Statement (.findprimes rd nb m qty) := by
  have h := formatI_fields (op := 0x09) (ms := 0) (by decide) (by decide) rd.isLt nb.isLt m.isLt qty.isLt
  simp [Statement, fixed, encode, h]

theorem modinv (rd n : SReg) (ms : ModSel) : Statement (.modinv rd n ms) := by
  have h := formatR_fields (op := 0x0A) (rs2 := 0) (rs3 := 0) (by decide) (selBits_lt ms) rd.isLt n.isLt (by decide) (by decide)
  simp [Statement, fixed, encode, h]

theorem modred (rd x : SReg) (ms : ModSel) : Statement (.modred rd x ms) := by
  have h := formatR_fields (op := 0x0B) (rs2 := 0) (rs3 := 0) (by decide) (selBits_lt ms) rd.isLt x.isLt (by decide) (by decide)
  simp [Statement, fixed, encode, h]

theorem modctr (rd x : SReg) (ms : ModSel) : Statement (.modctr rd x ms) := by
  have h := formatR_fields (op := 0x0C) (rs2 := 0) (rs3 := 0) (by decide) (selBits_lt ms) rd.isLt x.isLt (by decide) (by decide)
  simp [Statement, fixed, encode, h]

theorem rndmul (rd x num den : SReg) (ms : ModSel) : Statement (.rndmul rd x num den ms) := by
  have h := formatR_fields (op := 0x0D) (by decide) (selBits_lt ms) rd.isLt x.isLt num.isLt den.isLt
  simp [Statement, fixed, encode, h]

theorem root (rd : SReg) (ms : ModSel) (k : BitVec 8) : Statement (.root rd ms k) := by
  have h := formatI_fields (op := 0x0E) (rs1 := 0) (rs2 := 0) (by decide) (selBits_lt ms) rd.isLt (by decide) (by decide) k.isLt
  simp [Statement, fixed, encode, h]

theorem modget (rd : SReg) (ms : ModSel) : Statement (.modget rd ms) := by
  have h := formatR_fields (op := 0x0F) (rs1 := 0) (rs2 := 0) (rs3 := 0) (by decide) (selBits_lt ms) rd.isLt (by decide) (by decide) (by decide)
  simp [Statement, fixed, encode, h]

theorem pzero (rd : PBuf) : Statement (.pzero rd) := by
  have h := formatR_fields (op := 0x10) (ms := 0) (rs1 := 0) (rs2 := 0) (rs3 := 0) (by decide) (by decide) rd.isLt (by decide) (by decide) (by decide)
  simp [Statement, fixed, encode, h]

theorem pcopy (rd a : PBuf) : Statement (.pcopy rd a) := by
  have h := formatR_fields (op := 0x11) (ms := 0) (rs2 := 0) (rs3 := 0) (by decide) (by decide) rd.isLt a.isLt (by decide) (by decide)
  simp [Statement, fixed, encode, h]

theorem pred (rd a : PBuf) (ms : ModSel) : Statement (.pred rd a ms) := by
  have h := formatR_fields (op := 0x12) (rs2 := 0) (rs3 := 0) (by decide) (selBits_lt ms) rd.isLt a.isLt (by decide) (by decide)
  simp [Statement, fixed, encode, h]

theorem pctr (rd a : PBuf) (ms : ModSel) : Statement (.pctr rd a ms) := by
  have h := formatR_fields (op := 0x13) (rs2 := 0) (rs3 := 0) (by decide) (selBits_lt ms) rd.isLt a.isLt (by decide) (by decide)
  simp [Statement, fixed, encode, h]

theorem paddm (rd a b : PBuf) (ms : ModSel) : Statement (.paddm rd a b ms) := by
  have h := formatR_fields (op := 0x14) (rs3 := 0) (by decide) (selBits_lt ms) rd.isLt a.isLt b.isLt (by decide)
  simp [Statement, fixed, encode, h]

theorem psubm (rd a b : PBuf) (ms : ModSel) : Statement (.psubm rd a b ms) := by
  have h := formatR_fields (op := 0x15) (rs3 := 0) (by decide) (selBits_lt ms) rd.isLt a.isLt b.isLt (by decide)
  simp [Statement, fixed, encode, h]

theorem pnegm (rd a : PBuf) (ms : ModSel) : Statement (.pnegm rd a ms) := by
  have h := formatR_fields (op := 0x16) (rs2 := 0) (rs3 := 0) (by decide) (selBits_lt ms) rd.isLt a.isLt (by decide) (by decide)
  simp [Statement, fixed, encode, h]

theorem pscalm (rd a : PBuf) (c : SReg) (ms : ModSel) : Statement (.pscalm rd a c ms) := by
  have h := formatR_fields (op := 0x17) (rs3 := 0) (by decide) (selBits_lt ms) rd.isLt a.isLt c.isLt (by decide)
  simp [Statement, fixed, encode, h]

theorem pmulew (rd a b : PBuf) (ms : ModSel) : Statement (.pmulew rd a b ms) := by
  have h := formatR_fields (op := 0x18) (rs3 := 0) (by decide) (selBits_lt ms) rd.isLt a.isLt b.isLt (by decide)
  simp [Statement, fixed, encode, h]

theorem prndmul (rd a : PBuf) (num den : SReg) (ms : ModSel) : Statement (.prndmul rd a num den ms) := by
  have h := formatR_fields (op := 0x19) (by decide) (selBits_lt ms) rd.isLt a.isLt num.isLt den.isLt
  simp [Statement, fixed, encode, h]

theorem pmul (rd a b : PBuf) : Statement (.pmul rd a b) := by
  have h := formatR_fields (op := 0x20) (ms := 0) (rs3 := 0) (by decide) (by decide) rd.isLt a.isLt b.isLt (by decide)
  simp [Statement, fixed, encode, h]

theorem pmulm (rd a b : PBuf) (ms : ModSel) : Statement (.pmulm rd a b ms) := by
  have h := formatR_fields (op := 0x21) (rs3 := 0) (by decide) (selBits_lt ms) rd.isLt a.isLt b.isLt (by decide)
  simp [Statement, fixed, encode, h]

theorem nttf (rd a : PBuf) (ms : ModSel) : Statement (.nttf rd a ms) := by
  have h := formatR_fields (op := 0x22) (rs2 := 0) (rs3 := 0) (by decide) (selBits_lt ms) rd.isLt a.isLt (by decide) (by decide)
  simp [Statement, fixed, encode, h]

theorem ntti (rd a : PBuf) (ms : ModSel) : Statement (.ntti rd a ms) := by
  have h := formatR_fields (op := 0x23) (rs2 := 0) (rs3 := 0) (by decide) (selBits_lt ms) rd.isLt a.isLt (by decide) (by decide)
  simp [Statement, fixed, encode, h]

end Sys2Proof.Laws.FixedFields
end

