-- ==== Sys2Proof/Machine/Asm.lean ====
section
/-! DEFINITION. The assembler syntax and the pseudo-instructions (30_encoding.md R110 to R119): from one source line to the
commands it stands for. The engine sees only the words; nothing in `step` uses this file. -/

namespace Sys2Proof.Machine

/-- An operand of a source line (R110). -/
inductive AsmOperand where
  | s (i : SReg)
  | p (i : PBuf)
  | m (ms : ModSel)
  | imm (n : BitVec 8)
deriving DecidableEq, Repr

/-- Why the assembler refuses a line (R111). -/
inductive AsmError where
  /-- The mnemonic is none of R114 and R115 to R119. -/
  | unknownMnemonic
  /-- An operand has none of the forms of R110, an index above 15 or an immediate above 255. -/
  | badOperand
  /-- The operands are not of the number and classes the command takes. -/
  | wrongOperands
deriving DecidableEq, Repr

/-- A white-space character of a source line. -/
def asmBlank (c : Char) : Bool := c == ' ' || c == '\t'

/-- The text without white space at either end. -/
def asmTrim (cs : List Char) : List Char := ((cs.dropWhile asmBlank).reverse.dropWhile asmBlank).reverse

/-- The value of a digit in the base, if it is one. -/
def digitIn (base : Nat) (c : Char) : Option Nat :=
  let v :=
    if '0' ≤ c ∧ c ≤ '9' then some (c.toNat - '0'.toNat)
    else if 'a' ≤ c.toLower ∧ c.toLower ≤ 'f' then some (c.toLower.toNat - 'a'.toNat + 10)
    else none
  v.filter (fun d => decide (d < base))

/-- The value of a nonempty row of digits after the value `acc`. -/
def digitsIn (base : Nat) : Nat → List Char → Option Nat
  | _, [] => none
  | acc, [c] => (digitIn base c).map (acc * base + ·)
  | acc, c :: cs => (digitIn base c).bind fun d => digitsIn base (acc * base + d) cs

/-- A decimal index 0 to 15 (R110, R111). -/
def asmIndex (cs : List Char) : Option (Fin 16) :=
  (digitsIn 10 0 cs).bind fun n => if h : n < 16 then some ⟨n, h⟩ else none

/-- An immediate, decimal or `0x` hexadecimal, 0 to 255 (R110, R111). -/
def asmImmediate (cs : List Char) : Option (BitVec 8) :=
  let n :=
    match cs with
    | '0' :: 'x' :: rest => digitsIn 16 0 rest
    | _ => digitsIn 10 0 cs
  n.bind fun v => if v < 256 then some (BitVec.ofNat 8 v) else none

/-- One operand (R110). -/
def asmOperand (cs : List Char) : Option AsmOperand :=
  match cs with
  | ['%', 't'] => some (.m .t)
  | '%' :: 'q' :: rest => (asmIndex rest).map fun i => .m (.q i)
  | '%' :: 'Q' :: rest => (asmIndex rest).map fun i => .m (.bigQ i)
  | '%' :: 's' :: rest => (asmIndex rest).map fun i => .m (.s i)
  | 's' :: rest => (asmIndex rest).map .s
  | 'p' :: rest => (asmIndex rest).map .p
  | '#' :: rest => (asmImmediate rest).map .imm
  | _ => none

/-- The parts of the text between commas. -/
def splitCommas : List Char → List (List Char)
  | [] => [[]]
  | c :: cs =>
    match splitCommas cs with
    | [] => [[c]]
    | part :: parts => if c == ',' then [] :: part :: parts else (c :: part) :: parts

/-- The operands of a line's operand text, in order. -/
def asmOperands (cs : List Char) : Except AsmError (List AsmOperand) :=
  if asmTrim cs = [] then .ok []
  else
    (splitCommas cs).mapM fun part =>
      match asmOperand (asmTrim part) with
      | some o => .ok o
      | none => .error .badOperand

/-- The commands of one line: its mnemonic's command with the operands in the order of R114, or the expansion of a
pseudo-instruction (R115 to R119). -/
def asmCommands (mnemonic : String) (operands : List AsmOperand) : Except AsmError (List Instr) :=
  match mnemonic, operands with
  | "nop", [] => .ok [.nop]
  | "pbuild", [] => .ok [.pbuild]
  | "findprime", [.s d, .s nb, .s m] => .ok [.findprime d nb m]
  | "findprimes", [.p d, .s nb, .s m, .imm qty] => .ok [.findprimes d nb m qty]
  | "modinv", [.s d, .s n, .m ms] => .ok [.modinv d n ms]
  | "modred", [.s d, .s x, .m ms] => .ok [.modred d x ms]
  | "modctr", [.s d, .s x, .m ms] => .ok [.modctr d x ms]
  | "rndmul", [.s d, .s x, .s num, .s den, .m ms] => .ok [.rndmul d x num den ms]
  | "root", [.s d, .m ms, .imm k] => .ok [.root d ms k]
  | "modget", [.s d, .m ms] => .ok [.modget d ms]
  | "pzero", [.p d] => .ok [.pzero d]
  | "pcopy", [.p d, .p a] => .ok [.pcopy d a]
  | "pred", [.p d, .p a, .m ms] => .ok [.pred d a ms]
  | "pctr", [.p d, .p a, .m ms] => .ok [.pctr d a ms]
  | "paddm", [.p d, .p a, .p b, .m ms] => .ok [.paddm d a b ms]
  | "psubm", [.p d, .p a, .p b, .m ms] => .ok [.psubm d a b ms]
  | "pnegm", [.p d, .p a, .m ms] => .ok [.pnegm d a ms]
  | "pscalm", [.p d, .p a, .s c, .m ms] => .ok [.pscalm d a c ms]
  | "pmulew", [.p d, .p a, .p b, .m ms] => .ok [.pmulew d a b ms]
  | "prndmul", [.p d, .p a, .s num, .s den, .m ms] => .ok [.prndmul d a num den ms]
  | "pmul", [.p d, .p a, .p b] => .ok [.pmul d a b]
  | "pmulm", [.p d, .p a, .p b, .m ms] => .ok [.pmulm d a b ms]
  | "nttf", [.p d, .p a, .m ms] => .ok [.nttf d a ms]
  | "ntti", [.p d, .p a, .m ms] => .ok [.ntti d a ms]
  | "pmov", [.p d, .p a] => .ok [.pcopy d a]
  | "smov", [.s d, .s a] => .ok [.modget d (.s a)]
  | "smodload", [.s d, .m ms] => .ok [.modget d ms]
  | "encode", [.p d, .p a] => .ok [.ntti d a .t, .pctr d d .t]
  | "decode", [.p d, .p a] => .ok [.pred d a .t, .nttf d d .t]
  | "pmulntt", [.p d, .p a, .p b, .p t, .m ms] => .ok [.nttf t a ms, .nttf d b ms, .pmulew d t d ms, .ntti d d ms]
  | "cadd", [.p d, .p a, .p b, .m (.bigQ i)] => .ok [.paddm d a b (.bigQ i)]
  | name, _ =>
    if name ∈ ["nop", "pbuild", "findprime", "findprimes", "modinv", "modred", "modctr", "rndmul", "root", "modget", "pzero",
        "pcopy", "pred", "pctr", "paddm", "psubm", "pnegm", "pscalm", "pmulew", "prndmul", "pmul", "pmulm", "nttf", "ntti",
        "pmov", "smov", "smodload", "encode", "decode", "pmulntt", "cadd"] then .error .wrongOperands
    else .error .unknownMnemonic

/-- The commands one source line stands for: none for an empty line or a comment (R110, R111). -/
def assembleLine (line : List Char) : Except AsmError (List Instr) :=
  let text := asmTrim (line.takeWhile (· != ';'))
  if text = [] then .ok []
  else
    let mnemonic := (text.takeWhile (fun c => !asmBlank c)).map Char.toLower
    match asmOperands (text.dropWhile (fun c => !asmBlank c)) with
    | .error e => .error e
    | .ok operands => asmCommands (String.ofList mnemonic) operands

/-- The words one source line emits (R110). -/
def assembleWords (line : List Char) : Except AsmError (List Word) :=
  (assembleLine line).map (·.map encode)

end Sys2Proof.Machine
end

