-- ==== Sys2Proof/Tests/Slice0.lean ====
section
/-! SUPPORT. Tests of the model on the spec's own examples (95_test_vectors.md, by their ids), and for every statement with
hypotheses a witness that meets them. -/

namespace Sys2Proof.Tests

open Sys2Proof Sys2Proof.Machine

/-! Start states. -/

/-- The parameter set of the example of 42_parameters.md R170. -/
def parB : ParamSet :=
  { t := 17
    q := #v[73, 89, 97, 0, 0, 0, 0, 0, 0, 0, 0, 0, 0, 0, 0, 0]
    bigQ := #v[73, 6497, 630209, 0, 0, 0, 0, 0, 0, 0, 0, 0, 0, 0, 0, 0]
    pLogn := 2, pChain := 3, pSigma := 0 }

/-- The configuration of that example. -/
def cfgB : CfgRegs := { logn := 2, pbits := 4, cbits := 6, chain := 3, sigma := 0 }

/-- Start state R of 95_test_vectors.md. -/
def stR : State := State.reset

/-- Start state B: R with the example's parameter set installed. -/
def stB : State := { stR with par := parB, cfg := cfgB, csr := { Csr.zero with pvalid := true } }

/-- The state with `S[i] = v`. -/
def sc (i : SReg) (v : Int) (s : State) : State := s.writeScalar i v

/-- The state with the listed first coefficients of `P[b]`. -/
def pl (b : PBuf) (l : List Int) (s : State) : State := s.writeLanes b l.length (fun j => l.getD j 0)

/-- The state with CTRL.TIE = 1. -/
def tie (s : State) : State := { s with csr := { s.csr with tie := true } }

/-- The state with the configuration registers. -/
def cfg (logn pbits cbits chain : Word) (s : State) : State :=
  { s with cfg := { logn := logn, pbits := pbits, cbits := cbits, chain := chain, sigma := 0 } }

/-- The state after the engine performs the word as the next command. -/
def after (w : Word) (s : State) : State :=
  match step (s.loadCommand w) with
  | .next t => t
  | .fault f => nomatch f
  | .refused _ => s

/-- `S[i]` after the command. -/
def scalarOf (i : SReg) (w : Word) (s : State) : Int := (after w s).scalar i

/-- `P[b]` after the command, in its canonical form. -/
def bufOf (b : PBuf) (w : Word) (s : State) : Buf := (after w s).bufs[b]

/-- ECAUSE after the command. -/
def causeOf (w : Word) (s : State) : Word := (after w s).csr.ecause

/-! WellFormed refuses what no word encodes. -/

theorem test_wellFormed_refuses_reserved_zero : (Instr.modinv 0 1 (.reserved 0)).wellFormed = false := by decide

theorem test_wellFormed_accepts_reserved_five : (Instr.modinv 0 1 (.reserved 5)).wellFormed = true := by decide

theorem test_wellFormed_refuses_every_selector_command :
    ∀ i ∈ [Instr.modred 0 0 (.reserved 0), .modctr 0 0 (.reserved 0), .rndmul 0 0 0 0 (.reserved 0), .root 0 (.reserved 0) 0,
      .modget 0 (.reserved 0), .pred 0 0 (.reserved 0), .pctr 0 0 (.reserved 0), .paddm 0 0 0 (.reserved 0),
      .psubm 0 0 0 (.reserved 0), .pnegm 0 0 (.reserved 0), .pscalm 0 0 0 (.reserved 0), .pmulew 0 0 0 (.reserved 0),
      .prndmul 0 0 0 0 (.reserved 0), .pmulm 0 0 0 (.reserved 0), .nttf 0 0 (.reserved 0), .ntti 0 0 (.reserved 0)],
      i.wellFormed = false := by decide

/-! Decoding: for every constructor a word written out from the fields of R91, R92 and the op values of R103, each with
operands that differ from one another. -/

theorem test_decode_nop : decode 0b000001_000000_0000_0000_0000_0000_0000#32 = .ok .nop := by decide
theorem test_decode_pbuild : decode 0b000010_000000_0000_0000_0000_0000_0000#32 = .ok .pbuild := by decide
theorem test_decode_findprime : decode 0b001000_000000_0011_0001_0010_0000_0000#32 = .ok (.findprime 3 1 2) := by decide
theorem test_decode_findprimes :
    decode 0b001001_000000_0011_0001_0010_10000101#32 = .ok (.findprimes 3 1 2 133) := by decide
theorem test_decode_modinv : decode 0b001010_110101_0001_0010_0000_0000_0000#32 = .ok (.modinv 1 2 (.s 5)) := by decide
theorem test_decode_modred : decode 0b001011_000000_0001_0010_0000_0000_0000#32 = .ok (.modred 1 2 .t) := by decide
theorem test_decode_modctr : decode 0b001100_010010_0001_0010_0000_0000_0000#32 = .ok (.modctr 1 2 (.q 2)) := by decide
theorem test_decode_rndmul :
    decode 0b001101_110100_0101_0001_0010_0011_0000#32 = .ok (.rndmul 5 1 2 3 (.s 4)) := by decide
theorem test_decode_root : decode 0b001110_010010_0001_0000_0000_00001100#32 = .ok (.root 1 (.q 2) 12) := by decide
theorem test_decode_modget : decode 0b001111_100001_1110_0000_0000_0000_0000#32 = .ok (.modget 14 (.bigQ 1)) := by decide
theorem test_decode_pzero : decode 0b010000_000000_0011_0000_0000_0000_0000#32 = .ok (.pzero 3) := by decide
theorem test_decode_pcopy : decode 0b010001_000000_0001_1001_0000_0000_0000#32 = .ok (.pcopy 1 9) := by decide
theorem test_decode_pred : decode 0b010010_100001_0001_0010_0000_0000_0000#32 = .ok (.pred 1 2 (.bigQ 1)) := by decide
theorem test_decode_pctr : decode 0b010011_110010_0001_0011_0000_0000_0000#32 = .ok (.pctr 1 3 (.s 2)) := by decide
theorem test_decode_paddm : decode 0b010100_000101_0010_0000_0001_0000_0000#32 = .ok (.paddm 2 0 1 (.reserved 5)) := by
  decide
theorem test_decode_psubm : decode 0b010101_000000_0010_0011_0001_0000_0000#32 = .ok (.psubm 2 3 1 .t) := by decide
theorem test_decode_pnegm : decode 0b010110_010000_0001_0010_0000_0000_0000#32 = .ok (.pnegm 1 2 (.q 0)) := by decide
theorem test_decode_pscalm : decode 0b010111_100000_0001_0010_1000_0000_0000#32 = .ok (.pscalm 1 2 8 (.bigQ 0)) := by decide
theorem test_decode_pmulew : decode 0b011000_000000_0010_0011_0001_0000_0000#32 = .ok (.pmulew 2 3 1 .t) := by decide
theorem test_decode_prndmul :
    decode 0b011001_110011_0001_0100_0010_0101_0000#32 = .ok (.prndmul 1 4 2 5 (.s 3)) := by decide
theorem test_decode_pmul : decode 0b100000_000000_0010_0011_0001_0000_0000#32 = .ok (.pmul 2 3 1) := by decide
theorem test_decode_pmulm : decode 0b100001_100011_0010_0000_0001_0000_0000#32 = .ok (.pmulm 2 0 1 (.bigQ 3)) := by decide
theorem test_decode_nttf : decode 0b100010_000000_0001_0010_0000_0000_0000#32 = .ok (.nttf 1 2 .t) := by decide
theorem test_decode_ntti : decode 0b100011_010001_0001_0010_0000_0000_0000#32 = .ok (.ntti 1 2 (.q 1)) := by decide

theorem test_decode_illegal_words :
    ([0x00000000, 0x0C000000, 0x1C000000, 0x68000000, 0x90000000, 0xFC000000] : List Word).map decode =
      List.replicate 6 (.error .unassignedOpcode) := by decide

/-- ER4 to ER9 and PB28. -/
theorem test_decode_reserved_fields :
    ([0x04000001, 0x04100000, 0x08010000, 0x27001201, 0x38001002, 0x50090101, 0x3C001000] : List Word).map decode =
      List.replicate 7 (.error .reservedField) := by decide

theorem test_decodeTableWord_bytes : decodeTableWord 32 0x86320100 = some (.pmulm 2 0 1 (.bigQ 3)) := by decide

theorem test_decodeTableWord_refuses : decodeTableWord 32 0x04000001 = none := by decide

theorem test_withFetchWord_runs_the_word :
    step (stR.withFetchWord 32 0x04000000) =
      .next { stR with csr := { Csr.zero with cmd := 0x04000000, done := true, ccount := 1 } } := rfl

/-! Commands. -/

/-- The example of R221. -/
theorem test_nop : (after 0x04000000 stR).statusWord = 0x2 ∧ (after 0x04000000 stR).csr.ccount = 1 := by decide
/-- PB1. -/
theorem test_pbuild : (after 0x08000000 (cfg 2 4 6 3 stR)).par = parB ∧
    (after 0x08000000 (cfg 2 4 6 3 stR)).statusWord = 0xA := by decide
/-- PB15: a failed PBUILD after a successful one keeps the set. -/
theorem test_pbuild_fails : causeOf 0x08000000 (cfg 2 4 4 1 stB) = 0x607 ∧
    (after 0x08000000 (cfg 2 4 4 1 stB)).par = parB ∧ (after 0x08000000 (cfg 2 4 4 1 stB)).statusWord = 0xE := by
  decide
/-- PS2. -/
theorem test_findprime : scalarOf 0 0x20001200 (sc 1 5 (sc 2 8 stB)) = 41 := by decide
/-- PS11. -/
theorem test_findprime_negative : causeOf 0x20001200 (sc 1 (-1) (sc 2 0 stB)) = 0x807 := by decide
/-- PS17. -/
theorem test_findprimes : bufOf 1 0x24011203 (sc 1 6 (sc 2 8 (pl 1 [-5, -5, -5, -5] stB))) =
    [(0, 73), (1, 89), (2, 97), (3, -5)] := by decide
/-- PS19. -/
theorem test_findprimes_none : causeOf 0x24001200 (sc 1 4 (sc 2 8 stB)) = 0x502 := by decide
/-- MI2. -/
theorem test_modinv : scalarOf 0 0x28001000 (sc 1 (-3) stB) = 11 := by decide
/-- MI13. -/
theorem test_modinv_domain : causeOf 0x2A101000 (sc 1 73 stB) = 0x105 := by decide
/-- RD6: MINV modulo 17. -/
theorem test_modred : scalarOf 0 0x2C001000 (sc 1 (-2 ^ 255) stB) = 8 := by decide
/-- RD9. -/
theorem test_modred_badmod : causeOf 0x2F201000 (sc 1 (-5) (sc 2 (-3) stB)) = 0x304 := by decide
/-- RD17: the half of an even modulus stays positive. -/
theorem test_modctr : scalarOf 0 0x33201000 (sc 1 (-3) (sc 2 6 stB)) = 3 := by decide
/-- RD24. -/
theorem test_modctr_q2 : scalarOf 0 0x31201000 (sc 1 49 stB) = -48 := by decide
/-- RN16 and RN17: a negative denominator at a tie, in both modes. -/
theorem test_rndmul : scalarOf 0 0x37401230 (sc 1 6 (sc 2 1 (sc 3 (-1) (sc 4 4 stB)))) = -4 ∧
    scalarOf 0 0x37401230 (tie (sc 1 6 (sc 2 1 (sc 3 (-1) (sc 4 4 stB))))) = -8 := by decide
/-- RN24. -/
theorem test_rndmul_overflow :
    causeOf 0x37401230 (sc 1 (2 ^ 255 - 1) (sc 2 1 (sc 3 1 (sc 4 (2 ^ 200) stB)))) = 0x106 := by decide
/-- NT8. -/
theorem test_root : scalarOf 0 0x39200002 stB = 33 := by decide
/-- NT17. -/
theorem test_root_composite : causeOf 0x3A100002 stB = 0x404 := by decide
/-- PB20. -/
theorem test_modget : scalarOf 14 0x3E1E0000 stB = 6497 := by decide
/-- PB23. -/
theorem test_modget_above_chain : causeOf 0x3E300000 stB = 0x204 := by decide
/-- EW1. -/
theorem test_pzero : bufOf 3 0x40030000 (pl 3 [5, 5, 5, 5, 5] stB) = [] := by decide
/-- EW4. -/
theorem test_pcopy : bufOf 1 0x44010000 (pl 0 [1, -2, 3, -4, 5] stB) = [(0, 1), (1, -2), (2, 3), (3, -4), (4, 5)] := by
  decide
/-- EW5. -/
theorem test_pcopy_no_buffer : causeOf 0x44018000 stB = 0x202 := by decide
/-- EW7. -/
theorem test_pred : bufOf 1 0x4A110000 (pl 0 [-1, 6497, -6498, 100] stB) = [(0, 6496), (2, 6496), (3, 100)] := by
  decide
/-- EW8. -/
theorem test_pctr : bufOf 1 0x4C010000 (pl 0 [16, 8, 9, 0] stB) = [(0, -1), (1, 8), (2, -8)] := by decide
/-- EW30: the coefficient after the last lane keeps its value. -/
theorem test_paddm : bufOf 2 0x50020100 (pl 0 [1, 2, 3, 4, 50] (pl 1 [1, 1, 1, 1, 50] (pl 2 [0, 0, 0, 0, -9] stB))) =
    [(0, 2), (1, 3), (2, 4), (3, 5), (4, -9)] := by decide
/-- EW12. -/
theorem test_psubm : bufOf 2 0x54020100 (pl 0 [1, 2, 3, 4] (pl 1 [5, 6, 7, 8] stB)) =
    [(0, 13), (1, 13), (2, 13), (3, 13)] := by decide
/-- EW15. -/
theorem test_pnegm : bufOf 1 0x59010000 (pl 0 [0, 73, -73, 5] stB) = [(3, 68)] := by decide
/-- EW16. -/
theorem test_pscalm : bufOf 1 0x5E010000 (sc 0 17 (pl 0 [1, -1, 0, 2] stB)) = [(0, 17), (1, 56), (3, 34)] := by
  decide
/-- EW19. -/
theorem test_pmulew : bufOf 2 0x60020100 (pl 0 [-1, -2, 5, 0] (pl 1 [-1, 2, -7, 9] stB)) = [(0, 1), (1, 13), (2, 16)] := by
  decide
/-- EW21 and EW22. -/
theorem test_prndmul :
    bufOf 1 0x67310120 (sc 1 1 (sc 2 1 (sc 3 4 (pl 0 [10, 6, -10, -6] stB)))) = [(0, 12), (1, 8), (2, -8), (3, -4)] ∧
      bufOf 1 0x67310120 (tie (sc 1 1 (sc 2 1 (sc 3 4 (pl 0 [10, 6, -10, -6] stB))))) =
        [(0, 8), (1, 8), (2, -8), (3, -8)] := by decide
/-- PM1. -/
theorem test_pmul : bufOf 2 0x80020100 (pl 0 [1, 2, 3, 4] (pl 1 [5, 6, 7, 8] stB)) =
    [(0, -56), (1, -36), (2, 2), (3, 60)] := by decide
/-- PM6. -/
theorem test_pmul_overflow : causeOf 0x80020100 (pl 0 [2 ^ 254] (pl 1 [2] stB)) = 0x106 := by decide
/-- PM12. -/
theorem test_pmulm : bufOf 2 0x86120100 (pl 0 [1, 2, 3, 4] (pl 1 [5, 6, 7, 8] stB)) =
    [(0, 6441), (1, 6461), (2, 2), (3, 60)] := by decide
/-- PM17: NOPARAM comes before the reserved selector. -/
theorem test_pmulm_priority : causeOf 0x84520100 stR = 0x003 := by decide
/-- NT28. -/
theorem test_nttf : bufOf 1 0x89010000 (pl 0 [1, 2, 3, 4] stB) = [(0, 14), (1, 62), (2, 4), (3, 70)] := by decide
/-- NT31. -/
theorem test_nttf_composite : causeOf 0x8B110000 (sc 1 25 (pl 0 [1, 2, 3, 4] stB)) = 0x404 := by decide
/-- NT36. -/
theorem test_ntti : bufOf 1 0x8D010000 (pl 0 [1, 2, 3, 4] stB) = [(0, 39), (1, 67), (2, 50), (3, 67)] := by decide
/-- ER1 and ER12. -/
theorem test_error_entry : causeOf 0 stB = 0x101 ∧ (after 0 stB).statusWord = 0xE ∧ causeOf 0x50090100 stR = 0x102 ∧
    (after 0x50090100 stR).csr.ecmd = 0x50090100 ∧ (after 0x50090100 stR).statusWord = 0x6 := by decide

/-! The host bus. -/

/-- The word a read returns. -/
def readOf (s : State) (o : Offset) : Word := (s.hostRead .bits32 o).busData

/-- BU1, BU2. -/
theorem test_bus_constants : readOf stR 0x000 = 0x4E545401 ∧ readOf stR 0x01C = 0x00F0C708 ∧
    capsWord { cw := 64, nbuf := 4, lognMax := 10, lMax := 3 } = 0x0030A302 := by decide
/-- BU3, BU4. -/
theorem test_bus_slot_reads : readOf stB 0x2000 = 0x11 ∧ readOf stB 0x201C = 0 ∧ readOf (sc 3 (-6) stB) 0x10C0 = 0xFFFFFFFA ∧
    readOf (sc 3 (-6) stB) 0x10E0 = 0xFFFFFFFF := by decide
/-- BU5, BU6, BU7. -/
theorem test_bus_slot_writes : (sc 3 5 stB).hostWrite .bits32 0x10E0 0x12345678 = sc 3 5 stB ∧
    ((sc 3 5 stB).hostWrite .bits32 0x10C4 1).scalar 3 = 4294967301 ∧
    ((sc 3 5 stB).hostWrite .bits32 0x10DC 0x80000000).scalar 3 = -2 ^ 255 + 5 := by decide
/-- BU8 to BU14. -/
theorem test_bus_errors : (stB.hostWrite .bits32 0x2000 5).csr.aerr = true ∧ (stB.hostRead .bits32 0x040).csr.aerr = true ∧
    (stB.hostRead .bits32 0x25C0).csr.aerr = false ∧ (stB.hostRead .bits32 0x01200000).csr.aerr = true ∧
    (stB.hostRead .bits32 0x03000000).csr.aerr = true ∧ (stB.hostRead .bits16 0x008).csr.aerr = true ∧
    (stB.hostRead .bits32 0x006).csr.aerr = true := by decide
/-- BU15, BU18 to BU22, on B with a pending NOP. -/
theorem test_bus_busy :
    let s := stB.accept 0x04000000
    (s.hostWrite .bits32 0x00C 0x08000000).csr.haz = true ∧ readOf s 0x020 = 2 ∧ (s.hostRead .bits32 0x020).csr.haz = false ∧
      (s.hostWrite .bits32 0x020 3).cfg.logn = 2 ∧ (s.hostWrite .bits32 0x020 3).csr.haz = true ∧
      (s.hostWrite .bits32 0x004 3).statusWord = 0x29 ∧ (s.hostWrite .bits32 0x004 1).statusWord = 0x9 := by decide
/-- BU22: the soft reset discards the pending command; its free values are not evaluated here. -/
theorem test_bus_soft_reset :
    let s := (stB.accept 0x04000000).hostWrite .bits32 0x004 4
    s.pending = none ∧ s.csr = Csr.zero ∧ s.par = ParamSet.zero := ⟨rfl, rfl, rfl⟩
/-- I22: a write to word 8 of T's slot is ignored without AERR. -/
theorem test_bus_read_only_tail : stB.hostWrite .bits32 0x2020 5 = stB := by decide
/-- R310 item 2 beside R70: a write to T's slot and one to P_LOGN while BUSY = 1 set AERR and HAZ. -/
theorem test_bus_read_only_busy :
    let s := stB.accept 0x04000000
    (s.hostWrite .bits32 0x2000 5).statusWord = 0x39 ∧ (s.hostWrite .bits32 0x034 5).statusWord = 0x39 ∧
      (s.hostWrite .bits32 0x2020 5).statusWord = 0x29 := by decide
/-- BU23, BU24. -/
theorem test_bus_status :
    let s : State := { stB with csr := { stB.csr with done := true, err := true, haz := true } }
    (s.hostWrite .bits32 0x008 4).statusWord = 0x2A ∧ stB.hostWrite .bits32 0x008 9 = stB := by decide
/-- BU25. -/
theorem test_bus_irq :
    let s := (after 0x04000000 stB).hostWrite .bits32 0x004 1
    s.irq = true ∧ (s.hostWrite .bits32 0x008 2).irq = false := by decide
/-- BU28. -/
theorem test_bus_ccount_wraps : (after 0x04000000 (stB.hostWrite .bits32 0x018 0xFFFFFFFF)).csr.ccount = 0 := by
  decide

/-! The assembler (30_encoding.md R110 to R119). -/

theorem test_assemble_example : (assembleWords "PMULM p2, p0, p1, %Q3 ; comment".toList).toOption = some [0x86320100] := by
  decide
theorem test_assemble_encode : (assembleWords "encode p1, p0".toList).toOption = some [0x8C010000, 0x4C011000] := by
  decide
theorem test_assemble_immediate : assembleLine "root s0, %q2, #0x0f".toList = .ok [.root 0 (.q 2) 15] := by decide
theorem test_assemble_refuses_class : assembleLine "pmulm p2, s0, p1, %Q3".toList = .error .wrongOperands := by
  decide
theorem test_assemble_refuses_index : assembleLine "pzero p16".toList = .error .badOperand := by decide

/-! Witnesses: concrete states and operands that meet the hypotheses of each statement that has some, at the boundary of each
clause. -/

/-- B with the word pending. -/
def pend (w : Word) (s : State) : State := s.accept w

theorem isPrime_of_prime {n : Nat} (h : n.Prime) : IsPrime n := by
  refine ⟨h.two_le, fun d h1 h2 hd => ?_⟩
  rcases (Nat.dvd_prime h).1 hd with h3 | h3 <;> omega

theorem isPrime_17 : IsPrime 17 := isPrime_of_prime (by norm_num)

theorem not_isPrime_of_dvd {n d : Nat} (h1 : 1 < d) (h2 : d < n) (h3 : d ∣ n) : ¬ IsPrime n := fun h => h.2 d h1 h2 h3

/-- 17 is the smallest prime `≡ 1 (mod 8)` that is at least 16. -/
theorem sought_17 : SmallestSought (2 ^ 4) 8 [17] := by
  refine ⟨by simp, fun p hp => ?_, fun p hp => ?_⟩
  · obtain rfl : p = 17 := by simpa using hp
    exact ⟨by decide, by decide, isPrime_17⟩
  · obtain ⟨h1, h2, -⟩ := hp
    simp only [List.mem_cons, List.not_mem_nil, or_false, forall_eq]
    omega

/-- 73, 89 and 97 are the smallest primes `≡ 1 (mod 8)` that are at least 64: 65 and 81 are composite. -/
theorem sought_chain : SmallestSought (2 ^ 6) 8 [73, 89, 97] := by
  have h65 : ¬ IsPrime 65 := not_isPrime_of_dvd (d := 5) (by decide) (by decide) (by decide)
  have h81 : ¬ IsPrime 81 := not_isPrime_of_dvd (d := 9) (by decide) (by decide) (by decide)
  refine ⟨by decide, fun p hp => ?_, fun p hp => ?_⟩
  · simp only [List.mem_cons, List.not_mem_nil, or_false] at hp
    rcases hp with rfl | rfl | rfl
    · exact ⟨by decide, by decide, isPrime_of_prime (by norm_num)⟩
    · exact ⟨by decide, by decide, isPrime_of_prime (by norm_num)⟩
    · exact ⟨by decide, by decide, isPrime_of_prime (by norm_num)⟩
  · obtain ⟨h1, h2, h3⟩ := hp
    simp only [List.mem_cons, List.not_mem_nil, or_false, forall_eq_or_imp, forall_eq]
    by_contra hc
    have : p = 65 ∨ p = 81 := by omega
    rcases this with rfl | rfl
    · exact h65 h3
    · exact h81 h3

/-- No sought prime fits where the search starts at `2^255`. -/
theorem sought_overflow {m p : Nat} (h : SoughtPrime (2 ^ 255) m p) : ¬ Fits Config.Params.standard p := by
  intro hf
  have h1 := hf.2
  have h2 : (2 ^ 255 : Nat) ≤ p := h.1
  simp only [Config.Params.standard] at h1
  omega

theorem witness_DecodeInvertsEncode : (Instr.root 15 (.reserved 15) 255).wellFormed = true ∧
    (Instr.prndmul 15 15 15 15 (.s 15)).wellFormed = true := by decide

theorem witness_EncodeInvertsDecode : decode 0x3BFF00FF = .ok (.root 15 (.s 15) 255) ∧ decode 0x04000000 = .ok .nop := by decide

theorem witness_StepPerformsDecodedCommand :
    let s := pend 0x08000000 stB
    s.resetPin = false ∧ s.schedule = [] ∧
      ({ s with schedule := [.engine, .resetPin true] } : State).schedule.head? = some .engine ∧
      s.pending = some 0x08000000 ∧ decode 0x08000000 = .ok .pbuild := by decide

theorem witness_StepTakesIllegalError :
    (pend 0x0C000000 stB).pending = some 0x0C000000 ∧ (pend 0x0C000000 stB).resetPin = false ∧
      (pend 0x0C000000 stB).schedule = [] ∧ (0x0C000000#32).toNat / 2 ^ 26 ∉ reservedBits.map Prod.fst ∧
      (0x04000001#32).toNat / 2 ^ 26 = 1 ∧ 0x04000001#32 &&& 0x03FFFFFF ≠ 0 ∧ ((0x01, 0x03FFFFFF) : Nat × Word) ∈ reservedBits ∧
      (0x8C000001#32).toNat / 2 ^ 26 = 0x23 ∧ 0x8C000001#32 &&& 0x00000FFF ≠ 0 ∧
      ((0x23, 0x00000FFF) : Nat × Word) ∈ reservedBits := by decide

/-- The parameter set of the example is valid. -/
theorem valid_parB : parB.Valid Config.Params.standard := by
  have hp : ∀ n : Nat, n.Prime → n % 8 = 1 → n < 2 ^ 255 → NttPrime Config.Params.standard parB n := by
    intro n h1 h2 h3
    refine ⟨by omega, isPrime_of_prime h1, h2, ?_, ?_⟩
    · have : (0 : Int) ≤ 2 ^ 255 := by positivity
      simp only [Config.Params.standard]
      omega
    · simp only [Config.Params.standard]
      omega
  refine ⟨by decide, by decide, by decide, hp 17 (by norm_num) (by decide) (by decide), ?_, by decide, by decide⟩
  have rest : ∀ i : Fin 16, i.val < 3 → Fits Config.Params.standard parB.bigQ[i] ∧ parB.t < parB.bigQ[i] ∧
      Int.gcd parB.t parB.bigQ[i] = 1 ∧ (i.val = 0 → parB.bigQ[i] = parB.q[i]) := by decide
  intro i hi
  refine ⟨?_, rest i hi⟩
  have h3 : i = 0 ∨ i = 1 ∨ i = 2 := by
    have : i.val < 3 := hi
    simp only [Fin.ext_iff]
    omega
  rcases h3 with rfl | rfl | rfl
  · exact hp 73 (by norm_num) (by decide) (by decide)
  · exact hp 89 (by norm_num) (by decide) (by decide)
  · exact hp 97 (by norm_num) (by decide) (by decide)

/-- B with a nonzero scalar and buffer, and a command pending that the next step performs. -/
theorem witness_StepKeepsInvariant : Inv (pend 0x88010000 (sc 15 (-2 ^ 255) (pl 7 [2 ^ 255 - 1, 0, -1] stB))) := by
  refine ⟨by decide, ⟨by decide, by decide⟩, valid_parB, fun w hw => ?_, .inl rfl⟩
  obtain rfl : 0x88010000 = w := Option.some.inj hw
  decide

theorem witness_AcceptedCommandCompletes :
    let s : State := { stB with schedule := [.write .bits32 0x00C 0x08000000, .engine, .resetPin true] }
    s.pending = none ∧ s.csr.err = false ∧ s.resetPin = false := by decide

theorem witness_ResetSetsRegisters : (0x00000004#32).getLsbD 2 = true ∧ (pend 0x04000000 stB).resetPin = false := by decide

theorem witness_AssertedResetIgnoresAccesses : (stB.driveReset true).resetPin = true := by decide

/-- The largest and the smallest implementation of R6. -/
theorem witness_SlotsLieWhereTheMapSays :
    ({ cw := 512, nbuf := 16, lognMax := 16, lMax := 15 } : Config.Params).Legal ∧
      ({ cw := 64, nbuf := 1, lognMax := 0, lMax := 0 } : Config.Params).Legal ∧ Config.Params.standard.Legal ∧ 15 < 16 ∧
      2 ^ 16 - 1 < 2 ^ 16 := by decide

theorem witness_AddressMapIsInjective :
    let p : Config.Params := { cw := 512, nbuf := 16, lognMax := 16, lMax := 15 }
    p.Legal ∧ 0x04FFFFFC % 4 = 0 ∧ locate p 0x04FFFFFC = .word (.coeff 15 65535) 15 ∧
      locate Config.Params.standard 0x000 = .id := by decide

theorem witness_CoefficientSlotWordReadsBack :
    stB.params.Legal ∧ stB.pending = none ∧ stB.resetPin = false ∧ (7 : PBuf).val < stB.params.nbuf ∧
      4095 < 2 ^ stB.params.lognMax ∧ 7 < stB.params.cw / 32 ∧ 0 < stB.params.cw / 32 ∧ 8 < 16 ∧ 15 < 16 ∧
      stB.params.cw / 32 ≤ 8 := by decide

theorem witness_WideWriteStoresValue :
    stB.params.Legal ∧ stB.pending = none ∧ stB.resetPin = false ∧ Fits stB.params (2 ^ 255 - 1) ∧
      Fits stB.params (-2 ^ 255) ∧ [7, 0, 3, 1, 2, 6, 5, 4].Perm (List.range (stB.params.cw / 32)) ∧
      (7 : PBuf).val < stB.params.nbuf ∧ 4095 < 2 ^ stB.params.lognMax := by decide

theorem witness_SlotReadsPatternAndSignFill :
    let s := sc 3 (-6) (pl 7 [-6, 5] stB)
    s.params.Legal ∧ s.pending = none ∧ s.resetPin = false ∧
      (locate s.params (0x10FC : Offset).toNat = .word (.scalar 3) 15 ∧ Fits s.params (s.slotValue (.scalar 3))) ∧
      (locate s.params (0x2C00000 : Offset).toNat = .word (.coeff 7 0) 0 ∧ Fits s.params (s.slotValue (.coeff 7 0))) ∧
      (locate s.params (0x2000 : Offset).toNat = .word .t 0 ∧ Fits s.params (s.slotValue .t)) ∧
      (locate s.params (0x24C0 : Offset).toNat = .word (.q 15) 0 ∧ Fits s.params (s.slotValue (.q 15))) ∧
      (locate s.params (0x2504 : Offset).toNat = .word (.bigQ 0) 1 ∧ Fits s.params (s.slotValue (.bigQ 0))) ∧
      (0x2504 : Offset).toNat % 4 = 0 ∧ locate s.params (0x018 : Offset).toNat ≠ .unmapped := by decide

theorem witness_BadAccessSetsAerrOnly :
    (pend 0x04000000 stB).resetPin = false ∧ Width.burst ≠ .bits32 ∧ (0x006 : Offset).toNat % 4 ≠ 0 ∧
      locate stB.params (0x040 : Offset).toNat = .unmapped ∧ locate stB.params (0x7FFFFFC : Offset).toNat = .unmapped := by
  decide

theorem witness_ReadOnlyWriteIsIgnored :
    (pend 0x04000000 stB).resetPin = false ∧ (0x01C : Offset).toNat ∈ [0x00, 0x10, 0x14, 0x1C] ∧
      (0x03C : Offset).toNat ∈ [0x34, 0x38, 0x3C] ∧ 7 < 16 ∧ (0x201C : Offset).toNat = 0x2000 + 4 * 7 ∧
      (0x2020 : Offset).toNat = 0x2000 + 4 * 8 ∧ 15 ≤ stB.params.lMax ∧
      (0x24DC : Offset).toNat = 0x2100 + 0x40 * 15 + 4 * 7 ∧ (0x28DC : Offset).toNat = 0x2500 + 0x40 * 15 + 4 * 7 ∧
      (0x28DC : Offset).toNat % 4 = 0 := by decide

theorem witness_BusyAccessSetsHazOnly :
    let s := pend 0x04000000 stB
    s.resetPin = false ∧ s.pending.isSome = true ∧ locate s.params (0x00C : Offset).toNat = .cmd ∧
      locate s.params (0x018 : Offset).toNat = .ccount ∧ locate s.params (0x030 : Offset).toNat = .cfg .sigma ∧
      locate s.params (0x13FC : Offset).toNat = .word (.scalar 15) 15 ∧
      locate s.params (0x2C3FFFC : Offset).toNat = .word (.coeff 7 4095) 15 ∧
      locate s.params (0x2000 : Offset).toNat = .word .t 0 ∧ locate s.params (0x034 : Offset).toNat = .pLogn ∧
      locate s.params (0x038 : Offset).toNat = .pChain ∧ locate s.params (0x03C : Offset).toNat = .pSigma := by decide

theorem witness_CmdWriteAcceptsOrDrops :
    (stB.resetPin = false ∧ stB.pending = none ∧ stB.csr.err = false) ∧
      ¬ ((pend 0 stB).pending = none ∧ (pend 0 stB).csr.err = false) ∧
      ¬ ((after 0 stB).pending = none ∧ (after 0 stB).csr.err = false) := by decide

theorem witness_CtrlWriteSetsModes :
    stB.resetPin = false ∧ (0x00000003#32).getLsbD 2 = false ∧ stB.pending = none ∧ (pend 0 stB).pending ≠ none ∧
      (pend 0 stB).resetPin = false := by decide

theorem witness_ConfigurationRegistersStore : stB.resetPin = false ∧ stB.pending = none := by decide

theorem witness_InterruptFollowsDone :
    stB.resetPin = false ∧ (0x00000002#32).getLsbD 1 = true ∧ (0x00000002#32).getLsbD 0 = false := by decide

theorem witness_CommandEndsInSuccessOrErrorEntry : (pend 0x04000000 stB).pending = some 0x04000000 := by decide

theorem witness_CommandFrame : exec .nop (pend 0x04000000 stB) = .next (pend 0x04000000 stB).complete := rfl

theorem witness_OnlyPbuildAndResetChangeParameters :
    step (pend 0x04000000 stB) = .next (pend 0x04000000 stB).complete := rfl

theorem witness_CommandsReadNoHiddenSource :
    exec (.pzero 7) (pend 0x40070000 stB) = .next ((pend 0x40070000 stB).copyLanes 7 4096 []).complete := rfl

theorem witness_MissingBufferIsReportedFirst :
    let s := pend 0x50080100 stB
    s.pending = some 0x50080100 ∧ ¬ HasBuffer s 8 ∧ HasBuffer s 7 := by decide

theorem witness_PolynomialCommandsNeedParameters :
    let s := pend 0x84520100 stR
    s.pending = some 0x84520100 ∧ s.csr.pvalid = false ∧ HasBuffer s 2 ∧ HasBuffer s 0 ∧ HasBuffer s 7 := by decide

theorem witness_SelectorErrorsAreRaised :
    let s := pend 0x3CF00000 stB
    s.pending = some 0x3CF00000 ∧ selectorError s (.reserved 15) = some (4, 1) ∧ selectorError s (.q 3) = some (4, 2) ∧
      selectorError (pend 0 stR) .t = some (3, 0) ∧ (12#8).toNat ≤ s.params.lognMax ∧ s.csr.pvalid = true ∧
      HasBuffer s 7 := by decide

theorem witness_UnfitModulusIsRefused :
    let s := pend 0x3B10000D (sc 1 1 (sc 2 25 (sc 3 13 stB)))
    s.pending = some 0x3B10000D ∧ Selects s (.s 1) 1 ∧ (1 : Int) < 2 ∧ Selects s (.s 2) 25 ∧ ¬ IsPrime (25 : Int).toNat ∧
      Selects s (.s 3) 13 ∧ IsPrime (13 : Int).toNat ∧ (13 : Int).toNat % 2 ^ (s.par.pLogn.toNat + 1) ≠ 1 ∧
      (2#8).toNat ≤ s.params.lognMax ∧ (13 : Int).toNat % 2 ^ ((2#8).toNat + 1) ≠ 1 ∧ ¬ (13#8).toNat ≤ s.params.lognMax ∧
      s.csr.pvalid = true ∧ HasBuffer s 0 ∧ HasBuffer s 1 ∧ HasBuffer s 2 := by
  refine ⟨rfl, rfl, by decide, rfl, not_isPrime_of_dvd (d := 5) (by decide) (by decide) (by decide), rfl,
    isPrime_of_prime (show Nat.Prime 13 by norm_num), ?_⟩
  decide

theorem witness_FindprimeStoresSmallestPrime :
    let s := sc 1 4 (sc 2 8 stR)
    0 ≤ s.scalars[(1 : SReg)] ∧ 0 < s.scalars[(2 : SReg)] ∧
      SmallestSought (2 ^ s.scalars[(1 : SReg)].toNat) s.scalars[(2 : SReg)].toNat [17] ∧ Fits s.params 17 :=
  ⟨by decide, by decide, sought_17, by decide⟩

theorem witness_FindprimesStoresSmallestPrimes :
    let s := sc 1 6 (sc 2 8 stR)
    HasBuffer s 7 ∧ 1 ≤ (3#8).toNat ∧ (3#8).toNat ≤ 2 ^ s.params.lognMax ∧ 0 ≤ s.scalars[(1 : SReg)] ∧
      0 < s.scalars[(2 : SReg)] ∧ [73, 89, 97].length = (3#8).toNat ∧
      SmallestSought (2 ^ s.scalars[(1 : SReg)].toNat) s.scalars[(2 : SReg)].toNat [73, 89, 97] ∧
      ∀ p ∈ [73, 89, 97], Fits s.params (p : Nat) :=
  ⟨by decide, by decide, by decide, by decide, by decide, by decide, sought_chain, by decide⟩

/-- One state for each clause: a count of 0, and of 5 where N_MAX = 4; a negative bit count; a congruence modulo 0; a search
from `2^255`, whose primes are all above LIMIT. -/
theorem witness_PrimeSearchErrors :
    let s := pend 0x24001200 (sc 1 255 (sc 2 1 stB))
    let u := pend 0x20001200 (sc 1 (-1) (sc 2 0 stB))
    (s.pending = some 0x24001200 ∧ HasBuffer s 0 ∧ (0#8 : BitVec 8) = 0) ∧
      2 ^ ({ s with params := { s.params with lognMax := 2 } } : State).params.lognMax < (5#8).toNat ∧
      (u.pending = some 0x20001200 ∧ u.scalars[(1 : SReg)] < 0 ∧ 0 ≤ u.scalars[(2 : SReg)] ∧ u.scalars[(2 : SReg)] ≤ 0) ∧
      (1 ≤ (1#8).toNat ∧ (1#8).toNat ≤ 2 ^ s.params.lognMax ∧ 0 ≤ s.scalars[(1 : SReg)] ∧ 0 < s.scalars[(2 : SReg)]) ∧
      (∀ p, SoughtPrime (2 ^ s.scalars[(1 : SReg)].toNat) s.scalars[(2 : SReg)].toNat p → ¬ Fits s.params p) ∧
      ∀ r : List Nat, r.length = (1#8).toNat →
        SmallestSought (2 ^ s.scalars[(1 : SReg)].toNat) s.scalars[(2 : SReg)].toNat r → ∃ p ∈ r, ¬ Fits s.params p := by
  refine ⟨by decide, by decide, by decide, by decide, fun p hp => sought_overflow hp, fun r hr hs => ?_⟩
  obtain ⟨p, rfl⟩ := List.length_eq_one_iff.1 hr
  exact ⟨p, by simp, sought_overflow (hs.2.1 p (by simp))⟩

/-- An invertible operand with its inverse, and one that is not invertible. -/
theorem witness_ModinvStoresInverseOrRaises :
    let s := pend 0x28001000 (sc 1 3 (sc 2 4 (sc 3 6 stB)))
    Selects s .t 17 ∧ (1 : Int) ≤ 6 ∧ (6 : Int) ≤ 17 - 1 ∧ s.scalars[(1 : SReg)] * 6 % 17 = 1 ∧
      Int.gcd s.scalars[(1 : SReg)] 17 = 1 ∧ Selects s (.s 3) 6 ∧ s.pending = some 0x28001000 ∧
      Int.gcd (s.scalars[(2 : SReg)] % 6) 6 ≠ 1 := by
  refine ⟨⟨rfl, rfl⟩, by decide, by decide, by decide, by decide, rfl, by decide, by decide⟩

/-- `x = MINV`; `m = 2` with the residue 1 at the upper end of both ranges. -/
theorem witness_ScalarReductionsStoreResidues :
    let s := sc 1 (-2 ^ 255) (sc 2 2 (sc 3 (-1) stB))
    Selects s .t 17 ∧ (17 : Int) ∣ s.scalars[(1 : SReg)] - 8 ∧ ((0 : Int) ≤ 8 ∧ (8 : Int) < 17) ∧
      (-(17 : Int) < 2 * 8 ∧ 2 * (8 : Int) ≤ 17) ∧ Selects s (.s 2) 2 ∧ (2 : Int) ∣ s.scalars[(3 : SReg)] - 1 ∧
      2 * (1 : Int) ≤ 2 := by
  refine ⟨⟨rfl, rfl⟩, by decide, by decide, by decide, rfl, by decide, by decide⟩

theorem witness_HalfRangeReductionIsCanonical :
    (2 : Int) ≤ 2 ∧ (6 : Int) % 2 = 0 ∧ (6 : Int) ∣ -3 - 6 / 2 ∧ (3 : Int) % 2 = 1 ∧ -(6 : Int) < 2 * 3 ∧ 2 * (3 : Int) ≤ 6 ∧
      (6 : Int) ∣ -3 - 3 := by decide

/-- RN16 and RN17: a tie in both modes. -/
theorem witness_RndmulStoresNearestMultiple :
    let s := sc 1 6 (sc 2 1 (sc 3 (-1) (sc 4 4 stB)))
    Selects s (.s 4) 4 ∧ (1 : Int) ≤ 4 ∧ s.scalars[(3 : SReg)] ≠ 0 ∧
      NearestMultiple ((s.scalars[(1 : SReg)] : ℚ) * s.scalars[(2 : SReg)] / s.scalars[(3 : SReg)]) 4 (-1) s.csr.tie ∧
      NearestMultiple ((s.scalars[(1 : SReg)] : ℚ) * s.scalars[(2 : SReg)] / s.scalars[(3 : SReg)]) 4 (-2) (tie s).csr.tie ∧
      Fits s.params (-1 * 4) ∧ Fits s.params (-2 * 4) := by
  have h1 : (sc 1 6 (sc 2 1 (sc 3 (-1) (sc 4 4 stB)))).scalars[(1 : SReg)] = 6 := rfl
  have h2 : (sc 1 6 (sc 2 1 (sc 3 (-1) (sc 4 4 stB)))).scalars[(2 : SReg)] = 1 := rfl
  have h3 : (sc 1 6 (sc 2 1 (sc 3 (-1) (sc 4 4 stB)))).scalars[(3 : SReg)] = -1 := rfl
  have t0 : (sc 1 6 (sc 2 1 (sc 3 (-1) (sc 4 4 stB)))).csr.tie = false := rfl
  have t1 : (tie (sc 1 6 (sc 2 1 (sc 3 (-1) (sc 4 4 stB))))).csr.tie = true := rfl
  dsimp only
  rw [h1, h2, h3, t0, t1]
  refine ⟨rfl, by decide, by decide, ?_, ?_, by decide, by decide⟩
  · norm_num [NearestMultiple, abs_of_neg]
  · norm_num [NearestMultiple, abs_of_pos]

/-- `b = 0`; a denominator of 0; RN24, whose nearest multiple is `2^255`. -/
theorem witness_RoundingErrors :
    let s := pend 0x37401230 (sc 1 (2 ^ 255 - 1) (sc 2 1 (sc 3 1 (sc 4 (2 ^ 200) (pl 0 [2 ^ 255 - 1] stB)))))
    s.pending = some 0x37401230 ∧ Selects s (.s 5) 0 ∧ (0 : Int) ≤ 0 ∧ Selects s (.s 4) (2 ^ 200) ∧ (1 : Int) ≤ 2 ^ 200 ∧
      s.scalars[(6 : SReg)] = 0 ∧ s.scalars[(3 : SReg)] ≠ 0 ∧ ¬ Fits s.params (2 ^ 55 * 2 ^ 200) ∧
      NearestMultiple ((s.scalars[(1 : SReg)] : ℚ) * s.scalars[(2 : SReg)] / s.scalars[(3 : SReg)]) (2 ^ 200) (2 ^ 55)
        s.csr.tie ∧
      s.csr.pvalid = true ∧ HasBuffer s 0 ∧ HasBuffer s 7 ∧ 0 < 2 ^ s.par.pLogn.toNat ∧
      s.coeff 0 0 = s.scalars[(1 : SReg)] := by
  have h1 : (pend 0x37401230 (sc 1 (2 ^ 255 - 1) (sc 2 1 (sc 3 1 (sc 4 (2 ^ 200) (pl 0 [2 ^ 255 - 1] stB)))))).scalars[(1 : SReg)]
      = 2 ^ 255 - 1 := rfl
  have h2 : (pend 0x37401230 (sc 1 (2 ^ 255 - 1) (sc 2 1 (sc 3 1 (sc 4 (2 ^ 200) (pl 0 [2 ^ 255 - 1] stB)))))).scalars[(2 : SReg)]
      = 1 := rfl
  have h3 : (pend 0x37401230 (sc 1 (2 ^ 255 - 1) (sc 2 1 (sc 3 1 (sc 4 (2 ^ 200) (pl 0 [2 ^ 255 - 1] stB)))))).scalars[(3 : SReg)]
      = 1 := rfl
  have t0 : (pend 0x37401230 (sc 1 (2 ^ 255 - 1) (sc 2 1 (sc 3 1 (sc 4 (2 ^ 200) (pl 0 [2 ^ 255 - 1] stB)))))).csr.tie
      = false := rfl
  dsimp only
  rw [h1, h2, h3, t0]
  refine ⟨rfl, rfl, by decide, rfl, by decide, rfl, by decide, by decide, ?_, by decide⟩
  norm_num [NearestMultiple, abs_of_neg]

/-- PB1. -/
theorem derived_parB : DerivedParams Config.Params.standard cfgB parB := by
  refine ⟨by decide, by decide, by decide, rfl, rfl, rfl, 17, [73, 89, 97], sought_17, by decide, rfl, sought_chain, by decide,
    by decide, rfl, by decide⟩

theorem witness_PbuildInstallsDerivedParameters : DerivedParams (cfg 2 4 6 3 stR).params (cfg 2 4 6 3 stR).cfg parB :=
  derived_parB

/-- PB7; PB9 and PB10; PB11; PB12; PB5. -/
theorem witness_PbuildReportsFirstFailingCheck :
    (pend 0x08000000 (cfg 2 4 4 1 stR)).pending = some 0x08000000 ∧
      (cfg 13 4 6 3 stR).params.lognMax < (cfg 13 4 6 3 stR).cfg.logn.toNat ∧
      (cfg 12 4 6 0 stR).cfg.logn.toNat ≤ (cfg 12 4 6 0 stR).params.lognMax ∧ (cfg 12 4 6 0 stR).cfg.chain.toNat = 0 ∧
      (cfg 2 4 6 17 stR).params.lMax + 1 < (cfg 2 4 6 17 stR).cfg.chain.toNat ∧
      (1 ≤ (cfg 2 255 6 16 stR).cfg.chain.toNat ∧ (cfg 2 255 6 16 stR).cfg.chain.toNat ≤ stR.params.lMax + 1) ∧
      (∀ t, SoughtPrime (2 ^ (cfg 2 255 6 16 stR).cfg.pbits.toNat) (2 * 2 ^ 2) t → ¬ Fits stR.params t) ∧
      (SmallestSought (2 ^ (cfg 2 4 255 1 stR).cfg.pbits.toNat) (2 * 2 ^ 2) [17] ∧ Fits stR.params 17) ∧
      (∀ r : List Nat, r.length = 1 → SmallestSought (2 ^ (cfg 2 4 255 1 stR).cfg.cbits.toNat) (2 * 2 ^ 2) r →
        ¬ Fits stR.params r.prod) ∧
      SmallestSought (2 ^ (cfg 2 4 4 1 stR).cfg.cbits.toNat) (2 * 2 ^ 2) [17] ∧ Fits stR.params ([17].prod : Nat) ∧
      [17].getD 0 0 ≤ 17 := by
  refine ⟨by decide, by decide, by decide, by decide, by decide, by decide, fun t ht => sought_overflow ht,
    ⟨sought_17, by decide⟩, fun r hr hs => ?_, sought_17, by decide, by decide⟩
  obtain ⟨p, rfl⟩ := List.length_eq_one_iff.1 hr
  have := sought_overflow (hs.2.1 p (by simp))
  rwa [List.prod_singleton]

/-- A PBUILD that raises (PARAM 2) and a command other than PBUILD, both with a next state. -/
theorem witness_PbuildReplacesAllOrNothing :
    exec .pbuild (pend 0x08000000 stR) = .next ((pend 0x08000000 stR).enterError (raised .param 2)) ∧
      exec .nop (pend 0x08000000 stR) = .next (pend 0x08000000 stR).complete := ⟨rfl, rfl⟩

theorem witness_ModgetCopiesModulus :
    Selects stB .t 17 ∧ Selects stB (.q 2) 97 ∧ Selects stB (.bigQ 2) 630209 ∧ Selects (sc 15 (-42) stR) (.s 15) (-42) :=
  ⟨⟨rfl, rfl⟩, ⟨rfl, by decide, rfl⟩, ⟨rfl, by decide, rfl⟩, rfl⟩

/-- PM7 with `c[0] = MINV`, and PM6 with `c[0] = 2^255`. -/
theorem witness_PmulStoresExactProduct :
    let s := pl 0 [2 ^ 254] (pl 1 [-2] stB)
    let u := pend 0x80020100 (pl 0 [2 ^ 254] (pl 1 [2] stB))
    (HasBuffer s 7 ∧ HasBuffer s 0 ∧ HasBuffer s 1 ∧ s.csr.pvalid = true) ∧
      (∀ k < 2 ^ s.par.pLogn.toNat, Fits s.params (schoolbook (s.coeff 0) (s.coeff 1) (2 ^ s.par.pLogn.toNat) k)) ∧
      u.pending = some 0x80020100 ∧
      ∃ k < 2 ^ u.par.pLogn.toNat, ¬ Fits u.params (schoolbook (u.coeff 0) (u.coeff 1) (2 ^ u.par.pLogn.toNat) k) := by
  refine ⟨by decide, ?_, by decide, 0, by decide, ?_⟩
  · decide
  · decide

theorem witness_PmulmStoresReducedProduct :
    HasBuffer stB 7 ∧ HasBuffer stB 0 ∧ stB.csr.pvalid = true ∧ Selects stB (.bigQ 2) 630209 ∧ (2 : Int) ≤ 630209 ∧
      Selects (sc 0 2 stB) (.s 0) 2 :=
  ⟨by decide, by decide, rfl, ⟨rfl, by decide, rfl⟩, by decide, rfl⟩

theorem witness_NegacyclicProductLaws : 0 < 1 ∧ 4095 < 4096 ∧ (1 : Int) ≤ 1 := by decide

/-- The largest exponent R191 admits for 40961, and `k = 0` for 3. -/
theorem witness_RootStoresCanonicalRoot :
    let s := sc 1 40961 (sc 2 3 stR)
    (12#8).toNat ≤ s.params.lognMax ∧ Selects s (.s 1) 40961 ∧ IsPrime (40961 : Int).toNat ∧
      (40961 : Int).toNat % 2 ^ ((12#8).toNat + 1) = 1 ∧ Selects s (.s 2) 3 ∧ IsPrime (3 : Int).toNat ∧
      (3 : Int).toNat % 2 ^ ((0#8).toNat + 1) = 1 :=
  ⟨by decide, rfl, isPrime_of_prime (show Nat.Prime 40961 by norm_num), by decide, rfl,
    isPrime_of_prime (show Nat.Prime 3 by norm_num), by decide⟩

/-- The hypotheses of both transforms' statements. -/
theorem witness_NttfEvaluatesAtOddPowers :
    HasBuffer stB 7 ∧ HasBuffer stB 0 ∧ stB.csr.pvalid = true ∧ Selects stB (.q 0) 73 ∧ IsPrime (73 : Int).toNat ∧
      (73 : Int).toNat % 2 ^ (stB.par.pLogn.toNat + 1) = 1 :=
  ⟨by decide, by decide, rfl, ⟨rfl, by decide, rfl⟩, isPrime_of_prime (show Nat.Prime 73 by norm_num), by decide⟩

theorem witness_NttiInterpolates :
    HasBuffer stB 1 ∧ HasBuffer stB 1 ∧ stB.csr.pvalid = true ∧ Selects stB .t 17 ∧ IsPrime (17 : Int).toNat ∧
      (17 : Int).toNat % 2 ^ (stB.par.pLogn.toNat + 1) = 1 :=
  ⟨by decide, by decide, rfl, ⟨rfl, rfl⟩, isPrime_17, by decide⟩

theorem witness_TransformsInvertEachOther : IsPrime 17 ∧ 17 % 2 ^ (3 + 1) = 1 ∧ 7 < 2 ^ 3 ∧ 17 % 2 ^ (0 + 1) = 1 ∧ 0 < 2 ^ 0 :=
  ⟨isPrime_17, by decide⟩

theorem witness_NegacyclicConvolutionTheorem : IsPrime 17 ∧ 17 % 2 ^ (2 + 1) = 1 ∧ 3 < 2 ^ 2 := ⟨isPrime_17, by decide⟩

theorem witness_DecodeReturnsEncodedMessage :
    HasBuffer stB 7 ∧ HasBuffer stB 0 ∧ stB.csr.pvalid = true ∧ stB.par.Valid stB.params := ⟨by decide, by decide, rfl, valid_parB⟩

theorem witness_DataMovementCoversWholeBuffers : HasBuffer stR 7 ∧ HasBuffer stR 0 := by decide

/-- EW8 with PRED and PCTR lanes, 8 at the upper end of the half range of 17. -/
theorem witness_ReductionLanes :
    let s := pl 0 [16, 8, 9, 0] stB
    HasBuffer s 1 ∧ HasBuffer s 0 ∧ s.csr.pvalid = true ∧ Selects s .t 17 ∧ (2 : Int) ≤ 17 ∧
      (∀ j < 2 ^ s.par.pLogn.toNat, (17 : Int) ∣ s.coeff 0 j - [16, 8, 9, 0].getD j 0 ∧
        0 ≤ [(16 : Int), 8, 9, 0].getD j 0 ∧ [(16 : Int), 8, 9, 0].getD j 0 < 17) ∧
      ∀ j < 2 ^ s.par.pLogn.toNat, (17 : Int) ∣ s.coeff 0 j - [-1, 8, -8, 0].getD j 0 ∧
        -17 < 2 * [-1, (8 : Int), -8, 0].getD j 0 ∧ 2 * [-1, (8 : Int), -8, 0].getD j 0 ≤ 17 := by
  refine ⟨by decide, by decide, by decide, ⟨rfl, rfl⟩, by decide, by decide, by decide⟩

theorem witness_ModularArithmeticLanes :
    HasBuffer stB 7 ∧ HasBuffer stB 0 ∧ HasBuffer stB 1 ∧ stB.csr.pvalid = true ∧ Selects stB .t 17 ∧
      Selects (sc 1 2 stB) (.s 1) 2 := ⟨by decide, by decide, by decide, rfl, ⟨rfl, rfl⟩, rfl⟩

/-- EW21 without its last two lanes: `10/4` and `6/4` are both ties. -/
theorem witness_PrndmulStoresNearestMultiples :
    let s := sc 1 1 (sc 2 1 (sc 3 4 (pl 0 [10, 6] stB)))
    HasBuffer s 1 ∧ HasBuffer s 0 ∧ s.csr.pvalid = true ∧ Selects s (.s 3) 4 ∧ (1 : Int) ≤ 4 ∧ s.scalars[(2 : SReg)] ≠ 0 ∧
      ∀ j < 2 ^ s.par.pLogn.toNat,
        NearestMultiple ((s.coeff 0 j : ℚ) * s.scalars[(1 : SReg)] / s.scalars[(2 : SReg)]) 4 ([3, 2].getD j 0) s.csr.tie ∧
          Fits s.params ([3, 2].getD j 0 * 4) := by
  refine ⟨by decide, by decide, by decide, rfl, by decide, by decide, fun j hj => ?_⟩
  have hj4 : j < 4 := hj
  have h1 : (sc 1 1 (sc 2 1 (sc 3 4 (pl 0 [10, 6] stB)))).scalars[(1 : SReg)] = 1 := rfl
  have h2 : (sc 1 1 (sc 2 1 (sc 3 4 (pl 0 [10, 6] stB)))).scalars[(2 : SReg)] = 1 := rfl
  have t0 : (sc 1 1 (sc 2 1 (sc 3 4 (pl 0 [10, 6] stB)))).csr.tie = false := rfl
  have c : ∀ k < 4, (sc 1 1 (sc 2 1 (sc 3 4 (pl 0 [10, 6] stB)))).coeff 0 k = [10, 6, 0, 0].getD k 0 := by decide
  rw [h1, h2, t0, c j hj4]
  have : j = 0 ∨ j = 1 ∨ j = 2 ∨ j = 3 := by omega
  rcases this with rfl | rfl | rfl | rfl
  · exact ⟨by norm_num [NearestMultiple, abs_of_neg], by decide⟩
  · exact ⟨by norm_num [NearestMultiple, abs_of_neg], by decide⟩
  · exact ⟨by norm_num [NearestMultiple], by decide⟩
  · exact ⟨by norm_num [NearestMultiple], by decide⟩

end Sys2Proof.Tests
end

section
/-! SUPPORT. The prime search of PBUILD, FINDPRIME and FINDPRIMES (40_number_theory.md R120, R123), and the parameter set
PBUILD derives with it (42_parameters.md R170 to R172). -/

namespace Sys2Proof.Machine

/-! Trial division. -/

/-- Trial division from `d` on succeeds exactly when nothing from `d` up to the square root divides. -/
theorem noDivisorFrom_iff {fuel d n : Nat} (h : n < (fuel + d) * (fuel + d)) :
    noDivisorFrom fuel d n = true ↔ ∀ e, d ≤ e → e * e ≤ n → ¬ e ∣ n := by
  have above {a : Nat} (ha : n < a * a) : ∀ e, a ≤ e → e * e ≤ n → ¬ e ∣ n := fun e hae hen =>
    absurd (Nat.mul_le_mul hae hae) (by omega)
  induction fuel generalizing d with
  | zero => simpa [noDivisorFrom] using above (by simpa using h)
  | succ fuel ih =>
    rw [noDivisorFrom]
    split
    · rename_i hd
      simpa using above hd
    · split
      · rename_i hd hmod
        have hdvd : d ∣ n := Nat.dvd_of_mod_eq_zero (by simpa using hmod)
        simp only [Bool.false_eq_true, false_iff]
        exact fun hall => hall d le_rfl (by omega) hdvd
      · rename_i hmod
        have hnext : n < (fuel + (d + 1)) * (fuel + (d + 1)) := by rwa [show fuel + (d + 1) = fuel + 1 + d by omega]
        refine (ih hnext).trans ⟨fun hall e hde hen => ?_, fun hall e hde hen => hall e (by omega) hen⟩
        rcases Nat.eq_or_lt_of_le hde with rfl | hlt
        · exact fun hdvd => hmod (by simp [Nat.mod_eq_zero_of_dvd hdvd])
        · exact hall e hlt hen

/-- The engine's test is exact (R123). -/
theorem isPrime_eq_true_iff (n : Nat) : isPrime n = true ↔ n.Prime := by
  have hfuel : n < (n + 2) * (n + 2) := by nlinarith
  rw [isPrime, Bool.and_eq_true, decide_eq_true_eq, noDivisorFrom_iff hfuel, Nat.prime_def_le_sqrt]
  simp only [Nat.le_sqrt]

/-- R11's notion of a prime is Mathlib's. -/
theorem isPrime_iff_natPrime (n : Nat) : IsPrime n ↔ n.Prime := Nat.prime_def_lt'.symm

/-! The search. -/

/-- The scan answers as many primes as it needs, rising, each in the residue class of the candidates. -/
theorem scanPrimes_spec {top m fuel c need : Nat} {r : List Nat} (hm : 0 < m) (h : scanPrimes top m fuel c need = some r) :
    r.length = need ∧ r.Pairwise (· < ·) ∧ ∀ x ∈ r, c ≤ x ∧ x ≤ top ∧ x % m = c % m ∧ x.Prime := by
  induction fuel generalizing c need r with
  | zero =>
    cases need with
    | zero => cases h; simp
    | succ need => cases h
  | succ fuel ih =>
    cases need with
    | zero => cases h; simp
    | succ need =>
      rw [scanPrimes] at h
      split at h
      · cases h
      · rename_i htop
        split at h
        · rename_i hprime
          obtain ⟨r', hr', rfl⟩ := Option.map_eq_some_iff.1 h
          obtain ⟨hlen, hsorted, hmem⟩ := ih hr'
          refine ⟨by simp [hlen], List.pairwise_cons.2 ⟨fun x hx => ?_, hsorted⟩, fun x hx => ?_⟩
          · have := (hmem x hx).1
            omega
          · rcases List.mem_cons.1 hx with rfl | hx
            · exact ⟨le_rfl, by omega, rfl, (isPrime_eq_true_iff _).1 hprime⟩
            · obtain ⟨hge, hle, hres, hp⟩ := hmem x hx
              exact ⟨by omega, hle, by rw [hres, Nat.add_mod_right], hp⟩
        · obtain ⟨hlen, hsorted, hmem⟩ := ih h
          refine ⟨hlen, hsorted, fun x hx => ?_⟩
          obtain ⟨hge, hle, hres, hp⟩ := hmem x hx
          exact ⟨by omega, hle, by rw [hres, Nat.add_mod_right], hp⟩

/-- The search answers `qty` rising primes `≡ 1 (mod m)` that fit. -/
theorem primeSearch_spec {p : Config.Params} {nb m qty : Nat} {r : List Nat} (hm : 0 < m)
    (h : primeSearch p nb m qty = some r) :
    r.length = qty ∧ r.Pairwise (· < ·) ∧ ∀ x ∈ r, x ≤ limit p ∧ x % m = 1 % m ∧ x.Prime := by
  unfold primeSearch at h
  split at h
  · cases h
  · obtain ⟨hlen, hsorted, hmem⟩ := scanPrimes_spec hm h
    refine ⟨hlen, hsorted, fun x hx => ?_⟩
    obtain ⟨-, hle, hres, hp⟩ := hmem x hx
    exact ⟨hle, by rw [hres, firstCandidate, Nat.mul_add_mod], hp⟩

/-- A natural number up to LIMIT fits. -/
theorem fits_of_le_limit {p : Config.Params} {n : Nat} (h : n ≤ limit p) : Fits p n := by
  have hpos : 0 < 2 ^ (p.cw - 1) := by positivity
  have hcast : ((2 ^ (p.cw - 1) : Nat) : Int) = 2 ^ (p.cw - 1) := by push_cast; rfl
  unfold limit at h
  rw [Fits, ← hcast]
  omega

/-! The chain moduli. -/

section
variable {primes : List Nat} {i j : Nat}

theorem chainProduct_zero (h : 0 < primes.length) : chainProduct primes 0 = primes.getD 0 0 := by
  rw [chainProduct, List.prod_take_succ _ _ h, List.getD_eq_getElem _ _ h]
  simp

theorem chainProduct_succ (h : i + 1 < primes.length) :
    chainProduct primes (i + 1) = chainProduct primes i * primes.getD (i + 1) 0 := by
  rw [chainProduct, List.prod_take_succ _ _ h, List.getD_eq_getElem _ _ h, chainProduct]

theorem chainProduct_le (hpos : ∀ x ∈ primes, 0 < x) (hij : i ≤ j) : chainProduct primes i ≤ chainProduct primes j := by
  have hsub : (primes.take (i + 1)).Sublist (primes.take (j + 1)) := List.take_sublist_take_left (by omega)
  exact Nat.le_of_dvd (List.prod_pos fun x hx => hpos x (List.mem_of_mem_take hx)) hsub.prod_dvd_prod

end

@[simp] theorem chainPlaces_getElem (len : Nat) (f : Nat → Nat) (i : Fin 16) :
    (chainPlaces len f)[i] = if i.val < len then (f i : Int) else 0 := by
  simp [chainPlaces]

theorem checkChain_ok {t n : Nat} {primes : List Nat} {u : Unit} (h : checkChain t primes n = .ok u) :
    ∀ i < n, t < chainProduct primes i ∧ Nat.gcd t (chainProduct primes i) = 1 := by
  induction n with
  | zero => intro i hi; omega
  | succ n ih =>
    obtain ⟨_, hrest, hlast⟩ := Except.bind_eq_ok.1 h
    obtain ⟨_, hlt, hgcd⟩ := Except.bind_eq_ok.1 hlast
    rw [require_ok, decide_eq_true_eq] at hlt
    rw [require_ok, beq_iff_eq] at hgcd
    intro i hi
    rcases Nat.lt_succ_iff_lt_or_eq.1 hi with hi | rfl
    · exact ih hrest i hi
    · exact ⟨hlt, hgcd⟩

/-! PBUILD. -/

/-- Everything a successful derivation has checked, and the set it answers (R170). -/
theorem deriveParams_ok {p : Config.Params} {cfg : CfgRegs} {set : ParamSet} (h : deriveParams p cfg = .ok set) :
    cfg.logn.toNat ≤ p.lognMax ∧ 1 ≤ cfg.chain.toNat ∧ cfg.chain.toNat ≤ p.lMax + 1 ∧
      ∃ found primes : List Nat,
        primeSearch p cfg.pbits.toNat (2 * 2 ^ cfg.logn.toNat) 1 = some found ∧
          primeSearch p cfg.cbits.toNat (2 * 2 ^ cfg.logn.toNat) cfg.chain.toNat = some primes ∧
          chainProduct primes (cfg.chain.toNat - 1) ≤ limit p ∧
          (∀ i < cfg.chain.toNat,
            found.getD 0 0 < chainProduct primes i ∧ Nat.gcd (found.getD 0 0) (chainProduct primes i) = 1) ∧
          set = { t := (found.getD 0 0 : Nat)
                  q := chainPlaces cfg.chain.toNat fun i => primes.getD i 0
                  bigQ := chainPlaces cfg.chain.toNat (chainProduct primes)
                  pLogn := cfg.logn
                  pChain := cfg.chain
                  pSigma := cfg.sigma } := by
  obtain ⟨_, hlogn, h⟩ := Except.bind_eq_ok.1 h
  obtain ⟨_, hchain, h⟩ := Except.bind_eq_ok.1 h
  simp only [require_ok, Bool.and_eq_true, decide_eq_true_eq] at hlogn hchain
  dsimp only at h
  split at h
  · cases h
  · rename_i found hfound
    split at h
    · cases h
    · rename_i primes hprimes
      obtain ⟨_, hlimit, h⟩ := Except.bind_eq_ok.1 h
      obtain ⟨_, -, h⟩ := Except.bind_eq_ok.1 h
      obtain ⟨_, hcheck, h⟩ := Except.bind_eq_ok.1 h
      rw [require_ok, decide_eq_true_eq] at hlimit
      cases h
      exact ⟨hlogn, hchain.1, hchain.2, found, primes, hfound, hprimes, hlimit, checkChain_ok hcheck, rfl⟩

/-- A prime that the search finds for `PN` is one a parameter register may hold (R25). -/
theorem nttPrime_of_found {p : Config.Params} {par : ParamSet} {x : Nat} (hle : x ≤ limit p)
    (hres : x % (2 * 2 ^ par.pLogn.toNat) = 1 % (2 * 2 ^ par.pLogn.toNat)) (hx : x.Prime) : NttPrime p par x := by
  have horder : 1 < 2 * 2 ^ par.pLogn.toNat := by
    have := Nat.one_le_two_pow (n := par.pLogn.toNat)
    omega
  refine ⟨Int.natCast_nonneg x, (isPrime_iff_natPrime x).2 hx, ?_, fits_of_le_limit hle⟩
  rw [Int.toNat_natCast, pow_succ', hres, Nat.mod_eq_of_lt horder]

/-- The set that PBUILD derives is valid (R172). -/
theorem deriveParams_valid {p : Config.Params} {cfg : CfgRegs} {set : ParamSet} (h : deriveParams p cfg = .ok set) :
    set.Valid p := by
  obtain ⟨hlogn, hone, hchain, found, primes, hfound, hprimes, hlimit, hcheck, rfl⟩ := deriveParams_ok h
  have horder : 0 < 2 * 2 ^ cfg.logn.toNat := by positivity
  obtain ⟨hflen, -, hfmem⟩ := primeSearch_spec horder hfound
  obtain ⟨hlen, hsorted, hmem⟩ := primeSearch_spec horder hprimes
  have hpos : ∀ x ∈ primes, 0 < x := fun x hx => (hmem x hx).2.2.pos
  have hget {i : Nat} (hi : i < cfg.chain.toNat) : primes.getD i 0 ∈ primes := by
    rw [List.getD_eq_getElem _ _ (hlen ▸ hi)]
    exact List.getElem_mem _
  have ht : found.getD 0 0 ∈ found := by
    rw [List.getD_eq_getElem _ _ (by omega)]
    exact List.getElem_mem _
  have below {f : Nat → Nat} {i : Fin 16} (hi : i.val < cfg.chain.toNat) : (chainPlaces cfg.chain.toNat f)[i] = (f i : Int) := by
    rw [chainPlaces_getElem, if_pos hi]
  refine ⟨hlogn, hone, hchain, ?plaintext, fun i (hi : i.val < cfg.chain.toNat) => ?place,
    fun i j hij (hj : j.val < cfg.chain.toNat) => ?next, fun i hi => ?above⟩
  case plaintext =>
    obtain ⟨hle, hres, hprime⟩ := hfmem _ ht
    exact nttPrime_of_found hle hres hprime
  case place =>
    obtain ⟨hle, hres, hprime⟩ := hmem _ (hget hi)
    obtain ⟨hlt, hgcd⟩ := hcheck i hi
    rw [below hi, below hi]
    refine ⟨nttPrime_of_found hle hres hprime, ?_, Int.ofNat_lt.2 hlt, hgcd, fun hi0 => ?_⟩
    · exact fits_of_le_limit ((chainProduct_le hpos (Nat.le_sub_one_of_lt hi)).trans hlimit)
    · rw [hi0, chainProduct_zero (by omega)]
  case next =>
    have hi : i.val < cfg.chain.toNat := by omega
    rw [below hi, below hi, below hj, below hj]
    constructor
    · rw [List.getD_eq_getElem _ _ (hlen ▸ hi), List.getD_eq_getElem _ _ (hlen ▸ hj)]
      exact Int.ofNat_lt.2 (List.pairwise_iff_getElem.1 hsorted i j (hlen ▸ hi) (hlen ▸ hj) (by omega))
    · rw [hij, chainProduct_succ (by omega), Int.natCast_mul]
  case above =>
    have hi : ¬ i.val < cfg.chain.toNat := Nat.not_lt.2 hi
    rw [chainPlaces_getElem, chainPlaces_getElem, if_neg hi, if_neg hi]
    exact ⟨rfl, rfl⟩

end Sys2Proof.Machine
end

section
/-! SUPPORT. The data a command stores: results fit CW bits (00_scope.md R7), and a write of values that fit keeps the
register files as `DataInv` asks them. -/

namespace Sys2Proof.Machine

/-! Results that fit. -/

section
variable {p : Config.Params} {m : Int} {q : Nat}

/-- What lies between 0 and a modulus that fits, fits. -/
theorem fits_of_residue {v : Int} (hm : Fits p m) (h0 : 0 ≤ v) (hv : v < m) : Fits p v := by
  obtain ⟨-, hu⟩ := hm
  have : (0 : Int) < 2 ^ (p.cw - 1) := by positivity
  exact ⟨by omega, by omega⟩

theorem emod_fits (x : Int) (h2 : 2 ≤ m) (hm : Fits p m) : Fits p (x % m) :=
  fits_of_residue hm (Int.emod_nonneg x (by omega)) (Int.emod_lt_of_pos x (by omega))

theorem red_fits (x : Int) (h2 : 2 ≤ m) (hm : Fits p m) : Fits p (red x m) := emod_fits x h2 hm

/-- The half-range residue lies above `-m / 2`, so `-m` bounds it from below. -/
theorem ctr_fits (x : Int) (h2 : 2 ≤ m) (hm : Fits p m) : Fits p (ctr x m) := by
  have hres := emod_fits x h2 hm
  have hlt := Int.emod_lt_of_pos x (show 0 < m by omega)
  unfold ctr
  split
  · obtain ⟨-, hu⟩ := hm
    exact ⟨by omega, by omega⟩
  · exact hres

theorem inverse_fits (n : Nat) (h2 : 2 ≤ q) (hq : Fits p q) : Fits p (inverse n q) := by
  have hnonneg := Int.emod_nonneg (euclidCofactor (q + 1) q (n % q) 0 1) (show (q : Int) ≠ 0 by omega)
  rw [inverse, Int.toNat_of_nonneg hnonneg]
  exact emod_fits _ (by omega) hq

/-- The search for a root answers 0 or one of its candidates. -/
theorem rootFrom_lt (m k : Nat) {fuel c n : Nat} (hn : 0 < n) (h : c + fuel ≤ n) : rootFrom m k fuel c < n := by
  induction fuel generalizing c with
  | zero => simpa [rootFrom] using hn
  | succ fuel ih =>
    rw [rootFrom]
    split
    · omega
    · exact ih (by omega)

theorem canonicalRoot_fits (k : Nat) (h2 : 2 ≤ q) (hq : Fits p q) : Fits p (canonicalRoot q k) :=
  fits_of_residue hq (Int.natCast_nonneg _) (Int.ofNat_lt.2 (rootFrom_lt q k (by omega) (by omega)))

theorem ntt_fits (a : Nat → Int) (k i : Nat) (h2 : 2 ≤ q) (hq : Fits p q) : Fits p (ntt a q k i) :=
  emod_fits _ (by omega) hq

theorem intt_fits (a : Nat → Int) (k i : Nat) (h2 : 2 ≤ q) (hq : Fits p q) : Fits p (intt a q k i) :=
  emod_fits _ (by omega) hq

theorem zero_fits (p : Config.Params) : Fits p 0 := fits_of_le_limit (n := 0) (Nat.zero_le _)

end

/-! Writes. -/

/-- What `DataInv` asks of the contents of one buffer. -/
def Buf.Sound (p : Config.Params) (b : Buf) : Prop :=
  Buf.Canonical b ∧ ∀ e ∈ b, e.1 < 2 ^ p.lognMax ∧ Fits p e.2

variable {s t : State}

/-- `DataInv` register by register and buffer by buffer. -/
theorem dataInv_iff : DataInv s ↔ (∀ i : SReg, Fits s.params s.scalars[i]) ∧
    ∀ b : PBuf, Buf.Sound s.params s.bufs[b] ∧ (s.params.nbuf ≤ b.val → s.bufs[b] = []) := by
  simp only [DataInv, Buf.Sound, and_assoc]

section
variable {p : Config.Params} {b src : Buf} {lo count : Nat} {f : Nat → Int}

theorem Buf.sound_nil (p : Config.Params) : Buf.Sound p [] := ⟨⟨.nil, by simp⟩, by simp⟩

theorem Buf.sound_entries (hcount : lo + count ≤ 2 ^ p.lognMax) (hf : ∀ j < lo + count, Fits p (f j)) :
    Buf.Sound p (Buf.entries f lo count) := by
  refine ⟨Buf.canonical_entries f lo count, fun e he => ?_⟩
  obtain ⟨-, hlt, hval, -⟩ := Buf.mem_entries he
  exact ⟨by omega, hval ▸ hf _ hlt⟩

theorem Buf.sound_splice (hb : Buf.Sound p b) (hcount : lo + count ≤ 2 ^ p.lognMax)
    (hf : ∀ j < lo + count, Fits p (f j)) : Buf.Sound p (b.splice lo count f) := by
  refine ⟨Buf.canonical_splice hb.1 lo count f, fun e he => ?_⟩
  simp only [Buf.splice, List.mem_append, List.mem_filter] at he
  rcases he with (⟨he, -⟩ | he) | ⟨he, -⟩
  · exact hb.2 e he
  · exact (Buf.sound_entries hcount hf).2 e he
  · exact hb.2 e he

theorem Buf.sound_overlay (hb : Buf.Sound p b) (hsrc : Buf.Sound p src) (count : Nat) :
    Buf.Sound p (b.overlay src count) := by
  refine ⟨Buf.canonical_overlay hb.1 hsrc.1 count, fun e he => ?_⟩
  simp only [Buf.overlay, List.mem_append, List.mem_filter] at he
  rcases he with ⟨he, -⟩ | ⟨he, -⟩
  · exact hsrc.2 e he
  · exact hb.2 e he

end

/-- `DataInv` reads the register files and the parameters only. -/
theorem DataInv.congr (h : DataInv s) (hp : t.params = s.params) (hscalars : t.scalars = s.scalars)
    (hbufs : t.bufs = s.bufs) : DataInv t := by
  rwa [DataInv, hp, hscalars, hbufs]

theorem DataInv.writeScalar (h : DataInv s) (rd : SReg) {v : Int} (hv : Fits s.params v) :
    DataInv (s.writeScalar rd v) := by
  refine ⟨fun i => ?_, h.2⟩
  rw [State.writeScalar_scalars, State.writeScalar_params, set_getElem_fin]
  split
  · exact hv
  · exact h.1 i

/-- Replacing the contents of an existing buffer by sound ones. -/
theorem DataInv.setBuf (h : DataInv s) {rd : PBuf} (hrd : HasBuffer s rd) {c : Buf} (hc : Buf.Sound s.params c) :
    DataInv { s with bufs := s.bufs.set rd c } := by
  obtain ⟨hscalars, hbufs⟩ := dataInv_iff.1 h
  refine dataInv_iff.2 ⟨hscalars, fun b => ?_⟩
  dsimp only
  rw [set_getElem_fin]
  split
  · rename_i hb
    exact ⟨hc, fun hge => absurd hrd (by omega)⟩
  · exact hbufs b

theorem DataInv.sound (h : DataInv s) (b : PBuf) : Buf.Sound s.params s.bufs[b] := ((dataInv_iff.1 h).2 b).1

theorem DataInv.writeLanes (h : DataInv s) {rd : PBuf} (hrd : HasBuffer s rd) {n : Nat} {f : Nat → Int}
    (hn : n ≤ nMax s.params) (hf : ∀ j < n, Fits s.params (f j)) : DataInv (s.writeLanes rd n f) := by
  rw [← Nat.zero_add n] at hn hf
  exact h.setBuf hrd (Buf.sound_splice (h.sound rd) hn hf)

theorem DataInv.copyLanes (h : DataInv s) {rd : PBuf} (hrd : HasBuffer s rd) (n : Nat) {src : Buf}
    (hsrc : Buf.Sound s.params src) : DataInv (s.copyLanes rd n src) :=
  h.setBuf hrd (Buf.sound_overlay (h.sound rd) hsrc n)

/-! What the checks of a command tell about its operands. -/

section
variable {α : Type} {Q : α → Prop}

theorem Answers.require {ok : Bool} {e : CmdError} {x : Except CmdError α} (h : ok = true → Answers Q x) :
    Answers Q (Machine.require ok e >>= fun _ => x) :=
  .bind fun _ hok => h (require_ok.1 hok)

theorem ParamInv.valid (hp : ParamInv s) (hv : s.csr.pvalid = true) : s.par.Valid s.params := by
  rwa [ParamInv, if_pos hv] at hp

/-- After the PN check, PN is at most N_MAX (R25). -/
theorem Answers.pn (hp : ParamInv s) {x : Except CmdError α} (h : s.pn ≤ nMax s.params → Answers Q x) :
    Answers Q (s.needPn >>= fun _ => x) :=
  .require fun hv => h (Nat.pow_le_pow_right (by omega) (hp.valid hv).1)

/-- A selector names a value that fits. -/
theorem selects_fits (hd : DataInv s) (hp : ParamInv s) {ms : ModSel} {m : Int} (h : Selects s ms m) :
    Fits s.params m := by
  cases ms with
  | t =>
    obtain ⟨hv, rfl⟩ := h
    obtain ⟨-, -, -, ht, -⟩ := hp.valid hv
    exact ht.2.2.2
  | q i =>
    obtain ⟨hv, hi, rfl⟩ := h
    obtain ⟨-, -, -, -, hchain, -⟩ := hp.valid hv
    exact (hchain i hi).1.2.2.2
  | bigQ i =>
    obtain ⟨hv, hi, rfl⟩ := h
    obtain ⟨-, -, -, -, hchain, -⟩ := hp.valid hv
    exact (hchain i hi).2.1
  | s i =>
    obtain rfl := h
    exact hd.1 i
  | reserved v => exact h.elim

theorem Answers.selected (hd : DataInv s) (hp : ParamInv s) {ms : ModSel} {f : Int → Except CmdError α}
    (h : ∀ m, Fits s.params m → Answers Q (f m)) : Answers Q (s.selected ms >>= f) :=
  .bind fun m hm => h m (selects_fits hd hp (State.selected_ok_iff.1 hm))

theorem Answers.modulus (hd : DataInv s) (hp : ParamInv s) {ms : ModSel} {f : Int → Except CmdError α}
    (h : ∀ m, 2 ≤ m → Fits s.params m → Answers Q (f m)) : Answers Q (s.modulus ms >>= f) :=
  .bind fun m hm => by
    obtain ⟨hsel, h2⟩ := State.modulus_ok_iff.1 hm
    exact h m h2 (selects_fits hd hp hsel)

theorem Answers.primeModulus (hd : DataInv s) (hp : ParamInv s) {ms : ModSel} {order : Nat} {f : Nat → Except CmdError α}
    (h : ∀ q : Nat, 2 ≤ q → Fits s.params q → Answers Q (f q)) : Answers Q (s.primeModulus ms order >>= f) :=
  .bind fun q hq => by
    obtain ⟨m, hm, hq⟩ := Except.bind_eq_ok.1 hq
    obtain ⟨_, -, hq⟩ := Except.bind_eq_ok.1 hq
    obtain ⟨_, -, hq⟩ := Except.bind_eq_ok.1 hq
    obtain ⟨hsel, h2⟩ := State.modulus_ok_iff.1 hm
    cases hq
    refine h m.toNat (by omega) ?_
    rw [Int.toNat_of_nonneg (by omega)]
    exact selects_fits hd hp hsel

/-- The primes that FINDPRIME and FINDPRIMES store fit; `getD` answers 0 past their end. -/
theorem Answers.findPrimes {nb m : SReg} {qty : Nat} {f : List Nat → Except CmdError α}
    (h : ∀ r : List Nat, (∀ j, Fits s.params (r.getD j 0 : Nat)) → Answers Q (f r)) :
    Answers Q (s.findPrimes nb m qty >>= f) :=
  .bind fun r hr => by
    obtain ⟨_, -, hr⟩ := Except.bind_eq_ok.1 hr
    obtain ⟨_, hm, hr⟩ := Except.bind_eq_ok.1 hr
    rw [require_ok, decide_eq_true_eq] at hm
    split at hr
    · rename_i primes hprimes
      cases hr
      obtain ⟨-, -, hmem⟩ := primeSearch_spec (by omega) hprimes
      refine h r fun j => ?_
      by_cases hj : j < r.length
      · rw [List.getD_eq_getElem _ _ hj]
        exact fits_of_le_limit (hmem _ (List.getElem_mem hj)).1
      · rw [List.getD_eq_default _ _ (by omega)]
        exact zero_fits _
    · cases hr

end

/-! The commands. -/

section
variable (hd : DataInv s) (hp : ParamInv s)
include hd hp

theorem mapLanes_keeps_data {rd a : PBuf} {ms : ModSel} {f : Int → Int → Int}
    (hf : ∀ x m, 2 ≤ m → Fits s.params m → Fits s.params (f x m)) : Answers DataInv (s.mapLanes rd a ms f) :=
  .buffer fun hrd => .buffer fun _ => .pn hp fun hn => .modulus hd hp fun m h2 hm =>
    .ok (hd.writeLanes hrd hn fun _ _ => hf _ m h2 hm)

theorem zipLanes_keeps_data {rd a b : PBuf} {ms : ModSel} {f : Int → Int → Int} :
    Answers DataInv (s.zipLanes rd a b ms f) :=
  .buffer fun hrd => .buffer fun _ => .buffer fun _ => .pn hp fun hn => .modulus hd hp fun _ h2 hm =>
    .ok (hd.writeLanes hrd hn fun _ _ => red_fits _ h2 hm)

/-- Every command retires a computation whose successes leave register files that meet `DataInv`. -/
theorem exec_retires_data (i : Instr) : ∃ r, exec i s = s.retire r ∧ Answers DataInv r := by
  cases i with
  | nop => exact ⟨_, rfl, .ok hd⟩
  | pbuild => exact ⟨_, rfl, .bind fun _ _ => .ok hd⟩
  | findprime rd nb m => exact ⟨_, rfl, .findPrimes fun _ hr => .ok (hd.writeScalar rd (hr 0))⟩
  | findprimes rd nb m qty =>
    refine ⟨_, rfl, .buffer fun hrd => .require fun hqty => .findPrimes fun _ hr =>
      .ok (hd.writeLanes hrd ?_ fun j _ => hr j)⟩
    simp only [Bool.and_eq_true, decide_eq_true_eq] at hqty
    omega
  | modinv rd n ms =>
    refine ⟨_, rfl, .modulus hd hp fun m h2 hm => .require fun _ => .ok (hd.writeScalar rd ?_)⟩
    exact inverse_fits _ (by omega) (by rwa [Int.toNat_of_nonneg (by omega)])
  | modred rd x ms => exact ⟨_, rfl, .modulus hd hp fun _ h2 hm => .ok (hd.writeScalar rd (red_fits _ h2 hm))⟩
  | modctr rd x ms => exact ⟨_, rfl, .modulus hd hp fun _ h2 hm => .ok (hd.writeScalar rd (ctr_fits _ h2 hm))⟩
  | rndmul rd x num den ms =>
    exact ⟨_, rfl, .bind fun _ _ => .require fun _ => .storeScalar fun hv => hd.writeScalar rd hv⟩
  | root rd ms k =>
    exact ⟨_, rfl, .require fun _ => .primeModulus hd hp fun _ h2 hq =>
      .ok (hd.writeScalar rd (canonicalRoot_fits _ h2 hq))⟩
  | modget rd ms => exact ⟨_, rfl, .selected hd hp fun _ hm => .ok (hd.writeScalar rd hm)⟩
  | pzero rd => exact ⟨_, rfl, .buffer fun hrd => .ok (hd.copyLanes hrd _ (Buf.sound_nil _))⟩
  | pcopy rd a => exact ⟨_, rfl, .buffer fun hrd => .buffer fun _ => .ok (hd.copyLanes hrd _ (hd.sound a))⟩
  | pred rd a ms => exact ⟨_, rfl, mapLanes_keeps_data hd hp fun x _ => red_fits x⟩
  | pctr rd a ms => exact ⟨_, rfl, mapLanes_keeps_data hd hp fun x _ => ctr_fits x⟩
  | paddm rd a b ms => exact ⟨_, rfl, zipLanes_keeps_data hd hp⟩
  | psubm rd a b ms => exact ⟨_, rfl, zipLanes_keeps_data hd hp⟩
  | pnegm rd a ms => exact ⟨_, rfl, mapLanes_keeps_data hd hp fun x _ => red_fits (-x)⟩
  | pscalm rd a c ms => exact ⟨_, rfl, mapLanes_keeps_data hd hp fun _ _ => red_fits _⟩
  | pmulew rd a b ms => exact ⟨_, rfl, zipLanes_keeps_data hd hp⟩
  | prndmul rd a num den ms =>
    exact ⟨_, rfl, .buffer fun hrd => .buffer fun _ => .pn hp fun hn => .bind fun _ _ => .require fun _ =>
      .storeLanes fun hf => hd.writeLanes hrd hn hf⟩
  | pmul rd a b =>
    exact ⟨_, rfl, .buffer fun hrd => .buffer fun _ => .buffer fun _ => .pn hp fun hn =>
      .storeLanes fun hf => hd.writeLanes hrd hn hf⟩
  | pmulm rd a b ms =>
    exact ⟨_, rfl, .buffer fun hrd => .buffer fun _ => .buffer fun _ => .pn hp fun hn => .modulus hd hp fun _ h2 hm =>
      .ok (hd.writeLanes hrd hn fun _ _ => red_fits _ h2 hm)⟩
  | nttf rd a ms =>
    exact ⟨_, rfl, .buffer fun hrd => .buffer fun _ => .pn hp fun hn => .primeModulus hd hp fun _ h2 hq =>
      .ok (hd.writeLanes hrd hn fun j _ => ntt_fits _ _ j h2 hq)⟩
  | ntti rd a ms =>
    exact ⟨_, rfl, .buffer fun hrd => .buffer fun _ => .pn hp fun hn => .primeModulus hd hp fun _ h2 hq =>
      .ok (hd.writeLanes hrd hn fun j _ => intt_fits _ _ j h2 hq)⟩

theorem exec_keeps_data {i : Instr} (h : exec i s = .next t) : DataInv t := by
  obtain ⟨r, hr, hdata⟩ := exec_retires_data hd hp i
  rw [hr] at h
  rcases State.retire_cases h with ⟨u, rfl, rfl⟩ | ⟨e, rfl, rfl⟩
  · exact (hdata u rfl).congr rfl rfl rfl
  · exact hd.congr rfl rfl rfl

end

end Sys2Proof.Machine
end

section
/-! O7. The invariant of the machine (10_state.md, 70_reset_and_hazards.md): every turn answers a next state and keeps it. -/

namespace Sys2Proof.Machine

variable {s t : State}

/-- Without a pending command `PendingInv` asks nothing. -/
theorem PendingInv.of_none (h : s.pending = none) : PendingInv s := fun w hw => by
  rw [h] at hw
  cases hw

/-! The engine. -/

theorem State.retire_next (s : State) (r : Except CmdError State) : ∃ t, s.retire r = .next t := by
  cases r with
  | ok u => exact ⟨_, rfl⟩
  | error e => exact ⟨_, rfl⟩

theorem perform_next (w : Word) (s : State) : ∃ t, perform w s = .next t := by
  unfold perform
  split
  · rename_i i _
    obtain ⟨r, hr, -⟩ := exec_retires i s
    rw [hr]
    exact s.retire_next r
  · exact ⟨_, rfl⟩

theorem State.engineTurn_next (s : State) : ∃ t, s.engineTurn = .next t := by
  rcases s.engineTurn_cases with h | ⟨w, -, -, h⟩
  · exact ⟨s, h⟩
  · rw [h]
    exact perform_next w s

/-- The entry of a listed error keeps the invariant. -/
theorem Inv.enterError (h : Inv s) {e : CmdError} (he : e.Listed s.params.lMax) : Inv (s.enterError e) := by
  obtain ⟨hlegal, hdata, hparam, -, -⟩ := h
  obtain ⟨hmem, hidx, hle⟩ := he
  have hlMax : s.params.lMax ≤ 15 := by
    obtain ⟨-, -, -, -, -, -, hlMax⟩ := hlegal
    exact hlMax
  refine ⟨hlegal, hdata.congr rfl rfl rfl, hparam, .of_none rfl, .inr ⟨_, hmem, e.idx.toNat, ?_, by omega, rfl⟩⟩
  exact hidx.imp_left fun h0 => by rw [h0]; rfl

/-- A command that succeeds changes the parameter registers only when PBUILD installs a valid set, and never ECAUSE. -/
theorem Commits.keeps {i : Instr} {u : State} (hc : Commits i s u) (hparam : ParamInv s) :
    u.params = s.params ∧ u.csr.ecause = s.csr.ecause ∧ ParamInv u := by
  cases hc with
  | params _ set hset => exact ⟨rfl, rfl, deriveParams_valid hset⟩
  | nothing | scalar | lanes | copy => exact ⟨rfl, rfl, hparam⟩

theorem Inv.exec (h : Inv s) {i : Instr} (ht : exec i s = .next t) : Inv t := by
  rcases exec_cases ht with ⟨u, hu, rfl⟩ | ⟨e, he, rfl⟩
  · obtain ⟨hlegal, hdata, hparam, -, hcause⟩ := h
    obtain ⟨hparams, hecause, hparam'⟩ := hu.keeps hparam
    have hdata' : DataInv u.complete := exec_keeps_data hdata hparam ht
    refine ⟨?_, hdata', hparam', .of_none rfl, ?_⟩
    · rwa [State.complete_params, hparams]
    · rwa [CauseInv, State.complete_csr, Csr.completed_ecause, hecause]
  · exact h.enterError he

theorem Inv.perform (h : Inv s) {w : Word} (ht : perform w s = .next t) : Inv t := by
  unfold Machine.perform at ht
  split at ht
  · exact h.exec ht
  · rename_i e _
    cases ht
    refine h.enterError ?_
    cases e with
    | unassignedOpcode => exact raised_listed (by decide)
    | reservedField => exact raised_listed (by decide)

theorem Inv.engineTurn (h : Inv s) (ht : s.engineTurn = .next t) : Inv t := by
  rcases s.engineTurn_cases with he | ⟨w, -, -, he⟩
  · rw [he] at ht
    cases ht
    exact h
  · exact h.perform (he ▸ ht)

/-! The host and the platform. -/

/-- The values a reset draws fit, and it leaves no parameter set, no command and no error (R37, R303). -/
theorem Inv.resetValues (h : Inv s) : Inv s.resetValues := by
  obtain ⟨hlegal, -⟩ := h
  have hcw : 1 ≤ s.params.cw := by
    obtain ⟨-, h64, -⟩ := hlegal
    omega
  have hscalars : ∀ i : SReg, Fits s.params s.resetValues.scalars[i] := fun i => by
    simpa [State.resetValues] using wrap_fits hcw _
  have hbufs : ∀ b : PBuf, Buf.Sound s.params s.resetValues.bufs[b] ∧
      (s.params.nbuf ≤ b.val → s.resetValues.bufs[b] = []) := by
    intro b
    simp only [State.resetValues, Fin.getElem_fin, sixteen_getElem]
    split
    · rename_i hb
      refine ⟨Buf.sound_entries ?_ fun _ _ => wrap_fits hcw _, fun hge => absurd hb (by omega)⟩
      rw [Nat.zero_add, nMax]
    · exact ⟨Buf.sound_nil _, fun _ => rfl⟩
  exact ⟨hlegal, dataInv_iff.2 ⟨hscalars, hbufs⟩, rfl, .of_none rfl, .inl rfl⟩

/-- Changes of what the invariant does not read, and of AERR and HAZ. -/
theorem Inv.hostRead (h : Inv s) (width : Width) (o : Offset) : Inv (s.hostRead width o) := by
  obtain ⟨d, n, c, hc, heq⟩ := s.hostRead_cases width o
  rw [heq]
  obtain ⟨hlegal, hdata, hparam, hpending, hcause⟩ := h
  rcases hc with rfl | rfl | rfl <;> exact ⟨hlegal, hdata.congr rfl rfl rfl, hparam, hpending, hcause⟩

theorem Inv.hostWrite (h : Inv s) (width : Width) (o : Offset) (w : Word) : Inv (s.hostWrite width o w) := by
  have hw := s.hostWrite_cases width o w
  generalize s.hostWrite width o w = t at hw
  have hreset : Inv s.softReset := h.resetValues
  have hall := h
  obtain ⟨hlegal, hdata, hparam, hpending, hcause⟩ := h
  have hfit {k : Nat} (hk : k < wps s.params) (v : Int) : Fits s.params (valueWithWord s.params v k w) :=
    valueWithWord_fits hlegal v w hk
  cases hw with
  | ignored => exact hall
  | busError | hazard | busErrorHazard | ctrl | ccount | cfg =>
    exact ⟨hlegal, hdata.congr rfl rfl rfl, hparam, hpending, hcause⟩
  | softReset => exact hreset
  | status =>
    refine ⟨hlegal, hdata.congr rfl rfl rfl, hparam, fun x hx => ?_, hcause⟩
    obtain ⟨hcmd, hdone, herr, hpin⟩ := hpending x hx
    exact ⟨hcmd, by simp [hdone], by simp [herr], hpin⟩
  | accept hb he hr =>
    refine ⟨hlegal, hdata.congr rfl rfl rfl, hparam, fun x hx => ?_, hcause⟩
    exact ⟨Option.some.inj hx, rfl, he, hr⟩
  | scalar hb i k hk => exact ⟨hlegal, hdata.writeScalar i (hfit hk _), hparam, hpending, hcause⟩
  | coeff hb b j k hk hn hj =>
    exact ⟨hlegal, hdata.setBuf hn (Buf.sound_splice (hdata.sound b) hj fun _ _ => hfit hk _), hparam, hpending, hcause⟩

theorem Inv.driveReset (h : Inv s) (asserted : Bool) : Inv (s.driveReset asserted) := by
  unfold State.driveReset
  split
  · obtain ⟨hlegal, hdata, hparam, -, hcause⟩ := h
    exact ⟨hlegal, hdata.congr rfl rfl rfl, hparam, .of_none rfl, hcause⟩
  · split
    · obtain ⟨hlegal, hdata, hparam, -, hcause⟩ := h.resetValues
      exact ⟨hlegal, hdata.congr rfl rfl rfl, hparam, .of_none rfl, hcause⟩
    · exact h

/-! The step. -/

theorem step_next (s : State) : ∃ t, step s = .next t := by
  obtain ⟨u, -, hu | ⟨_, _, hu⟩ | ⟨_, _, _, hu⟩ | ⟨_, hu⟩⟩ := step_cases s
  · rw [hu]
    exact u.engineTurn_next
  · exact ⟨_, hu⟩
  · exact ⟨_, hu⟩
  · exact ⟨_, hu⟩

theorem Inv.step (h : Inv s) (ht : step s = .next t) : Inv t := by
  obtain ⟨u, hus, hturn⟩ := step_cases s
  have hu : Inv u := by
    rcases hus with rfl | ⟨l, rfl⟩
    · exact h
    · obtain ⟨hlegal, hdata, hparam, hpending, hcause⟩ := h
      exact ⟨hlegal, hdata.congr rfl rfl rfl, hparam, hpending, hcause⟩
  rcases hturn with he | ⟨width, o, he⟩ | ⟨width, o, w, he⟩ | ⟨a, he⟩
  · exact hu.engineTurn (he ▸ ht)
  · cases he.symm.trans ht
    exact hu.hostRead width o
  · cases he.symm.trans ht
    exact hu.hostWrite width o w
  · cases he.symm.trans ht
    exact hu.driveReset a

/-- Settles O7, turn by turn: a step is the engine's, the host's or the platform's turn (`step_cases`), and each of them keeps
the invariant. -/
theorem stepKeepsInvariant : Obligations.StepKeepsInvariant :=
  fun s h => ⟨step_next s, fun _ ht => h.step ht⟩

end Sys2Proof.Machine
end

section
/-! O15. Wide values on the 32-bit bus (00_scope.md R9, 20_memory.md R63, R64, R66, R67): where the word of a slot lies, the bits
of a pattern after one of its words is written, and a value written word by word. -/

namespace Sys2Proof.Machine

/-! Offsets of slots. -/

theorem wps_le_sixteen {p : Config.Params} (h : p.Legal) : wps p ≤ 16 := by
  obtain ⟨-, -, hcw, -⟩ := h
  unfold wps
  omega

theorem mul_wps_eq_cw {p : Config.Params} (h : p.Legal) : 32 * wps p = p.cw := by
  obtain ⟨h32, -⟩ := h
  unfold wps
  omega

/-- Word `k` of the slot of `S[i]`. -/
theorem locate_scalar_word (p : Config.Params) (i : SReg) {k : Nat} (hk : k < 16) :
    locate p (0x1000 + 0x40 * i.val + 4 * k) = .word (.scalar i) k := by
  have hi := i.isLt
  have hslot : slotIndex (0x1000 + 0x40 * i.val + 4 * k - 0x1000) = i := Fin.ext (by simp only [slotIndex]; omega)
  have hword : (0x1000 + 0x40 * i.val + 4 * k) % 0x40 / 4 = k := by omega
  simp only [locate]
  rw [if_neg (by omega), if_neg (by omega), if_pos (by omega), hslot, hword]

/-- A coefficient's slot lies inside the window, whatever the legal parameters. -/
theorem coeff_offset_lt {p : Config.Params} (h : p.Legal) {b : PBuf} {j k : Nat} (hj : j < 2 ^ p.lognMax) (hk : k < 16) :
    j < 0x10000 ∧ 0x01000000 + b.val * 0x00400000 + j * 0x40 + 4 * k < 0x05000000 := by
  obtain ⟨-, -, -, -, -, hlogn, -⟩ := h
  have hb := b.isLt
  have hmax : 2 ^ p.lognMax ≤ 2 ^ 16 := Nat.pow_le_pow_right (by omega) hlogn
  omega

/-- Word `k` of the slot of `P[b][j]`. -/
theorem locate_coeff_word {p : Config.Params} (h : p.Legal) {b : PBuf} {j k : Nat} (hb : b.val < p.nbuf)
    (hj : j < 2 ^ p.lognMax) (hk : k < 16) :
    locate p (0x01000000 + b.val * 0x00400000 + j * 0x40 + 4 * k) = .word (.coeff b j) k := by
  obtain ⟨hj16, hoff⟩ := coeff_offset_lt (b := b) h hj hk
  have hb16 := b.isLt
  have hbuf : bufIndex (0x01000000 + b.val * 0x00400000 + j * 0x40 + 4 * k) = b := Fin.ext (by simp only [bufIndex]; omega)
  have hcoeff : coeffIndex (0x01000000 + b.val * 0x00400000 + j * 0x40 + 4 * k) = j := by simp only [coeffIndex]; omega
  have hword : (0x01000000 + b.val * 0x00400000 + j * 0x40 + 4 * k) % 0x40 / 4 = k := by omega
  simp only [locate]
  rw [if_neg (by omega), if_neg (by omega), if_neg (by omega), if_neg (by omega), if_neg (by omega), if_neg (by omega),
    if_neg (by omega), if_neg (by omega), if_neg (by omega), if_pos hoff, hbuf, hcoeff, hword, if_pos ⟨hb, hj⟩]

/-! Bits of patterns. -/

/-- Replacing the 32 bits from `32 * k` on of a number, as `valueWithWord` does, changes these bits and no other. -/
theorem testBit_replaced (pat k : Nat) (w : Word) (i : Nat) :
    (pat - pat / 2 ^ (32 * k) % 2 ^ 32 * 2 ^ (32 * k) + w.toNat * 2 ^ (32 * k)).testBit i =
      if i / 32 = k then w.getLsbD (i % 32) else pat.testBit i := by
  have hsplit : pat - pat / 2 ^ (32 * k) % 2 ^ 32 * 2 ^ (32 * k) + w.toNat * 2 ^ (32 * k) =
      2 ^ (32 * k) * (2 ^ 32 * (pat / 2 ^ (32 * k) / 2 ^ 32) + w.toNat) + pat % 2 ^ (32 * k) := by
    have hlow := Nat.div_add_mod pat (2 ^ (32 * k))
    have hhigh := Nat.div_add_mod (pat / 2 ^ (32 * k)) (2 ^ 32)
    generalize pat / 2 ^ (32 * k) / 2 ^ 32 = u at hhigh ⊢
    generalize pat / 2 ^ (32 * k) % 2 ^ 32 = x at hhigh ⊢
    have hpat : pat = 2 ^ (32 * k) * (2 ^ 32 * u) + pat % 2 ^ (32 * k) + x * 2 ^ (32 * k) := by
      calc pat = 2 ^ (32 * k) * (2 ^ 32 * u + x) + pat % 2 ^ (32 * k) := by rw [hhigh, hlow]
        _ = _ := by ring
    rw [Nat.sub_eq_of_eq_add hpat]
    ring
  rw [hsplit, Nat.testBit_two_pow_mul_add _ (Nat.mod_lt _ (by positivity)), Nat.testBit_two_pow_mul_add _ w.isLt]
  rcases Nat.lt_trichotomy (i / 32) k with hlt | heq | hgt
  · rw [if_pos (by omega), if_neg (by omega), Nat.testBit_mod_two_pow, decide_eq_true (by omega), Bool.true_and]
  · rw [if_neg (by omega), if_pos (by omega), if_pos heq, show i - 32 * k = i % 32 by omega]
    rfl
  · rw [if_neg (by omega), if_neg (by omega), if_neg (by omega), Nat.testBit_div_two_pow, Nat.testBit_div_two_pow]
    congr 1
    omega

section
variable {p : Config.Params}

/-- The pattern of a value after a bus write of its word `k`. -/
theorem testBit_pattern_valueWithWord (h : p.Legal) (x : Int) {k : Nat} (w : Word) (hk : k < wps p) (i : Nat) :
    (pattern p (valueWithWord p x k w)).testBit i =
      if i / 32 = k then w.getLsbD (i % 32) else (pattern p x).testBit i := by
  have hwps := mul_wps_eq_cw h
  rw [valueWithWord, pattern_signedOf (replaced_lt w (pattern_lt p x) (by omega)), testBit_replaced]

/-- Word `k` of the pattern of `v` is that of `v` shifted right, the division rounding down (R9). -/
theorem pattern_word (v : Int) {k : Nat} (hk : 32 * k + 32 ≤ p.cw) :
    (BitVec.ofInt 32 (v / 2 ^ (32 * k))).toNat = pattern p v / 2 ^ (32 * k) % 2 ^ 32 := by
  obtain ⟨c, hc⟩ := Nat.exists_eq_add_of_le hk
  have hpos : (0 : Int) < 2 ^ (32 * k) := by positivity
  have hcw : ((2 ^ p.cw : Nat) : Int) = 2 ^ (32 * k) * (2 ^ 32 * 2 ^ c) := by rw [hc]; push_cast; ring
  have hnonneg : 0 ≤ v % (2 ^ p.cw : Nat) := Int.emod_nonneg v (by positivity)
  have hshift : v % (2 ^ p.cw : Nat) / 2 ^ (32 * k) % 2 ^ 32 = v / 2 ^ (32 * k) % 2 ^ 32 := by
    rw [Int.emod_def v, hcw, mul_assoc, mul_assoc, Int.sub_mul_ediv_left _ _ hpos.ne', Int.sub_mul_emod_self_left]
  rw [BitVec.toNat_ofInt]
  zify
  rw [Int.toNat_of_nonneg (Int.emod_nonneg _ (by positivity)), pattern]
  push_cast at hnonneg hshift ⊢
  rw [Int.toNat_of_nonneg hnonneg, hshift]

/-- The bits of the pattern of `v`, read in the words that the host writes. -/
theorem getLsbD_word (v : Int) {i : Nat} (hi : 32 * (i / 32) + 32 ≤ p.cw) :
    (BitVec.ofInt 32 (v / 2 ^ (32 * (i / 32)))).getLsbD (i % 32) = (pattern p v).testBit i := by
  rw [BitVec.getLsbD, pattern_word v hi, Nat.testBit_mod_two_pow, Nat.testBit_div_two_pow,
    decide_eq_true (Nat.mod_lt i (by decide)), Bool.true_and, Nat.mod_add_div]

/-! A value written word by word. -/

/-- The value a slot holds after the words `order` of the pattern of `v` are written to it, one after the other. -/
def valueWithWords (p : Config.Params) (v : Int) (order : List Nat) (x : Int) : Int :=
  order.foldl (fun y k => valueWithWord p y k (BitVec.ofInt 32 (v / 2 ^ (32 * k)))) x

theorem testBit_pattern_valueWithWords (h : p.Legal) (v : Int) {order : List Nat} (horder : ∀ k ∈ order, k < wps p)
    (x : Int) {i : Nat} (hi : i < p.cw) : (pattern p (valueWithWords p v order x)).testBit i =
      if i / 32 ∈ order then (pattern p v).testBit i else (pattern p x).testBit i := by
  have hwps := mul_wps_eq_cw h
  induction order generalizing x with
  | nil => simp [valueWithWords]
  | cons k rest ih =>
    rw [valueWithWords, List.foldl_cons, ← valueWithWords, ih (fun k hk => horder k (by simp [hk])),
      testBit_pattern_valueWithWord h x _ (horder k (by simp))]
    by_cases hrest : i / 32 ∈ rest
    · simp [hrest]
    · by_cases hik : i / 32 = k
      · subst hik
        rw [if_neg hrest, if_pos rfl, if_pos (by simp), getLsbD_word (p := p) v (by omega)]
      · rw [if_neg hrest, if_neg hik, if_neg (by simp [hrest, hik])]

theorem valueWithWords_fits (h : p.Legal) (v : Int) {order : List Nat} (horder : ∀ k ∈ order, k < wps p)
    (hne : order ≠ []) (x : Int) : Fits p (valueWithWords p v order x) := by
  obtain ⟨init, k, rfl⟩ := List.eq_nil_or_concat' order |>.resolve_left hne
  rw [valueWithWords, List.foldl_append]
  exact valueWithWord_fits h _ _ (horder k (by simp))

/-- When every word of a value that fits has been written, in whatever order, the slot holds the value. -/
theorem valueWithWords_eq (h : p.Legal) {v : Int} (hv : Fits p v) {order : List Nat} (horder : ∀ k ∈ order, k < wps p)
    (hall : ∀ k < wps p, k ∈ order) (x : Int) : valueWithWords p v order x = v := by
  obtain ⟨-, h64, -⟩ := id h
  have hwps := mul_wps_eq_cw h
  have hcw : 1 ≤ p.cw := by omega
  have hne : order ≠ [] := List.ne_nil_of_mem (hall 0 (by omega))
  have hpattern : pattern p (valueWithWords p v order x) = pattern p v := by
    refine Nat.eq_of_testBit_eq fun i => ?_
    by_cases hi : i < p.cw
    · rw [testBit_pattern_valueWithWords h v horder x hi, if_pos (hall _ (by omega))]
    · have hge : 2 ^ p.cw ≤ 2 ^ i := Nat.pow_le_pow_right (by omega) (by omega)
      rw [Nat.testBit_lt_two_pow ((pattern_lt p _).trans_le hge), Nat.testBit_lt_two_pow ((pattern_lt p _).trans_le hge)]
  rw [← signedOf_pattern hcw (valueWithWords_fits h v horder hne x), hpattern, signedOf_pattern hcw hv]

end

/-! The host's writes. -/

section
variable {s : State} {k : Nat}

/-- A write to word `k < WPS` of the slot of `S[i]` while the engine is idle (R64). -/
theorem State.hostWrite_scalar_word (hp : s.params.Legal) (hb : s.pending = none) (hr : s.resetPin = false) (i : SReg)
    (hk : k < wps s.params) (w : Word) :
    s.hostWrite .bits32 (BitVec.ofNat 27 (0x1000 + 0x40 * i.val + 4 * k)) w =
      s.writeScalar i (valueWithWord s.params (s.scalar i) k w) := by
  have hk16 : k < 16 := hk.trans_le (wps_le_sixteen hp)
  have hoff : (BitVec.ofNat 27 (0x1000 + 0x40 * i.val + 4 * k)).toNat = 0x1000 + 0x40 * i.val + 4 * k := by
    rw [BitVec.toNat_ofNat, Nat.mod_eq_of_lt (by omega)]
  rw [State.hostWrite_aligned w hr (by omega), hoff, locate_scalar_word s.params i hk16]
  simp [State.writeAt, State.writeSlot, State.busy, hb, Nat.not_le.2 hk]

/-- A write to word `k < WPS` of the slot of `P[b][j]` while the engine is idle (R64). -/
theorem State.hostWrite_coeff_word (hp : s.params.Legal) (hb : s.pending = none) (hr : s.resetPin = false) {b : PBuf} {j : Nat}
    (hn : HasBuffer s b) (hj : j < 2 ^ s.params.lognMax) (hk : k < wps s.params) (w : Word) :
    s.hostWrite .bits32 (BitVec.ofNat 27 (0x01000000 + b.val * 0x00400000 + j * 0x40 + 4 * k)) w =
      { s with bufs := s.bufs.set b ((s.bufs[b]).splice j 1 fun _ => valueWithWord s.params (s.coeff b j) k w) } := by
  have hk16 : k < 16 := hk.trans_le (wps_le_sixteen hp)
  obtain ⟨-, hlt⟩ := coeff_offset_lt (b := b) hp hj hk16
  have hoff : (BitVec.ofNat 27 (0x01000000 + b.val * 0x00400000 + j * 0x40 + 4 * k)).toNat =
      0x01000000 + b.val * 0x00400000 + j * 0x40 + 4 * k := by
    rw [BitVec.toNat_ofNat, Nat.mod_eq_of_lt (by omega)]
  rw [State.hostWrite_aligned w hr (by omega), hoff, locate_coeff_word hp hn hj hk16]
  simp [State.writeAt, State.writeSlot, State.busy, hb, Nat.not_le.2 hk]

end

/-- `t` is `s` with the coefficient `P[b][j]` at `x` and nothing else changed. -/
def CoeffHolds (s t : State) (b : PBuf) (j : Nat) (x : Int) : Prop :=
  t.coeff b j = x ∧ { t with bufs := s.bufs } = s ∧
    ∀ (c : PBuf) (i : Nat), ¬ (c = b ∧ i = j) → t.coeff c i = s.coeff c i

section
variable {s t : State} {b : PBuf} {j : Nat} {x : Int}

theorem CoeffHolds.refl (s : State) (b : PBuf) (j : Nat) : CoeffHolds s s b j (s.coeff b j) := ⟨rfl, rfl, fun _ _ _ => rfl⟩

/-- A one-coefficient splice moves `CoeffHolds` to the new value. -/
theorem CoeffHolds.splice (h : CoeffHolds s t b j x) (y : Int) :
    CoeffHolds s { t with bufs := t.bufs.set b ((t.bufs[b]).splice j 1 fun _ => y) } b j y := by
  obtain ⟨-, hframe, hother⟩ := h
  refine ⟨?_, hframe, fun c i hci => ?_⟩
  · rw [State.coeff]
    dsimp only
    rw [set_getElem_fin, if_pos rfl, Buf.get_splice, if_pos (by omega)]
  · rw [← hother c i hci, State.coeff]
    dsimp only
    rw [set_getElem_fin]
    split
    · rename_i hc
      subst hc
      have hij : i ≠ j := fun hij => hci ⟨rfl, hij⟩
      rw [Buf.get_splice, if_neg (by omega)]
      rfl
    · rfl

/-- A host write of one word of `P[b][j]` after others. -/
theorem CoeffHolds.hostWrite (h : CoeffHolds s t b j x) (hp : s.params.Legal) (hb : s.pending = none) (hr : s.resetPin = false)
    (hn : HasBuffer s b) (hj : j < 2 ^ s.params.lognMax) {k : Nat} (hk : k < wps s.params) (w : Word) :
    CoeffHolds s (t.hostWrite .bits32 (BitVec.ofNat 27 (0x01000000 + b.val * 0x00400000 + j * 0x40 + 4 * k)) w) b j
      (valueWithWord s.params x k w) := by
  obtain ⟨hx, hframe, -⟩ := id h
  have hparams : t.params = s.params := (congrArg State.params hframe :)
  have hpending : t.pending = s.pending := (congrArg State.pending hframe :)
  have hpin : t.resetPin = s.resetPin := (congrArg State.resetPin hframe :)
  rw [State.hostWrite_coeff_word (hparams ▸ hp) (hpending ▸ hb) (hpin ▸ hr) (by rwa [HasBuffer, hparams]) (hparams ▸ hj)
    (hparams ▸ hk), hx, ← hparams]
  exact h.splice _

end

/-- Settles O15: word by word, both for a scalar register and for a coefficient, the slot holds `valueWithWords`; once every
word is written, that is the value. -/
theorem wideWriteStoresValue : Obligations.WideWriteStoresValue := by
  intro s v order hp hb hr hv horder writeAll
  have hmem {k : Nat} : k ∈ order ↔ k < wps s.params := by rw [horder.mem_iff, List.mem_range, wps]
  have hvalue : ∀ x, valueWithWords s.params v order x = v :=
    valueWithWords_eq hp hv (fun _ => hmem.1) (fun _ => hmem.2)
  refine ⟨fun i => ?_, fun b j hn hj => ?_⟩
  · have hslot : writeAll (0x1000 + 0x40 * i.val) = s.writeScalar i (valueWithWords s.params v order (s.scalar i)) := by
      refine List.foldl_rel (r := fun (u : State) x => u = s.writeScalar i x) ?_ fun k hk u x hu => ?_
      · simp [State.writeScalar, State.scalar]
      · subst hu
        rw [State.hostWrite_scalar_word (s := s.writeScalar i x) hp hb hr i (hmem.1 hk)]
        simp [State.writeScalar, State.scalar]
    rw [hslot, hvalue, State.writeScalar]
  · have hslot : CoeffHolds s (writeAll (0x01000000 + b.val * 0x00400000 + j * 0x40)) b j
        (valueWithWords s.params v order (s.coeff b j)) :=
      List.foldl_rel (r := fun u x => CoeffHolds s u b j x) (.refl s b j) fun k hk u x hu =>
        hu.hostWrite hp hb hr hn hj (hmem.1 hk) _
    rwa [hvalue] at hslot

end Sys2Proof.Machine
end

section
/-! The control and status registers on the host bus (10_state.md R26 to R36, 20_memory.md R66, R71, R72): which register an offset
below 0x40 names, what a read and a write of it do, and O8, O10, O19, O20, O21, O23, O24 and O25, which follow. -/

namespace Sys2Proof.Machine

/-! Registers by offset. -/

/-- The aligned offset `o` of the register block (below 0x40) names `loc` (R66). -/
abbrev RegisterAt (o : Offset) (loc : Loc) : Prop := o.toNat % 4 = 0 ∧ o.toNat < 0x40 ∧ csrAt (o.toNat / 4) = loc

/-- Each of the sixteen words of the register block is mapped. -/
theorem csrAt_ne_unmapped : ∀ i < 16, csrAt i ≠ .unmapped := by decide

theorem RegisterAt.ne_unmapped {o : Offset} {loc : Loc} (h : RegisterAt o loc) : loc ≠ .unmapped := by
  obtain ⟨-, hlt, rfl⟩ := h
  exact csrAt_ne_unmapped _ (by omega)

theorem RegisterAt.locate_eq {o : Offset} {loc : Loc} (h : RegisterAt o loc) (p : Config.Params) :
    locate p o.toNat = loc := by
  obtain ⟨-, hlt, rfl⟩ := h
  simp only [locate, if_pos hlt]

section
variable {s : State} {o : Offset} {loc : Loc}

theorem State.busy_eq_false (h : s.pending = none) : s.busy = false := by simp [State.busy, h]

/-- A read of a register answers its word and changes nothing else (R65, R72). -/
theorem State.hostRead_register (hr : s.resetPin = false) (ho : RegisterAt o loc)
    (hg : s.busy = false ∨ loc.guardedRead = false) : s.hostRead .bits32 o = { s with busData := s.wordAt loc } := by
  have hloc := ho.locate_eq s.params
  rw [State.hostRead_aligned hr ho.1 (hloc ▸ ho.ne_unmapped) (hloc ▸ hg), hloc]

theorem State.hostWrite_register (hr : s.resetPin = false) (ho : RegisterAt o loc) (w : Word) :
    s.hostWrite .bits32 o w = s.writeAt loc w := by
  rw [State.hostWrite_aligned w hr ho.1, ho.locate_eq]

theorem State.hostWrite_ctrl_reset (hr : s.resetPin = false) {w : Word} (hw : bitOf w 2 = true) :
    s.hostWrite .bits32 0x004 w = s.softReset := by
  rw [State.hostWrite_register hr (loc := .ctrl) (by decide)]
  simp [State.writeAt, State.writeCtrl, hw]

theorem State.hostWrite_ctrl (hr : s.resetPin = false) {w : Word} (hw : bitOf w 2 = false) :
    s.hostWrite .bits32 0x004 w = { s with csr := s.csr.writeCtrl s.busy w } := by
  rw [State.hostWrite_register hr (loc := .ctrl) (by decide)]
  simp [State.writeAt, State.writeCtrl, hw]

theorem Csr.writeCtrl_idle (c : Csr) (w : Word) : c.writeCtrl false w = { c with ie := bitOf w 0, tie := bitOf w 1 } := by
  simp [Csr.writeCtrl]

/-- While BUSY = 1 the tie mode stays, and a write that would change it sets HAZ (R27). -/
theorem Csr.writeCtrl_busy (c : Csr) (w : Word) :
    c.writeCtrl true w = { c with ie := bitOf w 0, haz := if bitOf w 1 = c.tie then c.haz else true } := by
  by_cases h : bitOf w 1 = c.tie <;> simp [Csr.writeCtrl, h]

/-- The engine takes a command word while it is idle and in no error (R28). -/
theorem State.hostWrite_cmd_accepted (hr : s.resetPin = false) (hb : s.pending = none) (he : s.csr.err = false) (w : Word) :
    s.hostWrite .bits32 0x00C w = s.accept w := by
  rw [State.hostWrite_register hr (loc := .cmd) (by decide)]
  simp [State.writeAt, State.writeCmd, State.busy_eq_false hb, he]

theorem State.hostWrite_cmd_dropped (hr : s.resetPin = false) (h : ¬ (s.pending = none ∧ s.csr.err = false)) (w : Word) :
    s.hostWrite .bits32 0x00C w = s.hazard := by
  have hbusy : (s.busy || s.csr.err) = true := by
    simpa [State.busy, Option.isSome_iff_ne_none, ← imp_iff_not_or] using h
  rw [State.hostWrite_register hr (loc := .cmd) (by decide)]
  simp [State.writeAt, State.writeCmd, hbusy]

/-- While BUSY = 0 a configuration register takes the word written (R33). -/
theorem State.hostWrite_cfg (hr : s.resetPin = false) (hb : s.pending = none) {name : CfgName} (ho : RegisterAt o (.cfg name))
    (w : Word) : s.hostWrite .bits32 o w = { s with cfg := s.cfg.put name w } := by
  rw [State.hostWrite_register hr ho]
  simp [State.writeAt, State.busy_eq_false hb]

/-- While BUSY = 0 CCOUNT takes the word written (R32). -/
theorem State.hostWrite_ccount (hr : s.resetPin = false) (hb : s.pending = none) (ho : RegisterAt o .ccount) (w : Word) :
    s.hostWrite .bits32 o w = { s with csr := { s.csr with ccount := w } } := by
  rw [State.hostWrite_register hr ho]
  simp [State.writeAt, State.busy_eq_false hb]

@[simp] theorem CfgRegs.get_put (c : CfgRegs) (name : CfgName) (w : Word) : (c.put name w).get name = w := by
  cases name <;> rfl

theorem State.cfg_reads_back (hr : s.resetPin = false) (hb : s.pending = none) {name : CfgName}
    (ho : RegisterAt o (.cfg name)) (w : Word) : ((s.hostWrite .bits32 o w).hostRead .bits32 o).busData = w := by
  rw [State.hostWrite_cfg hr hb ho, State.hostRead_register (s := { s with cfg := s.cfg.put name w }) hr ho (.inr rfl)]
  simp [State.wordAt]

theorem State.ccount_reads_back (hr : s.resetPin = false) (hb : s.pending = none) (ho : RegisterAt o .ccount) (w : Word) :
    ((s.hostWrite .bits32 o w).hostRead .bits32 o).busData = w := by
  rw [State.hostWrite_ccount hr hb ho,
    State.hostRead_register (s := { s with csr := { s.csr with ccount := w } }) hr ho (.inr rfl), State.wordAt]

/-! Guarded accesses while BUSY = 1. -/

/-- While BUSY = 1 a read of a slot or of a parameter register answers a free word and sets HAZ (R71 a). -/
theorem State.hostRead_guarded (hr : s.resetPin = false) (hb : s.busy = true) (ho : o.toNat % 4 = 0)
    (hl : locate s.params o.toNat ≠ .unmapped) (hg : (locate s.params o.toNat).guardedRead = true) :
    s.hostRead .bits32 o = s.hazard.answerFree := by
  simp [State.hostRead, hr, malformed, ho, hl, hb, hg]

/-- While BUSY = 1 a write to any word of a slot that the host can write sets HAZ (R71 b; log entry 15). -/
theorem State.writeSlot_busy (hb : s.busy = true) {slot : Slot} (hslot : (∃ i, slot = .scalar i) ∨ ∃ b j, slot = .coeff b j)
    (k : Nat) (w : Word) : s.writeSlot slot k w = s.hazard := by
  rcases hslot with ⟨i, rfl⟩ | ⟨b, j, rfl⟩ <;> simp [State.writeSlot, State.ignoreWrite_busy hb, hb]

end

/-! The words of the flags. -/

theorem getLsbD_flagAt {i : Nat} (hi : i < 32) (b : Bool) (n : Nat) : (flagAt i b).getLsbD n = (b && decide (i = n)) := by
  cases b with
  | false => simp [flagAt]
  | true =>
    rw [flagAt, if_pos rfl, BitVec.getLsbD_ofNat, Nat.testBit_two_pow, Bool.true_and, Bool.and_eq_right_iff_imp]
    intro h
    obtain rfl : i = n := of_decide_eq_true h
    exact decide_eq_true hi

/-- STATUS bit by bit (R26). -/
theorem State.statusWord_getLsbD (s : State) (n : Nat) : s.statusWord.getLsbD n =
    match n with
    | 0 => s.pending.isSome
    | 1 => s.csr.done
    | 2 => s.csr.err
    | 3 => s.csr.pvalid
    | 4 => s.csr.aerr
    | 5 => s.csr.haz
    | _ => false := by
  simp only [State.statusWord, State.busy, BitVec.getLsbD_or]
  rw [getLsbD_flagAt (by decide), getLsbD_flagAt (by decide), getLsbD_flagAt (by decide), getLsbD_flagAt (by decide),
    getLsbD_flagAt (by decide), getLsbD_flagAt (by decide)]
  match n with
  | 0 | 1 | 2 | 3 | 4 | 5 => simp
  | n + 6 => simp

/-- CTRL bit by bit (R27). -/
theorem State.ctrlWord_getLsbD (s : State) (n : Nat) : s.ctrlWord.getLsbD n =
    match n with
    | 0 => s.csr.ie
    | 1 => s.csr.tie
    | _ => false := by
  rw [State.ctrlWord, BitVec.getLsbD_or, getLsbD_flagAt (by decide), getLsbD_flagAt (by decide)]
  match n with
  | 0 | 1 => simp
  | n + 2 => simp

/-! The statements. -/

/-- Settles O8, part by part: the zeros of the reset state fit, its buffers are empty, and no parameter set, command or error is
there. -/
theorem resetMeetsInvariant : Obligations.ResetMeetsInvariant := by
  have hscalars : ∀ i : SReg, Fits State.reset.params State.reset.scalars[i] := fun i => by
    simpa [State.reset] using zero_fits Config.Params.standard
  have hbufs : ∀ b : PBuf, State.reset.bufs[b] = [] := fun b => by simp [State.reset]
  refine ⟨by decide, dataInv_iff.2 ⟨hscalars, fun b => ?_⟩, rfl, .of_none rfl, .inl rfl⟩
  rw [hbufs b]
  exact ⟨Buf.sound_nil _, fun _ => rfl⟩

/-- Settles O21: the read answers the STATUS word, whose bits are the flags. -/
theorem statusBitsReadFlags : Obligations.StatusBitsReadFlags := by
  intro s i hr
  rw [State.hostRead_register hr (loc := .status) (by decide) (.inr rfl)]
  exact s.statusWord_getLsbD i

/-- Settles O20: acceptance and drop are the two cases of a write to CMD, and CMD holds the last accepted word. -/
theorem cmdWriteAcceptsOrDrops : Obligations.CmdWriteAcceptsOrDrops := by
  intro s w hr
  refine ⟨fun ⟨hb, he⟩ => State.hostWrite_cmd_accepted hr hb he w, fun h => State.hostWrite_cmd_dropped hr h w, ?_⟩
  rw [State.hostRead_register hr (loc := .cmd) (by decide) (.inr rfl), State.wordAt]

/-- Settles O19: a guarded write ends in `hazard` and a guarded read in `hazard` with a free word on the bus. -/
theorem busyAccessSetsHazOnly : Obligations.BusyAccessSetsHazOnly := by
  intro s o w hr hb ho loc
  refine ⟨fun hloc => ?_, fun hloc => ?_⟩
  · rw [State.hostWrite_aligned w hr ho]
    change s.writeAt loc w = s.hazard
    rcases hloc with h | h | ⟨c, h⟩ | ⟨i, k, h⟩ | ⟨b, j, k, h⟩ <;> rw [h]
    · exact if_pos (by rw [State.busy, hb, Bool.true_or])
    · exact if_pos hb
    · exact if_pos hb
    · exact State.writeSlot_busy hb (.inl ⟨i, rfl⟩) k w
    · exact State.writeSlot_busy hb (.inr ⟨b, j, rfl⟩) k w
  · obtain ⟨hmapped, hguarded⟩ : loc ≠ .unmapped ∧ loc.guardedRead = true := by
      rcases hloc with ⟨slot, k, h⟩ | h | h | h <;> rw [h] <;> exact ⟨nofun, rfl⟩
    rw [State.hostRead_guarded hr hb ho hmapped hguarded]
    rfl

/-- Settles O23: the write by whether the engine is busy, each read as that of a register. -/
theorem ctrlWriteSetsModes : Obligations.CtrlWriteSetsModes := by
  intro s w hr hw
  refine ⟨fun hb => ?_, fun hb => ?_, ⟨s.ctrlWord, ?_, s.ctrlWord_getLsbD⟩, ?_, ?_, fun hb => ⟨?_, ?_, ?_⟩⟩
  · rw [State.hostWrite_ctrl hr hw, State.busy_eq_false hb, Csr.writeCtrl_idle]
    rfl
  · have hbusy : s.busy = true := Option.isSome_iff_ne_none.2 hb
    rw [State.hostWrite_ctrl hr hw, hbusy, Csr.writeCtrl_busy]
    rfl
  · exact State.hostRead_register hr (loc := .ctrl) (by decide) (.inr rfl)
  · exact State.hostRead_register hr (loc := .ecmd) (by decide) (.inr rfl)
  · exact State.hostRead_register hr (loc := .ecause) (by decide) (.inr rfl)
  · exact State.hostRead_register hr (loc := .pLogn) (by decide) (.inl (State.busy_eq_false hb))
  · exact State.hostRead_register hr (loc := .pChain) (by decide) (.inl (State.busy_eq_false hb))
  · exact State.hostRead_register hr (loc := .pSigma) (by decide) (.inl (State.busy_eq_false hb))

/-- Settles O24, register by register. -/
theorem configurationRegistersStore : Obligations.ConfigurationRegistersStore := by
  intro s w hr hb
  refine ⟨State.hostWrite_cfg hr hb (name := .logn) (by decide) w, State.hostWrite_cfg hr hb (name := .pbits) (by decide) w,
    State.hostWrite_cfg hr hb (name := .cbits) (by decide) w, State.hostWrite_cfg hr hb (name := .chain) (by decide) w,
    State.hostWrite_cfg hr hb (name := .sigma) (by decide) w, State.hostWrite_ccount hr hb (by decide) w, ?_⟩
  simp only [List.forall_mem_cons]
  exact ⟨State.cfg_reads_back hr hb (name := .logn) (by decide) w, State.cfg_reads_back hr hb (name := .pbits) (by decide) w,
    State.cfg_reads_back hr hb (name := .cbits) (by decide) w, State.cfg_reads_back hr hb (name := .chain) (by decide) w,
    State.cfg_reads_back hr hb (name := .sigma) (by decide) w, State.ccount_reads_back hr hb (by decide) w, by simp⟩

/-- Settles O25: a write to STATUS takes DONE away, one to CTRL takes IE away, with SRST as without. -/
theorem interruptFollowsDone : Obligations.InterruptFollowsDone := by
  intro s w hr
  refine ⟨by simp [State.irq], fun hw => ?_, fun hw => ?_⟩
  · rw [State.hostWrite_register hr (loc := .status) (by decide)]
    simp [State.irq, State.writeAt, bitOf, hw]
  · cases hreset : bitOf w 2 with
    | true =>
      rw [State.hostWrite_ctrl_reset hr hreset]
      rfl
    | false =>
      have hie : bitOf w 0 = false := hw
      rw [State.hostWrite_ctrl hr hreset]
      simp [State.irq, hie]

/-- The state has the reset values of R37 in every register but S and P. -/
def AtReset (t : State) : Prop :=
  t.par = ParamSet.zero ∧ t.cfg = CfgRegs.zero ∧ t.csr = Csr.zero ∧ t.pending = none ∧ t.resetPin = false

theorem State.softReset_atReset {s : State} (hr : s.resetPin = false) : AtReset s.softReset := ⟨rfl, rfl, rfl, rfl, hr⟩

theorem State.hardReset_atReset (s : State) : AtReset ((s.driveReset true).driveReset false) := ⟨rfl, rfl, rfl, rfl, rfl⟩

/-- Settles O10: the three resets leave `AtReset`, from which each register's value follows; ID and CAPS are constants. -/
theorem resetSetsRegisters : Obligations.ResetSetsRegisters := by
  intro s w hw hr soft hard
  have hsoft : soft = s.softReset := State.hostWrite_ctrl_reset hr hw
  have hreset : ∀ t ∈ [State.reset, soft, hard], AtReset t := by
    rw [List.forall_mem_cons, List.forall_mem_cons, List.forall_mem_singleton, hsoft]
    exact ⟨⟨rfl, rfl, rfl, rfl, rfl⟩, State.softReset_atReset hr, s.hardReset_atReset⟩
  have hpin : ∀ t ∈ [State.reset, soft, hard, s], t.resetPin = false := by
    rw [List.forall_mem_cons, List.forall_mem_cons, List.forall_mem_cons, List.forall_mem_singleton, hsoft]
    exact ⟨rfl, hr, rfl, hr⟩
  refine ⟨fun t ht => ?_, fun t ht => ⟨?_, ?_⟩, by decide, by decide, by rw [hsoft]; rfl, rfl⟩
  · obtain ⟨hpar, hcfg, hcsr, hpending, hlow⟩ := hreset t ht
    simp only [State.statusWord, State.ctrlWord, State.busy, State.irq, hpar, hcfg, hcsr, hpending, hlow]
    decide
  · rw [State.hostRead_register (hpin t ht) (loc := .id) (by decide) (.inr rfl), State.wordAt, idWord]
  · rw [State.hostRead_register (hpin t ht) (loc := .caps) (by decide) (.inr rfl), State.wordAt]

end Sys2Proof.Machine
end

section
/-! The engine's turn (10_state.md R35): the state in which a command ends, its frame, and O5, O9, O27 and O28, which follow. -/

namespace Sys2Proof.Machine

variable {s t : State}

/-! The step by the head of the schedule. -/

/-- The engine has the turn where the schedule says so and where it is used up. -/
theorem step_engine (h : s.schedule = [] ∨ s.schedule.head? = some .engine) :
    step s = State.engineTurn { s with schedule := s.schedule.tail } := by
  unfold step
  cases hs : s.schedule with
  | nil =>
    obtain ⟨⟩ := s
    cases hs
    rfl
  | cons turn rest =>
    obtain rfl : turn = .engine := by simpa [hs] using h
    rfl

theorem step_turn {turn : Turn} {rest : List Turn} (h : s.schedule = turn :: rest) :
    step s = State.takeTurn { s with schedule := rest } turn := by
  simp only [step, h]

theorem State.engineTurn_pending {w : Word} (hr : s.resetPin = false) (hw : s.pending = some w) :
    s.engineTurn = perform w s := by
  simp [State.engineTurn, hr, hw]

/-- In the engine's turn the pending word is performed, with the turn taken off the schedule (R35). -/
theorem step_pending {w : Word} (h : s.schedule = [] ∨ s.schedule.head? = some .engine) (hr : s.resetPin = false)
    (hw : s.pending = some w) : step s = perform w { s with schedule := s.schedule.tail } := by
  rw [step_engine h]
  exact State.engineTurn_pending hr hw

theorem perform_decoded {w : Word} {i : Instr} (h : decode w = .ok i) (s : State) : perform w s = exec i s := by
  simp only [perform, h]

/-- Settles O5: the turn is the engine's, and what it performs is the pending word. -/
theorem stepPerformsDecodedCommand : Obligations.StepPerformsDecodedCommand := by
  intro s w i hr hturn hw hi
  rw [step_pending hturn hr hw, perform_decoded hi]

/-! The end of a command. -/

/-- `t` is `s` with a command at its end: nothing is pending, DONE is set and CCOUNT one up. Beside these at most the data, the
parameter set with PVALID, and ERR, ECMD and ECAUSE differ (60_exceptions.md R256, R258). -/
def CommandEnded (s t : State) : Prop :=
  ∃ scalars bufs par pvalid err ecmd ecause,
    t = { s with
      scalars := scalars, bufs := bufs, par := par, pending := none
      csr := { s.csr.completed with pvalid := pvalid, err := err, ecmd := ecmd, ecause := ecause } }

theorem State.enterError_ended (s : State) (e : CmdError) : CommandEnded s (s.enterError e) :=
  ⟨_, _, _, _, _, _, _, rfl⟩

theorem Commits.complete_ended {i : Instr} {u : State} (h : Commits i s u) : CommandEnded s u.complete := by
  cases h with
  | nothing | params | scalar | lanes | copy => exact ⟨_, _, _, _, _, _, _, rfl⟩

theorem exec_ended {i : Instr} (h : exec i s = .next t) : CommandEnded s t := by
  rcases exec_cases h with ⟨u, hu, rfl⟩ | ⟨e, -, rfl⟩
  · exact hu.complete_ended
  · exact s.enterError_ended e

theorem perform_ended {w : Word} (h : perform w s = .next t) : CommandEnded s t := by
  unfold perform at h
  split at h
  · exact exec_ended h
  · cases h
    exact s.enterError_ended _

/-- Settles O9: the write of the word to CMD is accepted, and the engine's turn that follows performs it to its end. -/
theorem acceptedCommandCompletes : Obligations.AcceptedCommandCompletes := by
  intro s w rest hb he hr hs
  let t := State.accept { s with schedule := .engine :: rest } w
  have hwrite : step s = .next t := by
    rw [step_turn hs]
    exact congrArg _ (State.hostWrite_cmd_accepted (s := { s with schedule := .engine :: rest }) hr hb he w)
  obtain ⟨u, hu⟩ := perform_next w { t with schedule := rest }
  have hperform : step t = .next u := (step_pending (s := t) (w := w) (.inr rfl) hr rfl).trans hu
  refine ⟨t, u, hwrite, by rw [State.statusWord_getLsbD]; rfl, hperform, ?_⟩
  obtain ⟨_, _, _, _, _, _, _, rfl⟩ := perform_ended hu
  exact ⟨rfl, rfl, rfl, rfl, rfl⟩

/-! What a command leaves unchanged. -/

/-- `t` has the parameter registers and PVALID of `s` (R25). -/
abbrev SameParams (s t : State) : Prop := t.par = s.par ∧ t.csr.pvalid = s.csr.pvalid

/-- Only PBUILD commits to the parameter set. -/
theorem Commits.sameParams {i : Instr} {u : State} (h : Commits i s u) (hi : i ≠ .pbuild) : SameParams s u := by
  cases h with
  | params hpbuild => exact absurd hpbuild hi
  | nothing | scalar | lanes | copy => exact ⟨rfl, rfl⟩

theorem Commits.scalars_eq {i : Instr} {u : State} (h : Commits i s u) {r : SReg} (hr : scalarDest i ≠ some r) :
    u.scalars[r] = s.scalars[r] := by
  cases h with
  | scalar rd hrd =>
    have hne : r ≠ rd := fun heq => hr (heq ▸ hrd)
    rw [State.writeScalar_scalars, set_getElem_fin, if_neg hne]
  | nothing | params | lanes | copy => rfl

theorem Commits.bufs_eq {i : Instr} {u : State} (h : Commits i s u) {b : PBuf} (hb : bufferDest i ≠ some b) :
    u.bufs[b] = s.bufs[b] := by
  cases h with
  | lanes rd hrd =>
    have hne : b ≠ rd := fun heq => hb (heq ▸ hrd)
    rw [State.writeLanes_bufs, set_getElem_fin, if_neg hne]
  | copy rd hrd =>
    have hne : b ≠ rd := fun heq => hb (heq ▸ hrd)
    rw [State.copyLanes_bufs, set_getElem_fin, if_neg hne]
  | nothing | params | scalar => rfl

/-- A command that is not PBUILD keeps the parameter set and PVALID (R25). -/
theorem exec_sameParams {i : Instr} (h : exec i s = .next t) (hi : i ≠ .pbuild) : SameParams s t := by
  rcases exec_cases h with ⟨u, hu, rfl⟩ | ⟨e, -, rfl⟩
  · exact hu.sameParams hi
  · exact ⟨rfl, rfl⟩

/-- Settles O27: `CommandEnded` names what every command leaves alone; its data and parameters depend on what it commits, and an
error commits nothing. -/
theorem commandFrame : Obligations.CommandFrame := by
  intro i s t h
  have hscalars : ∀ r : SReg, scalarDest i ≠ some r → t.scalars[r] = s.scalars[r] := fun r hr => by
    rcases exec_cases h with ⟨u, hu, rfl⟩ | ⟨e, -, rfl⟩
    · exact hu.scalars_eq hr
    · rfl
  have hbufs : ∀ b : PBuf, bufferDest i ≠ some b → t.bufs[b] = s.bufs[b] := fun b hb => by
    rcases exec_cases h with ⟨u, hu, rfl⟩ | ⟨e, -, rfl⟩
    · exact hu.bufs_eq hb
    · rfl
  have hpar := exec_sameParams h
  obtain ⟨_, _, _, _, _, _, _, rfl⟩ := exec_ended h
  exact ⟨rfl, rfl, rfl, rfl, rfl, rfl, rfl, rfl, rfl, rfl, rfl, hpar, hscalars, hbufs⟩

/-! The parameter set. -/

theorem ifReservedZero_ok {ok : Bool} {i j : Instr} : ifReservedZero ok i = .ok j ↔ ok = true ∧ i = j := by
  cases ok <;> simp [ifReservedZero]

/-- A field of zeros above bits that are all 0. -/
theorem mod_two_pow_add_eq_zero {n lo len : Nat} (hlow : n % 2 ^ lo = 0) (hfield : n / 2 ^ lo % 2 ^ len = 0) :
    n % 2 ^ (lo + len) = 0 := by
  rw [pow_add, Nat.mod_mul, hlow, hfield, Nat.mul_zero]

/-- One word alone stands for PBUILD: its opcode with all other bits 0 (30_encoding.md R95, R103). -/
theorem eq_of_decode_pbuild {w : Word} (h : decode w = .ok .pbuild) : w = 0x08000000 := by
  unfold decode at h
  split at h
  case h_2 hop =>
    simp only [ifReservedZero_ok, Bool.and_eq_true, zeroAt, beq_iff_eq, and_true] at h
    obtain ⟨⟨⟨⟨⟨hms, hrd⟩, hrs1⟩, hrs2⟩, hrs3⟩, hlow⟩ := h
    have low4 : w.toNat % 2 ^ 4 = 0 := by simpa [bitsAt] using hlow
    have low26 : w.toNat % 2 ^ 26 = 0 :=
      have low8 := mod_two_pow_add_eq_zero low4 hrs3
      have low12 := mod_two_pow_add_eq_zero low8 hrs2
      have low16 := mod_two_pow_add_eq_zero low12 hrs1
      have low20 := mod_two_pow_add_eq_zero low16 hrd
      mod_two_pow_add_eq_zero low20 hms
    have hword : w.toNat % 2 ^ (26 + 6) = 2 ^ 26 * 2 := by
      rw [pow_add, Nat.mod_mul, low26, Nat.zero_add]
      exact congrArg _ hop
    exact BitVec.eq_of_toNat_eq ((Nat.mod_eq_of_lt w.isLt).symm.trans hword)
  all_goals simp [ifReservedZero_ok] at h

theorem perform_sameParams {w : Word} (h : perform w s = .next t) (hw : w ≠ 0x08000000) : SameParams s t := by
  unfold perform at h
  split at h
  · rename_i i hi
    exact exec_sameParams h fun hp => hw (eq_of_decode_pbuild (hp ▸ hi))
  · cases h
    exact ⟨rfl, rfl⟩

theorem State.engineTurn_sameParams (h : s.engineTurn = .next t) : s.pending = some 0x08000000 ∨ SameParams s t := by
  rcases s.engineTurn_cases with he | ⟨w, hw, -, he⟩
  · cases he.symm.trans h
    exact .inr ⟨rfl, rfl⟩
  · by_cases hpbuild : w = 0x08000000
    · exact .inl (hpbuild ▸ hw)
    · exact .inr (perform_sameParams (he.symm.trans h) hpbuild)

theorem State.hostRead_sameParams (s : State) (width : Width) (o : Offset) : SameParams s (s.hostRead width o) := by
  obtain ⟨d, n, c, hc, heq⟩ := s.hostRead_cases width o
  rw [heq]
  rcases hc with rfl | rfl | rfl <;> exact ⟨rfl, rfl⟩

theorem State.ignoreWrite_pvalid (s : State) : s.ignoreWrite.csr.pvalid = s.csr.pvalid := by
  rw [State.ignoreWrite_eq]

theorem State.writeSlot_sameParams (s : State) (slot : Slot) (k : Nat) (w : Word) : SameParams s (s.writeSlot slot k w) := by
  unfold State.writeSlot
  split
  · exact ⟨s.ignoreWrite_par, s.ignoreWrite_pvalid⟩
  · cases slot with
    | scalar i =>
      dsimp only
      split <;> exact ⟨rfl, rfl⟩
    | coeff b j =>
      dsimp only
      split <;> exact ⟨rfl, rfl⟩
    | t | q i | bigQ i => exact ⟨s.busError.ignoreWrite_par, s.busError.ignoreWrite_pvalid⟩

/-- A location other than CTRL, and CTRL with SRST = 0, keeps the parameter set when it is written (R25, R301). -/
theorem State.writeAt_sameParams (s : State) {loc : Loc} {w : Word} (h : loc = .ctrl → bitOf w 2 = false) :
    SameParams s (s.writeAt loc w) := by
  cases loc with
  | id | ecmd | ecause | caps | unmapped | status => exact ⟨rfl, rfl⟩
  | pLogn | pChain | pSigma => exact ⟨s.busError.ignoreWrite_par, s.busError.ignoreWrite_pvalid⟩
  | ctrl =>
    simp only [State.writeAt, State.writeCtrl, h rfl]
    exact ⟨rfl, rfl⟩
  | cmd =>
    simp only [State.writeAt, State.writeCmd]
    split <;> exact ⟨rfl, rfl⟩
  | ccount | cfg =>
    simp only [State.writeAt]
    split <;> exact ⟨rfl, rfl⟩
  | word slot k => exact s.writeSlot_sameParams slot k w

/-- Above the register block the map has slots only (R66). -/
theorem locate_ne_ctrl {p : Config.Params} {off : Nat} (h : ¬ off < 0x40) : locate p off ≠ .ctrl := by
  simp only [locate, if_neg h]
  repeat' refine iteInduction (motive := (· ≠ Loc.ctrl)) (fun _ => ?_) (fun _ => ?_)
  all_goals nofun

/-- CTRL stands at one aligned offset (R66). -/
theorem eq_of_locate_ctrl {p : Config.Params} {o : Offset} (ha : o.toNat % 4 = 0) (h : locate p o.toNat = .ctrl) :
    o = 0x004 := by
  have hlt : o.toNat < 0x40 := by
    by_contra hge
    exact locate_ne_ctrl hge h
  have hword : o.toNat / 4 = 1 := by
    have hcsr : csrAt (o.toNat / 4) = .ctrl := by simpa only [locate, if_pos hlt] using h
    have hone : ∀ i < 16, csrAt i = .ctrl → i = 1 := by decide
    exact hone _ (by omega) hcsr
  bv_omega

/-- A host write that changes the parameter set or PVALID is a soft reset: a full word to CTRL with SRST = 1 (R301). -/
theorem State.hostWrite_sameParams (s : State) {width : Width} {o : Offset} {w : Word}
    (h : width = .bits32 → o = 0x004 → bitOf w 2 = false) : SameParams s (s.hostWrite width o w) := by
  unfold State.hostWrite
  split
  · exact ⟨rfl, rfl⟩
  · split
    · exact ⟨rfl, rfl⟩
    · rename_i hform
      obtain ⟨hwidth, ha⟩ : width = .bits32 ∧ o.toNat % 4 = 0 := by simpa [malformed] using hform
      exact s.writeAt_sameParams fun hctrl => h hwidth (eq_of_locate_ctrl ha hctrl)

/-- Settles O28, by the agent that has the turn: the engine changes the parameter set through PBUILD, the host through a soft reset,
the platform where it deasserts the reset input. -/
theorem onlyPbuildAndResetChangeParameters : Obligations.OnlyPbuildAndResetChangeParameters := by
  intro s t h
  cases hs : s.schedule with
  | nil =>
    rw [step_engine (.inl hs)] at h
    rcases State.engineTurn_sameParams h with hp | hkept
    · exact .inl ⟨hp, .inl rfl⟩
    · exact .inr (.inr (.inr hkept))
  | cons turn rest =>
    cases turn with
    | engine =>
      rw [step_turn hs] at h
      rcases State.engineTurn_sameParams h with hp | hkept
      · exact .inl ⟨hp, .inr rfl⟩
      · exact .inr (.inr (.inr hkept))
    | read width o =>
      rw [step_turn hs] at h
      cases h
      exact .inr (.inr (.inr (State.hostRead_sameParams _ width o)))
    | write width o w =>
      rw [step_turn hs] at h
      cases h
      by_cases hreset : width = .bits32 ∧ o = 0x004 ∧ bitOf w 2 = true
      · obtain ⟨rfl, rfl, hw⟩ := hreset
        exact .inr (.inr (.inl ⟨w, rfl, hw⟩))
      · exact .inr (.inr (.inr (State.hostWrite_sameParams _ fun hwidth ho =>
          Bool.eq_false_of_not_eq_true fun hw => hreset ⟨hwidth, ho, hw⟩)))
    | resetPin asserted =>
      cases asserted with
      | false => exact .inr (.inl rfl)
      | true =>
        rw [step_turn hs] at h
        cases h
        exact .inr (.inr (.inr ⟨rfl, rfl⟩))

end Sys2Proof.Machine
end

section
/-! The host window (20_memory.md R61 to R72): the offset of every location, what a read of a slot answers and which writes are
ignored, and O12, O13, O14, O16, O17 and O18, which follow. -/

namespace Sys2Proof.Machine

/-! The offset of a location. -/

/-- The offset of word 0 of a slot (R66, R67). -/
def Slot.base : Slot → Nat
  | .scalar i => 0x1000 + 0x40 * i.val
  | .t => 0x2000
  | .q i => 0x2100 + 0x40 * i.val
  | .bigQ i => 0x2500 + 0x40 * i.val
  | .coeff b j => 0x01000000 + b.val * 0x00400000 + j * 0x40

/-- The offset of a mapped location (R66); `locate_standsAt` ties it to `locate`. `.unmapped` has none, and answers 0. -/
def Loc.offset : Loc → Nat
  | .id => 0x00
  | .ctrl => 0x04
  | .status => 0x08
  | .cmd => 0x0C
  | .ecmd => 0x10
  | .ecause => 0x14
  | .ccount => 0x18
  | .caps => 0x1C
  | .cfg .logn => 0x20
  | .cfg .pbits => 0x24
  | .cfg .cbits => 0x28
  | .cfg .chain => 0x2C
  | .cfg .sigma => 0x30
  | .pLogn => 0x34
  | .pChain => 0x38
  | .pSigma => 0x3C
  | .word slot k => slot.base + 4 * k
  | .unmapped => 0

/-- The location, if it is mapped, has the offset `off`. -/
def Loc.StandsAt (off : Nat) (loc : Loc) : Prop := loc ≠ .unmapped → loc.offset = off

theorem Loc.StandsAt.unmapped (off : Nat) : Loc.StandsAt off .unmapped := fun h => absurd rfl h

theorem Loc.offset_csrAt : ∀ i < 16, (csrAt i).offset = 4 * i := by decide

/-- What an aligned offset names stands at that offset: `Loc.offset` inverts the address map, region by region. -/
theorem locate_standsAt (p : Config.Params) {off : Nat} (ha : off % 4 = 0) : (locate p off).StandsAt off := by
  simp only [locate]
  repeat' refine iteInduction (motive := Loc.StandsAt off) (fun _ => ?_) (fun _ => ?_)
  any_goals exact .unmapped off
  all_goals intro _
  · rw [Loc.offset_csrAt _ (by omega)]
    omega
  · simp only [Loc.offset, Slot.base, slotIndex]
    omega
  · simp only [Loc.offset, Slot.base]
    omega
  · simp only [Loc.offset, Slot.base, slotIndex]
    omega
  · simp only [Loc.offset, Slot.base, slotIndex]
    omega
  · simp only [Loc.offset, Slot.base, bufIndex, coeffIndex]
    omega

/-- Settles O13: both offsets are the offset of the location they name. -/
theorem addressMapIsInjective : Obligations.AddressMapIsInjective := by
  intro p x y _ hx hy heq hm
  have hxoff : (locate p x).offset = x := locate_standsAt p hx hm
  have hyoff : (locate p y).offset = y := locate_standsAt p hy (heq ▸ hm)
  rw [← hxoff, heq, hyoff]

/-! Words of slots. -/

section
variable (p : Config.Params) {k : Nat}

theorem slotIndex_word (base : Nat) (i : Fin 16) (hk : k < 16) : slotIndex (base + 0x40 * i.val + 4 * k - base) = i := by
  have hi := i.isLt
  exact Fin.ext (by simp only [slotIndex]; omega)

/-- Word `k` of the slot of `T`. -/
theorem locate_t_word (hk : k < 16) : locate p (0x2000 + 4 * k) = .word .t k := by
  have hword : (0x2000 + 4 * k) % 0x40 / 4 = k := by omega
  simp only [locate]
  rw [if_neg (by omega), if_neg (by omega), if_neg (by omega), if_neg (by omega), if_pos (by omega), hword]

/-- Word `k` of the slot of `q[i]`, which exists up to `L_MAX`. -/
theorem locate_q_word (i : Fin 16) (hk : k < 16) :
    locate p (0x2100 + 0x40 * i.val + 4 * k) = if i.val ≤ p.lMax then .word (.q i) k else .unmapped := by
  have hi := i.isLt
  have hword : (0x2100 + 0x40 * i.val + 4 * k) % 0x40 / 4 = k := by omega
  simp only [locate]
  rw [if_neg (by omega), if_neg (by omega), if_neg (by omega), if_neg (by omega), if_neg (by omega), if_neg (by omega),
    if_pos (by omega), slotIndex_word _ i hk, hword]

/-- Word `k` of the slot of `Q[i]`, which exists up to `L_MAX`. -/
theorem locate_bigQ_word (i : Fin 16) (hk : k < 16) :
    locate p (0x2500 + 0x40 * i.val + 4 * k) = if i.val ≤ p.lMax then .word (.bigQ i) k else .unmapped := by
  have hi := i.isLt
  have hword : (0x2500 + 0x40 * i.val + 4 * k) % 0x40 / 4 = k := by omega
  simp only [locate]
  rw [if_neg (by omega), if_neg (by omega), if_neg (by omega), if_neg (by omega), if_neg (by omega), if_neg (by omega),
    if_neg (by omega), if_pos (by omega), slotIndex_word _ i hk, hword]

/-- Word `k` of the place of `P[b][j]` in the window, whether or not the implementation has this coefficient (R67). -/
theorem locate_coeff_place (b : PBuf) {j : Nat} (hj : j < 2 ^ 16) (hk : k < 16) :
    locate p (0x01000000 + b.val * 0x00400000 + j * 0x40 + 4 * k) =
      if b.val < p.nbuf ∧ j < 2 ^ p.lognMax then .word (.coeff b j) k else .unmapped := by
  have hb := b.isLt
  have hbuf : bufIndex (0x01000000 + b.val * 0x00400000 + j * 0x40 + 4 * k) = b := Fin.ext (by simp only [bufIndex]; omega)
  have hcoeff : coeffIndex (0x01000000 + b.val * 0x00400000 + j * 0x40 + 4 * k) = j := by simp only [coeffIndex]; omega
  have hword : (0x01000000 + b.val * 0x00400000 + j * 0x40 + 4 * k) % 0x40 / 4 = k := by omega
  simp only [locate]
  rw [if_neg (by omega), if_neg (by omega), if_neg (by omega), if_neg (by omega), if_neg (by omega), if_neg (by omega),
    if_neg (by omega), if_neg (by omega), if_neg (by omega), if_pos (by omega), hbuf, hcoeff, hword, nMax]

end

/-- Settles O12, kind of slot by kind of slot. -/
theorem slotsLieWhereTheMapSays : Obligations.SlotsLieWhereTheMapSays :=
  fun p _ _ hk => ⟨fun i => locate_scalar_word p i hk, locate_t_word p hk, fun i => locate_q_word p i hk,
    fun i => locate_bigQ_word p i hk, fun b _ hj => locate_coeff_place p b hj hk⟩

/-! Reads of slots. -/

section
variable {p : Config.Params}

theorem getLsbD_wordOfValue (v : Int) {k i : Nat} (hk : k < wps p) (hi : i < 32) :
    (wordOfValue p v k).getLsbD i = (pattern p v).testBit (32 * k + i) := by
  rw [wordOfValue, if_pos hk, BitVec.getLsbD_ofNat, decide_eq_true hi, Bool.true_and, Nat.testBit_div_two_pow, Nat.add_comm]

/-- A word replaced in a value reads back, and the other words of the pattern are kept (R64). -/
theorem wordOfValue_valueWithWord (h : p.Legal) (v : Int) {k k' : Nat} (w : Word) (hk : k < wps p) (hk' : k' < wps p) :
    wordOfValue p (valueWithWord p v k w) k' = if k' = k then w else wordOfValue p v k' := by
  refine BitVec.eq_of_getLsbD_eq fun i hi => ?_
  rw [getLsbD_wordOfValue _ hk' hi, testBit_pattern_valueWithWord h v w hk, show (32 * k' + i) / 32 = k' by omega,
    show (32 * k' + i) % 32 = i by omega]
  split
  · rfl
  · rw [getLsbD_wordOfValue _ hk' hi]

/-- A value that fits, shifted right by CW bits or more, leaves its sign. -/
theorem div_eq_sign {v : Int} (hv : Fits p v) {n : Nat} (hn : p.cw ≤ n) : v / 2 ^ n = if v < 0 then -1 else 0 := by
  obtain ⟨hlow, hhigh⟩ := hv
  have hpow : (2 : Int) ^ (p.cw - 1) ≤ 2 ^ n := pow_le_pow_right₀ (by decide) (by omega)
  have hpos : (0 : Int) < 2 ^ n := by positivity
  split
  · rw [Int.ediv_eq_iff_of_pos hpos]
    omega
  · exact Int.ediv_eq_zero_of_lt (by omega) (by omega)

/-- Every word of the slot of a value that fits is the value shifted right, the sign fill included (R9, R63). -/
theorem wordOfValue_eq_shift (h : p.Legal) {v : Int} (hv : Fits p v) (k : Nat) :
    wordOfValue p v k = BitVec.ofInt 32 (v / 2 ^ (32 * k)) := by
  have hcw := mul_wps_eq_cw h
  rw [wordOfValue]
  split
  · refine BitVec.eq_of_toNat_eq ?_
    rw [pattern_word (p := p) v (by omega), BitVec.toNat_ofNat]
  · rw [div_eq_sign hv (by omega)]
    split <;> rfl

end

section
variable {s : State} {o : Offset} {slot : Slot} {k : Nat}

/-- A read of word `k` of a slot while the engine is idle (R65). -/
theorem State.hostRead_slot (hb : s.pending = none) (hr : s.resetPin = false) (ho : o.toNat % 4 = 0)
    (hl : locate s.params o.toNat = .word slot k) :
    s.hostRead .bits32 o = { s with busData := wordOfValue s.params (s.slotValue slot) k } := by
  rw [State.hostRead_aligned hr ho (by rw [hl]; nofun) (.inl (State.busy_eq_false hb)), hl, State.wordAt]

end

/-- Settles O16: a read of a slot answers the shifted value, and every read of a mapped location only a word. -/
theorem slotReadsPatternAndSignFill : Obligations.SlotReadsPatternAndSignFill := by
  intro s o hp hb hr ho
  refine ⟨fun slot k hl hv => ?_, fun hm => ⟨_, State.hostRead_aligned hr ho hm (.inl (State.busy_eq_false hb))⟩⟩
  rw [State.hostRead_slot hb hr ho hl, wordOfValue_eq_shift hp hv]

/-! Accesses that change no register. -/

section
variable {s : State}

theorem State.hostWrite_malformed (hr : s.resetPin = false) {width : Width} {o : Offset} (h : malformed width o = true)
    (w : Word) : s.hostWrite width o w = s.busError := by
  simp [State.hostWrite, hr, h]

theorem State.hostRead_malformed (hr : s.resetPin = false) {width : Width} {o : Offset} (h : malformed width o = true) :
    s.hostRead width o = { s.busError with busData := 0 } := by
  simp [State.hostRead, hr, h]

theorem malformed_eq_false_iff {width : Width} {o : Offset} :
    malformed width o = false ↔ width = .bits32 ∧ o.toNat % 4 = 0 := by
  simp [malformed]

/-- A well-formed read of an unmapped offset answers 0 and sets AERR (R69). -/
theorem State.hostRead_unmapped (hr : s.resetPin = false) {o : Offset} (ho : o.toNat % 4 = 0)
    (hl : locate s.params o.toNat = .unmapped) : s.hostRead .bits32 o = { s.busError with busData := 0 } := by
  simp [State.hostRead, hr, malformed, ho, hl]

/-- A write to a register that only the engine writes sets AERR (R70). -/
theorem State.writeAt_readOnly {loc : Loc} (h : loc ∈ [.id, .ecmd, .ecause, .caps]) (w : Word) :
    s.writeAt loc w = s.busError := by
  simp only [List.mem_cons, List.not_mem_nil, or_false] at h
  rcases h with rfl | rfl | rfl | rfl <;> rfl

/-- A write to P_LOGN, P_CHAIN or P_SIGMA sets AERR, and HAZ while BUSY = 1 (R70; log entry 15). -/
theorem State.writeAt_parameter {loc : Loc} (h : loc ∈ [.pLogn, .pChain, .pSigma]) (w : Word) :
    s.writeAt loc w = s.busError.ignoreWrite := by
  simp only [List.mem_cons, List.not_mem_nil, or_false] at h
  rcases h with rfl | rfl | rfl <;> rfl

/-- A word of index WPS or above of any slot ignores writes (R63, I22). -/
theorem State.writeSlot_above_wps {k : Nat} (hk : wps s.params ≤ k) (slot : Slot) (w : Word) :
    s.writeSlot slot k w = s.ignoreWrite := if_pos hk

/-- A write to T, `q[i]` or `Q[i]` sets AERR below word WPS, and HAZ while BUSY = 1 (R63, R70; log entries 5 and 15). -/
theorem State.writeSlot_readOnly {slot : Slot} (h : slot = .t ∨ (∃ i, slot = .q i) ∨ ∃ i, slot = .bigQ i) (k : Nat) (w : Word) :
    s.writeSlot slot k w =
      { s with csr := { s.csr with aerr := s.csr.aerr || decide (k < wps s.params), haz := s.csr.haz || s.busy } } := by
  by_cases hk : wps s.params ≤ k
  · rw [State.writeSlot_above_wps hk, State.ignoreWrite_eq, decide_eq_false (Nat.not_lt.2 hk), Bool.or_false]
  · have hwrite : s.writeSlot slot k w = s.busError.ignoreWrite := by
      rcases h with rfl | ⟨i, rfl⟩ | ⟨i, rfl⟩ <;> exact if_neg hk
    rw [hwrite, State.ignoreWrite_eq, decide_eq_true (Nat.lt_of_not_le hk), Bool.or_true]
    rfl

/-- While the engine is idle, a write to word `k ≥ WPS` of any slot changes nothing (R63, I22). -/
theorem State.hostWrite_above_wps (hb : s.pending = none) (hr : s.resetPin = false) {o : Offset} (ho : o.toNat % 4 = 0)
    {slot : Slot} {k : Nat} (hl : locate s.params o.toNat = .word slot k) (hk : wps s.params ≤ k) (w : Word) :
    s.hostWrite .bits32 o w = s := by
  rw [State.hostWrite_aligned w hr ho, hl, State.writeAt, State.writeSlot_above_wps hk,
    State.ignoreWrite_idle (State.busy_eq_false hb)]

end

/-- Settles O17: the access is malformed, or well-formed at an unmapped offset. -/
theorem badAccessSetsAerrOnly : Obligations.BadAccessSetsAerrOnly := by
  intro s width o w hr hbad
  cases hform : malformed width o with
  | true => exact ⟨State.hostWrite_malformed hr hform w, State.hostRead_malformed hr hform⟩
  | false =>
    obtain ⟨rfl, ho⟩ := malformed_eq_false_iff.1 hform
    have hl : locate s.params o.toNat = .unmapped := by simpa [ho] using hbad
    refine ⟨?_, State.hostRead_unmapped hr ho hl⟩
    rw [State.hostWrite_aligned w hr ho, hl]
    rfl

/-- Settles O18: the offsets name read-only registers, parameter registers and read-only slots, each with its kind of write. -/
theorem readOnlyWriteIsIgnored : Obligations.ReadOnlyWriteIsIgnored := by
  intro s o w hr ho haz
  have hregister : ∀ n ∈ [0x00, 0x10, 0x14, 0x1C], n < 0x40 ∧ csrAt (n / 4) ∈ [Loc.id, .ecmd, .ecause, .caps] := by decide
  have hparameter : ∀ n ∈ [0x34, 0x38, 0x3C], n < 0x40 ∧ csrAt (n / 4) ∈ [Loc.pLogn, .pChain, .pSigma] := by decide
  refine ⟨fun h => ?_, fun h => ?_, fun k hk h => ?_⟩
  · obtain ⟨hlt, hloc⟩ := hregister _ h
    rw [State.hostWrite_register hr ⟨ho, hlt, rfl⟩, State.writeAt_readOnly hloc]
    rfl
  · obtain ⟨hlt, hloc⟩ := hparameter _ h
    rw [State.hostWrite_register hr ⟨ho, hlt, rfl⟩, State.writeAt_parameter hloc, State.ignoreWrite_eq]
    rfl
  · obtain ⟨slot, hl, hslot⟩ : ∃ slot, locate s.params o.toNat = .word slot k ∧
        (slot = .t ∨ (∃ i, slot = .q i) ∨ ∃ i, slot = .bigQ i) := by
      rcases h with h | ⟨i, hi, hi16, h | h⟩
      · exact ⟨.t, by rw [h, locate_t_word _ hk], .inl rfl⟩
      · exact ⟨.q ⟨i, hi16⟩, by rw [h, locate_q_word _ ⟨i, hi16⟩ hk, if_pos hi], .inr (.inl ⟨_, rfl⟩)⟩
      · exact ⟨.bigQ ⟨i, hi16⟩, by rw [h, locate_bigQ_word _ ⟨i, hi16⟩ hk, if_pos hi], .inr (.inr ⟨_, rfl⟩)⟩
    rw [State.hostWrite_aligned w hr ho, hl, State.writeAt, State.writeSlot_readOnly hslot]
    rfl

/-! Coefficients read back. -/

/-- The offset of a coefficient's word as a number. -/
theorem toNat_coeff_offset {p : Config.Params} (h : p.Legal) (b : PBuf) {j k : Nat} (hj : j < 2 ^ p.lognMax) (hk : k < 16) :
    (BitVec.ofNat 27 (0x01000000 + b.val * 0x00400000 + j * 0x40 + 4 * k)).toNat =
      0x01000000 + b.val * 0x00400000 + j * 0x40 + 4 * k := by
  obtain ⟨-, hlt⟩ := coeff_offset_lt (b := b) h hj hk
  rw [BitVec.toNat_ofNat, Nat.mod_eq_of_lt (by omega)]

section
variable {s : State} {b : PBuf} {j k : Nat}

/-- A read of word `k` of the slot of `P[b][j]` while the engine is idle. -/
theorem State.hostRead_coeff_word (hp : s.params.Legal) (hb : s.pending = none) (hr : s.resetPin = false) (hn : HasBuffer s b)
    (hj : j < 2 ^ s.params.lognMax) (hk : k < 16) :
    (s.hostRead .bits32 (BitVec.ofNat 27 (0x01000000 + b.val * 0x00400000 + j * 0x40 + 4 * k))).busData =
      wordOfValue s.params (s.coeff b j) k := by
  have hoff := toNat_coeff_offset hp b hj hk
  rw [State.hostRead_slot hb hr (by omega) (by rw [hoff, locate_coeff_word hp hn hj hk]), State.slotValue]

end

/-- Settles O14: below WPS the write replaces one word of the coefficient's pattern (`CoeffHolds`), above it does nothing. -/
theorem coefficientSlotWordReadsBack : Obligations.CoefficientSlotWordReadsBack := by
  intro s b j k k' w hp hb hr hn hj hk16 hk' at' t
  have hk'16 : k' < 16 := lt_of_lt_of_le hk' (wps_le_sixteen hp)
  refine ⟨fun hk => ?_, fun hk => ⟨?_, fun i => ?_⟩⟩
  · obtain ⟨hvalue, hframe, hother⟩ : CoeffHolds s t b j (valueWithWord s.params (s.coeff b j) k w) :=
      (CoeffHolds.refl s b j).hostWrite hp hb hr hn hj hk w
    have hparams : t.params = s.params := (congrArg State.params hframe :)
    have hpending : t.pending = s.pending := (congrArg State.pending hframe :)
    have hpin : t.resetPin = s.resetPin := (congrArg State.resetPin hframe :)
    refine ⟨?_, hframe, hother⟩
    rw [State.hostRead_coeff_word (hparams ▸ hp) (hpending ▸ hb) (hpin ▸ hr) (by rwa [HasBuffer, hparams]) (hparams ▸ hj) hk'16,
      State.hostRead_coeff_word hp hb hr hn hj hk'16, hvalue, hparams, wordOfValue_valueWithWord hp _ w hk hk']
  · have hoff : (at' k).toNat = 0x01000000 + b.val * 0x00400000 + j * 0x40 + 4 * k := toNat_coeff_offset hp b hj hk16
    exact State.hostWrite_above_wps hb hr (by omega) (by rw [hoff, locate_coeff_word hp hn hj hk16]) hk w
  · have hi := i.isLt
    have hoff : (BitVec.ofNat 27 (0x1000 + 0x40 * i.val + 4 * k)).toNat = 0x1000 + 0x40 * i.val + 4 * k := by
      rw [BitVec.toNat_ofNat, Nat.mod_eq_of_lt (by omega)]
    exact State.hostWrite_above_wps hb hr (by omega) (by rw [hoff, locate_scalar_word _ i hk16]) hk w

end Sys2Proof.Machine
end

section
/-! The decoder and the encoder (30_encoding.md R90 to R104): the fields of a word and their masks, what the decoder can
answer, and O1, O2, O3 and O6, which follow. -/

namespace Sys2Proof.Machine

open Laws.FixedFields (fixed)

/-! Fields. -/

theorem opField_eq (w : Word) : opField w = w.toNat / 2 ^ 26 := by
  have := w.isLt
  unfold opField bitsAt
  omega

/-- A word whose low four bits are 0 is the format R word of its fields (R91). -/
theorem formatR_of_fields {w : Word} {op ms rd rs1 rs2 rs3 : Nat} (hop : opField w = op) (hms : ms = bitsAt w 20 6)
    (hrd : rd = bitsAt w 16 4) (h1 : rs1 = bitsAt w 12 4) (h2 : rs2 = bitsAt w 8 4) (h3 : rs3 = bitsAt w 4 4)
    (hlow : bitsAt w 0 4 = 0) : formatR op ms rd rs1 rs2 rs3 = w := by
  refine BitVec.eq_of_toNat_eq ?_
  have hw := w.isLt
  subst hop hms hrd h1 h2 h3
  simp only [formatR, opField, bitsAt, BitVec.toNat_ofNat] at hlow ⊢
  omega

/-- A word is the format I word of its fields (R92). -/
theorem formatI_of_fields {w : Word} {op ms rd rs1 rs2 imm : Nat} (hop : opField w = op) (hms : ms = bitsAt w 20 6)
    (hrd : rd = bitsAt w 16 4) (h1 : rs1 = bitsAt w 12 4) (h2 : rs2 = bitsAt w 8 4) (himm : imm = bitsAt w 0 8) :
    formatI op ms rd rs1 rs2 imm = w := by
  refine BitVec.eq_of_toNat_eq ?_
  have hw := w.isLt
  subst hop hms hrd h1 h2 himm
  simp only [formatI, opField, bitsAt, BitVec.toNat_ofNat]
  omega

theorem msField_lt (w : Word) : msField w < 64 := Nat.mod_lt _ (by decide)

/-- Every 6-bit value is the value of the selector it names, and that selector is well formed (R101). -/
theorem selOfBits_spec : ∀ n < 64, selBits (selOfBits n) = n ∧ (selOfBits n).wellFormed = true := by decide

@[simp] theorem selBits_selField (w : Word) : selBits (selField w) = bitsAt w 20 6 :=
  (selOfBits_spec _ (msField_lt w)).1

@[simp] theorem selField_wellFormed (w : Word) : (selField w).wellFormed = true := (selOfBits_spec _ (msField_lt w)).2

@[simp] theorem imm8Field_toNat (w : Word) : (imm8Field w).toNat = bitsAt w 0 8 :=
  Nat.mod_eq_of_lt (Nat.mod_lt _ (by decide))

/-! What the decoder can answer. -/

/-- The reserved-zero fields of the command `i` are 0 in `w` (R95). -/
def ReservedZero (w : Word) (i : Instr) : Prop := ∀ z ∈ (fixed i).2, bitsAt w z.1 z.2 = 0

/-- `i` is the command that the opcode and the operand fields of `w` spell; `ok` says whether its reserved-zero fields are 0,
and then `w` is its word. -/
def Spells (w : Word) (i : Instr) (ok : Bool) : Prop :=
  opField w = (fixed i).1 ∧ (ok = true ↔ ReservedZero w i) ∧ i.wellFormed = true ∧ (ReservedZero w i → encode i = w)

/-- A word has no assigned opcode, or it spells a command, which the decoder answers where the reserved-zero fields are 0. -/
theorem decode_cases (w : Word) :
    (opField w ∉ reservedBits.map Prod.fst ∧ decode w = .error .unassignedOpcode) ∨
      ∃ i ok, Spells w i ok ∧ decode w = ifReservedZero ok i := by
  unfold decode
  split
  case h_25 => exact .inl ⟨by simp_all [reservedBits], rfl⟩
  case h_4 | h_9 =>
    rename_i hop
    refine .inr ⟨_, _, ?_, rfl⟩
    refine ⟨hop, by simp [ReservedZero, fixed, zeroAt], by simp [Instr.wellFormed, Instr.selector?],
      fun hz => ?_⟩
    simp only [ReservedZero, fixed, List.forall_mem_cons] at hz
    refine formatI_of_fields hop ?_ ?_ ?_ ?_ ?_ <;> simp [hz, rdField, rs1Field, rs2Field, indexAt]
  all_goals
    rename_i hop
    refine .inr ⟨_, _, ?_, rfl⟩
    refine ⟨hop, by simp [ReservedZero, fixed, zeroAt, and_assoc], by simp [Instr.wellFormed, Instr.selector?],
      fun hz => ?_⟩
    simp only [ReservedZero, fixed, List.forall_mem_cons] at hz
    refine formatR_of_fields hop ?_ ?_ ?_ ?_ ?_ ?_ <;> simp [hz, rdField, rs1Field, rs2Field, rs3Field, indexAt]

/-- Settles O2: the decoder answers only what the word spells. -/
theorem encodeInvertsDecode : Obligations.EncodeInvertsDecode := by
  intro w i h
  rcases decode_cases w with ⟨-, hd⟩ | ⟨j, ok, ⟨-, hok, hwf, henc⟩, hd⟩
  · cases hd.symm.trans h
  · obtain ⟨rfl, rfl⟩ := ifReservedZero_ok.1 (hd.symm.trans h)
    exact ⟨hwf, henc (hok.1 rfl)⟩

/-! The word of a command. -/

open Laws.FixedFields in
theorem encode_fixedFields (i : Instr) : Laws.FixedFields.Statement i := by
  cases i with
  | nop => exact nop
  | pbuild => exact pbuild
  | findprime rd nb m => exact findprime rd nb m
  | findprimes rd nb m qty => exact findprimes rd nb m qty
  | modinv rd n ms => exact modinv rd n ms
  | modred rd x ms => exact modred rd x ms
  | modctr rd x ms => exact modctr rd x ms
  | rndmul rd x num den ms => exact rndmul rd x num den ms
  | root rd ms k => exact root rd ms k
  | modget rd ms => exact modget rd ms
  | pzero rd => exact pzero rd
  | pcopy rd a => exact pcopy rd a
  | pred rd a ms => exact pred rd a ms
  | pctr rd a ms => exact pctr rd a ms
  | paddm rd a b ms => exact paddm rd a b ms
  | psubm rd a b ms => exact psubm rd a b ms
  | pnegm rd a ms => exact pnegm rd a ms
  | pscalm rd a c ms => exact pscalm rd a c ms
  | pmulew rd a b ms => exact pmulew rd a b ms
  | prndmul rd a num den ms => exact prndmul rd a num den ms
  | pmul rd a b => exact pmul rd a b
  | pmulm rd a b ms => exact pmulm rd a b ms
  | nttf rd a ms => exact nttf rd a ms
  | ntti rd a ms => exact ntti rd a ms

theorem imm8_lt (k : BitVec 8) : k.toNat < 256 := k.isLt

/-- The word of a well-formed command spells the command: its opcode selects the arm, its reserved-zero fields are 0
(`encode_fixedFields`), and its operand fields give the operands back. -/
theorem decode_encode {i : Instr} (h : i.wellFormed = true) : decode (encode i) = .ok i := by
  obtain ⟨hop, hzero⟩ := encode_fixedFields i
  change opField (encode i) = _ at hop
  cases i with
  | nop | pbuild | findprime | findprimes | pzero | pcopy | pmul =>
    simp only [fixed, List.forall_mem_cons] at hzero hop
    simp only [decode, hop, zeroAt, hzero]
    simp [ifReservedZero, encode, rdField, rs1Field, rs2Field, indexAt, imm8Field, formatR_fields, formatI_fields, imm8_lt]
  | modinv _ _ ms | modred _ _ ms | modctr _ _ ms | rndmul _ _ _ _ ms | root _ ms _ | modget _ ms | pred _ _ ms
  | pctr _ _ ms | paddm _ _ _ ms | psubm _ _ _ ms | pnegm _ _ ms | pscalm _ _ _ ms | pmulew _ _ _ ms | prndmul _ _ _ _ ms
  | pmulm _ _ _ ms | nttf _ _ ms | ntti _ _ ms =>
    have hsel : selOfBits (selBits ms) = ms := selOfBits_selBits h
    simp only [fixed, List.forall_mem_cons] at hzero hop
    simp only [decode, hop, zeroAt, hzero]
    simp [ifReservedZero, encode, rdField, rs1Field, rs2Field, rs3Field, indexAt, imm8Field, selField, msField,
      formatR_fields, formatI_fields, selBits_lt, imm8_lt, hsel]

/-- Settles O1. -/
theorem decodeInvertsEncode : Obligations.DecodeInvertsEncode := fun _ h => decode_encode h

/-! Reserved bits. -/

/-- The mask of the `len`-bit field whose lowest bit is bit `lo`. -/
def fieldMask (lo len : Nat) : Word := (BitVec.allOnes len).setWidth 32 <<< lo

/-- The mask of several fields, given as (lowest bit, length). -/
def fieldsMask (zs : List (Nat × Nat)) : Word := zs.foldr (fun z mask => fieldMask z.1 z.2 ||| mask) 0

theorem testBit_bitsAt (w : Word) (lo len i : Nat) :
    (bitsAt w lo len).testBit i = (decide (i < len) && w.getLsbD (lo + i)) := by
  rw [bitsAt, Nat.testBit_mod_two_pow, Nat.testBit_div_two_pow, Nat.add_comm, BitVec.getLsbD]

theorem and_fieldMask_eq_zero_iff {lo len : Nat} (h : lo + len ≤ 32) (w : Word) :
    w &&& fieldMask lo len = 0 ↔ bitsAt w lo len = 0 := by
  constructor
  · refine fun hz => Nat.zero_of_testBit_eq_false fun i => ?_
    have hbit : (w &&& fieldMask lo len).getLsbD (lo + i) = false := by rw [hz]; simp
    rw [testBit_bitsAt]
    by_cases hi : i < len
    · simpa [fieldMask, hi, show lo + i < 32 by omega] using hbit
    · simp [hi]
  · refine fun hz => BitVec.eq_of_getLsbD_eq fun j hj => ?_
    by_cases hfield : lo ≤ j ∧ j - lo < len
    · have hbit := testBit_bitsAt w lo len (j - lo)
      simp only [hz, Nat.zero_testBit, hfield, decide_true, Bool.true_and, Nat.add_sub_cancel'] at hbit
      simp [← hbit]
    · have hmask : (fieldMask lo len).getLsbD j = false := by
        simp only [not_and, not_lt] at hfield
        simpa [fieldMask, hj] using hfield
      simp [hmask]

theorem and_fieldsMask_eq_zero_iff (w : Word) {zs : List (Nat × Nat)} (h : ∀ z ∈ zs, z.1 + z.2 ≤ 32) :
    w &&& fieldsMask zs = 0 ↔ ∀ z ∈ zs, bitsAt w z.1 z.2 = 0 := by
  induction zs with
  | nil => simp [fieldsMask]
  | cons z zs ih =>
    rw [List.forall_mem_cons] at h ⊢
    rw [← ih h.2, ← and_fieldMask_eq_zero_iff h.1, fieldsMask, List.foldr_cons, BitVec.and_or_distrib_left]
    exact BitVec.or_eq_zero_iff

/-- The rows of the opcode table are the opcode of a command with the mask of its reserved-zero fields. -/
theorem mem_reservedBits (i : Instr) : ((fixed i).1, fieldsMask (fixed i).2) ∈ reservedBits := by
  cases i <;> simp only [fixed] <;> decide

theorem fixed_fields_le (i : Instr) : ∀ z ∈ (fixed i).2, z.1 + z.2 ≤ 32 := by
  cases i <;> simp only [fixed] <;> decide

/-- An opcode has one row. -/
theorem reservedBits_unique : ∀ r ∈ reservedBits, ∀ r' ∈ reservedBits, r.1 = r'.1 → r = r' := by decide

theorem exists_row_iff {w : Word} {i : Instr} (hop : opField w = (fixed i).1) :
    (∃ row ∈ reservedBits, opField w = row.1 ∧ w &&& row.2 ≠ 0) ↔ ¬ ReservedZero w i := by
  rw [ReservedZero, ← and_fieldsMask_eq_zero_iff w (fixed_fields_le i)]
  constructor
  · rintro ⟨row, hrow, hr, hne⟩
    rwa [reservedBits_unique row hrow _ (mem_reservedBits i) (hr.symm.trans hop)] at hne
  · exact fun hne => ⟨_, mem_reservedBits i, hop, hne⟩

/-- Settles O3, by `decode_cases`. -/
theorem decoderRefusesExactlyIllegalWords : Obligations.DecoderRefusesExactlyIllegalWords := by
  intro w
  simp only [← opField_eq]
  rcases decode_cases w with ⟨hop, hd⟩ | ⟨i, ok, ⟨hop, hok, -, -⟩, hd⟩
  · have hrow : ¬ ∃ row ∈ reservedBits, opField w = row.1 ∧ w &&& row.2 ≠ 0 := by
      rintro ⟨row, hrow, hr, -⟩
      exact hop (hr ▸ List.mem_map_of_mem hrow)
    rw [hd, iff_true_intro hop, iff_false_intro hrow]
    simp
  · have hmem : opField w ∈ reservedBits.map Prod.fst := hop ▸ List.mem_map_of_mem (mem_reservedBits i)
    rw [exists_row_iff hop, ← hok, hd]
    cases ok <;> simp [ifReservedZero, hmem]

theorem perform_refused {w : Word} {e : DecodeError} (h : decode w = .error e) (s : State) :
    perform w s = .next (s.enterError (illegalError e)) := by
  simp only [perform, h]

/-- Settles O6: the pending word is performed, and the decoder refuses it. -/
theorem stepTakesIllegalError : Obligations.StepTakesIllegalError := by
  intro s w hr hturn hw
  obtain ⟨hunassigned, hreserved⟩ := decoderRefusesExactlyIllegalWords w
  let u : State := { s with schedule := s.schedule.tail }
  have refused {e : DecodeError} (hd : decode w = .error e) : step s = .next (u.enterError (illegalError e)) := by
    rw [step_pending hturn hr hw, perform_refused hd]
  have hu : u.pending = some w := hw
  refine ⟨fun hop => ?_, fun row hrow hop hne => ?_⟩
  · rw [refused (hunassigned.2 hop), State.enterError_eq hu]
    rfl
  · rw [refused (hreserved.2 ⟨row, hrow, hop, hne⟩), State.enterError_eq hu]
    rfl

end Sys2Proof.Machine
end

section
/-! The modulus selector of a command (30_encoding.md R101, R102): how the error of a check on it ends each command that has one,
and O32, O33 and O46, which follow. -/

namespace Sys2Proof.Machine

variable {s : State} {w : Word} {ms : ModSel} {c : CmdError}

/-! The classes of the selector. -/

theorem State.modulus_error (h : s.selected ms = .error c) : s.modulus ms = .error c := by
  simp [State.modulus, h]

theorem State.multiple_error (h : s.selected ms = .error c) : s.multiple ms = .error c := by
  simp [State.multiple, h]

theorem State.primeModulus_error (order : Nat) (h : s.modulus ms = .error c) : s.primeModulus ms order = .error c := by
  simp [State.primeModulus, h]

/-! The commands by the class of their selector, after the checks that come before it (60_exceptions.md R252). -/

/-- Class `mod` on scalar registers. -/
theorem exec_scalar_modulus_error (h : s.modulus ms = .error c) (d x : SReg) :
    ∀ i ∈ [Instr.modinv d x ms, .modred d x ms, .modctr d x ms], exec i s = .next (s.enterError c) := by
  simp [exec, execModinv, execModred, execModctr, h]

theorem exec_root_error {k : BitVec 8} (hk : k.toNat ≤ s.params.lognMax) (h : s.rootModulus ms k.toNat = .error c)
    (d : SReg) : exec (.root d ms k) s = .next (s.enterError c) := by
  simp [exec, execRoot, hk, h]

theorem exec_root_range {k : BitVec 8} (hk : ¬ k.toNat ≤ s.params.lognMax) (d : SReg) :
    exec (.root d ms k) s = .next (s.enterError (raised .badopnd 6)) := by
  simp [exec, execRoot, hk]

theorem exec_rndmul_multiple_error (h : s.multiple ms = .error c) (d x num den : SReg) :
    exec (.rndmul d x num den ms) s = .next (s.enterError c) := by
  simp [exec, execRndmul, h]

theorem exec_modget_error (h : s.selected ms = .error c) (d : SReg) : exec (.modget d ms) s = .next (s.enterError c) := by
  simp [exec, execModget, h]

section
variable {rd a b : PBuf} (hv : s.csr.pvalid = true) (hrd : HasBuffer s rd) (ha : HasBuffer s a)
include hv hrd ha

theorem State.mapLanes_modulus_error (h : s.modulus ms = .error c) (f : Int → Int → Int) :
    s.mapLanes rd a ms f = .error c := by
  simp [State.mapLanes, State.needBuffer_ok _ hrd, State.needBuffer_ok _ ha, State.needPn_ok hv, h]

theorem State.zipLanes_modulus_error (hb : HasBuffer s b) (h : s.modulus ms = .error c) (f : Int → Int → Int) :
    s.zipLanes rd a b ms f = .error c := by
  simp [State.zipLanes, State.needBuffer_ok _ hrd, State.needBuffer_ok _ ha, State.needBuffer_ok _ hb, State.needPn_ok hv, h]

/-- Class `mod` on buffers. -/
theorem exec_lanes_modulus_error (hb : HasBuffer s b) (h : s.modulus ms = .error c) (x : SReg) :
    ∀ i ∈ [Instr.pred rd a ms, .pctr rd a ms, .paddm rd a b ms, .psubm rd a b ms, .pnegm rd a ms, .pscalm rd a x ms,
      .pmulew rd a b ms, .pmulm rd a b ms], exec i s = .next (s.enterError c) := by
  have hmap := State.mapLanes_modulus_error hv hrd ha h
  have hzip := State.zipLanes_modulus_error hv hrd ha hb h
  have hpmulm : execPmulm rd a b ms s = .next (s.enterError c) := by
    simp [execPmulm, State.needBuffer_ok _ hrd, State.needBuffer_ok _ ha, State.needBuffer_ok _ hb, State.needPn_ok hv, h]
  simp [exec, execPred, execPctr, execPaddm, execPsubm, execPnegm, execPscalm, execPmulew, hmap, hzip, hpmulm]

/-- Class `ntt`. -/
theorem exec_transform_error (h : s.nttModulus ms = .error c) :
    ∀ i ∈ [Instr.nttf rd a ms, .ntti rd a ms], exec i s = .next (s.enterError c) := by
  simp [exec, execNttf, execNtti, State.needBuffer_ok _ hrd, State.needBuffer_ok _ ha, State.needPn_ok hv, h]

/-- Class `b` on buffers. -/
theorem exec_prndmul_multiple_error (h : s.multiple ms = .error c) (num den : SReg) :
    exec (.prndmul rd a num den ms) s = .next (s.enterError c) := by
  simp [exec, execPrndmul, State.needBuffer_ok _ hrd, State.needBuffer_ok _ ha, State.needPn_ok hv, h]

end

/-! The statements. -/

/-- The engine's test decides R11's notion of a prime. -/
theorem isPrime_iff_isPrime (n : Nat) : isPrime n = true ↔ IsPrime n :=
  (isPrime_eq_true_iff n).trans (isPrime_iff_natPrime n).symm

/-- Settles O32: each class of the selector passes the error of R102's checks 1 to 3 on, and so does each command. -/
theorem selectorErrorsAreRaised : Obligations.SelectorErrorsAreRaised := by
  intro s w rd a b d x y z ms k e hw he
  obtain ⟨c, hselected, hcode, hsub, hidx⟩ := State.selected_error he
  have hentry : s.enterError c = afterError s w e.1 e.2 0 := by
    rw [State.enterError_eq hw, hcode, hsub, hidx]
    rfl
  have hmodulus := State.modulus_error hselected
  have hmultiple := State.multiple_error hselected
  rw [← hentry]
  refine ⟨?_, fun hk => exec_root_error hk (State.primeModulus_error _ hmodulus) d, fun hv hrd ha hb => ?_⟩
  · have hmod := exec_scalar_modulus_error hmodulus d x
    simp only [List.forall_mem_cons] at hmod ⊢
    simp [hmod, exec_rndmul_multiple_error hmultiple, exec_modget_error hselected]
  · have hmod := exec_lanes_modulus_error hv hrd ha hb hmodulus x
    have hntt := exec_transform_error hv hrd ha (State.primeModulus_error _ hmodulus)
    simp only [List.forall_mem_cons] at hmod hntt ⊢
    simp [hmod, hntt, exec_prndmul_multiple_error hv hrd ha hmultiple]

/-- Settles O33: the value checks of R102 in their order, passed on by every command of the class. -/
theorem unfitModulusIsRefused : Obligations.UnfitModulusIsRefused := by
  intro s w rd a b d x ms k m hw
  have entered {i : Instr} (code : ErrCode) (sub : BitVec 8) (h : exec i s = .next (s.enterError (raised code sub))) :
      exec i s = .next (afterError s w (codeBits code) sub.toNat 0) := by
    rw [h, State.enterError_eq hw]
    rfl
  have two_le (hp : IsPrime m.toNat) : 2 ≤ m := by
    have := hp.1
    omega
  have prime (hp : IsPrime m.toNat) : isPrime m.toNat = true := (isPrime_iff_isPrime _).2 hp
  have composite (hp : ¬ IsPrime m.toNat) : isPrime m.toNat = false := by
    rwa [Bool.eq_false_iff, Ne, isPrime_iff_isPrime]
  refine ⟨fun hk => entered .badopnd 6 (exec_root_range hk d), fun hm =>
    ⟨fun h2 i hi => ?scalars, fun hk => ?root, fun hv hrd ha hb => ?lanes⟩⟩
  case scalars => exact entered .badmod 3 (exec_scalar_modulus_error (State.modulus_small hm h2) d x i hi)
  case root =>
    refine ⟨fun h2 => ?_, fun h2 hp => ?_, fun hp ho => ?_⟩
    · exact entered .badmod 3 (exec_root_error hk (State.primeModulus_small hm h2) d)
    · exact entered .badmod 4 (exec_root_error hk (State.primeModulus_composite hm h2 (composite hp)) d)
    · exact entered .badmod 5 (exec_root_error hk (State.primeModulus_unfit hm (two_le hp) (prime hp) ho) d)
  case lanes =>
    have transforms {c : CmdError} (h : s.nttModulus ms = .error c) := exec_transform_error hv hrd ha h
    have horder : 2 * s.pn = 2 ^ (s.par.pLogn.toNat + 1) := (pow_succ' 2 _).symm
    refine ⟨fun h2 => ?_, fun h2 hp i hi => ?_, fun hp ho i hi => ?_⟩
    · have hmod := exec_lanes_modulus_error hv hrd ha hb (State.modulus_small hm h2) x
      have hntt := transforms (State.primeModulus_small hm h2)
      exact fun i hi => entered .badmod 3 (List.forall_mem_append.2 ⟨hmod, hntt⟩ i hi)
    · exact entered .badmod 4 (transforms (State.primeModulus_composite hm h2 (composite hp)) i hi)
    · exact entered .badmod 5 (transforms (State.primeModulus_unfit hm (two_le hp) (prime hp) (horder ▸ ho)) i hi)

/-- Settles O46. -/
theorem modgetCopiesModulus : Obligations.ModgetCopiesModulus := by
  intro s rd ms v hv
  refine ⟨(s.writeScalar rd v).complete, ?_, s.scalarWritten rd v⟩
  simp [exec, execModget, State.selected_ok hv]

end Sys2Proof.Machine
end

section
/-! The transforms (43_ntt.md R190 to R199): inverses and canonical roots as the model computes them, the sums of R193 and R195
in the field of integers modulo a prime, and O55, which follows. -/

namespace Sys2Proof.Machine

/-! Inverses modulo `m` (40_number_theory.md R125). -/

/-- The invariant of Euclid's algorithm: each remainder is its cofactor times `x`, and so is the last one, their gcd. -/
theorem euclidCofactor_spec {R : Type} [CommRing R] {x : R} {fuel r0 r1 : Nat} {s0 s1 : Int} (h0 : (r0 : R) = s0 * x)
    (h1 : (r1 : R) = s1 * x) (hfuel : r1 < fuel) :
    ((Nat.gcd r0 r1 : Nat) : R) = euclidCofactor fuel r0 r1 s0 s1 * x := by
  induction fuel generalizing r0 r1 s0 s1 with
  | zero => omega
  | succ fuel ih =>
    rw [euclidCofactor]
    split
    · rename_i hr1
      rw [hr1, Nat.gcd_zero_right, h0]
    · rename_i hr1
      have hdiv : ((r0 % r1 : Nat) : R) + r1 * (r0 / r1 : Nat) = r0 := by exact_mod_cast congrArg _ (Nat.mod_add_div r0 r1)
      have hmod : ((r0 % r1 : Nat) : R) = ((s0 - (r0 / r1 : Nat) * s1 : Int) : R) * x := by
        rw [Int.cast_sub, Int.cast_mul, Int.cast_natCast]
        linear_combination hdiv + h0 - (r0 / r1 : Nat) * h1
      have hlt : r0 % r1 < fuel := (Nat.mod_lt r0 (by omega)).trans_le (by omega)
      rw [← ih h1 hmod hlt, Nat.gcd_comm r0, Nat.gcd_rec, Nat.gcd_comm]

theorem inverse_mul {n m : Nat} (hm : 0 < m) (h : Nat.gcd n m = 1) : (inverse n m : ZMod m) * n = 1 := by
  have hgcd : Nat.gcd m (n % m) = 1 := by rw [Nat.gcd_comm, ← Nat.gcd_rec, Nat.gcd_comm, h]
  have hcofactor := euclidCofactor_spec (R := ZMod m) (x := n) (fuel := m + 1) (r0 := m) (r1 := n % m) (s0 := 0) (s1 := 1)
    (by simp) (by simp) (by have := Nat.mod_lt n hm; omega)
  have hnonneg := Int.emod_nonneg (euclidCofactor (m + 1) m (n % m) 0 1) (show (m : Int) ≠ 0 by omega)
  have hcast : (inverse n m : ZMod m) = euclidCofactor (m + 1) m (n % m) 0 1 := by
    rw [inverse, ← Int.cast_natCast, Int.toNat_of_nonneg hnonneg, ZMod.intCast_mod]
  rw [hcast, ← hcofactor, hgcd, Nat.cast_one]

/-- Modulo a prime the model's inverse is that of the field. -/
theorem inverse_eq_inv {n q : Nat} [Fact q.Prime] (h : (n : ZMod q) ≠ 0) : (inverse n q : ZMod q) = (n : ZMod q)⁻¹ := by
  have hq : q.Prime := Fact.out
  refine eq_inv_of_mul_eq_one_left (inverse_mul hq.pos ?_)
  rw [Nat.gcd_comm]
  exact (Nat.Prime.coprime_iff_not_dvd hq).2 fun hdvd => h ((ZMod.natCast_eq_zero_iff _ _).2 hdvd)

/-! Canonical roots (R190). -/

/-- The search for a root answers the first one, where there is one among its candidates. -/
theorem rootFrom_spec {m k fuel c x : Nat} (hc : c ≤ x) (hfuel : x < c + fuel) (hx : x ^ 2 ^ k % m = m - 1) :
    c ≤ rootFrom m k fuel c ∧ rootFrom m k fuel c ≤ x ∧ rootFrom m k fuel c ^ 2 ^ k % m = m - 1 ∧
      ∀ y, c ≤ y → y < rootFrom m k fuel c → y ^ 2 ^ k % m ≠ m - 1 := by
  induction fuel generalizing c with
  | zero => omega
  | succ fuel ih =>
    rw [rootFrom, powMod_eq]
    split
    · rename_i hroot
      exact ⟨le_rfl, hc, by simpa using hroot, fun y hy hlt => absurd hy (by omega)⟩
    · rename_i hroot
      have hroot : c ^ 2 ^ k % m ≠ m - 1 := by simpa using hroot
      have hne : c ≠ x := fun heq => hroot (heq ▸ hx)
      obtain ⟨hge, hle, hpow, hfirst⟩ := ih (c := c + 1) (by omega) (by omega)
      refine ⟨by omega, hle, hpow, fun y hy hlt => ?_⟩
      rcases Nat.eq_or_lt_of_le hy with rfl | hy
      · exact hroot
      · exact hfirst y hy hlt

section
variable {q k : Nat} [Fact q.Prime]

theorem natCast_pow_eq_neg_one_iff {x e : Nat} : (x : ZMod q) ^ e = -1 ↔ x ^ e % q = q - 1 := by
  have hq : 0 < q := (Fact.out : q.Prime).pos
  have hneg : (-1 : ZMod q) = ((q - 1 : Nat) : ZMod q) := by simp [Nat.cast_sub (Nat.one_le_of_lt hq)]
  rw [hneg, ← Nat.cast_pow, ZMod.natCast_eq_natCast_iff', Nat.mod_eq_of_lt (a := q - 1) (by omega)]

/-- The units modulo `q` are cyclic of order `q - 1`, which `2^(k+1)` divides: so `-1` is a `2^k`-th power. -/
theorem exists_pow_eq_neg_one (h : q % 2 ^ (k + 1) = 1) : ∃ u : ZMod q, u ^ 2 ^ k = -1 := by
  obtain ⟨g, hg⟩ := IsCyclic.exists_ofOrder_eq_natCard (α := (ZMod q)ˣ)
  have hprim : IsPrimitiveRoot (g : ZMod q) (q - 1) := by
    rw [IsPrimitiveRoot.coe_units_iff, IsPrimitiveRoot.iff_orderOf, hg, Nat.card_eq_fintype_card, ZMod.card_units]
  have hq : 1 < q := (Fact.out : q.Prime).one_lt
  have hsplit : q - 1 = q / 2 ^ (k + 1) * 2 ^ k * 2 := by
    have := Nat.div_add_mod' q (2 ^ (k + 1))
    rw [mul_assoc, ← pow_succ]
    omega
  refine ⟨g ^ (q / 2 ^ (k + 1)), ?_⟩
  rw [← pow_mul]
  exact (hprim.pow (by omega) hsplit).eq_neg_one_of_two_right

/-- The canonical root exists, and the model's search finds it (R190). -/
theorem canonicalRoot_spec (h : q % 2 ^ (k + 1) = 1) : IsCanonicalRoot (canonicalRoot q k) q k := by
  obtain ⟨u, hu⟩ := exists_pow_eq_neg_one h
  have hq : 1 < q := (Fact.out : q.Prime).one_lt
  have hpow : u.val ^ 2 ^ k % q = q - 1 := natCast_pow_eq_neg_one_iff.1 (by rwa [ZMod.natCast_zmod_val])
  have hpos : 1 ≤ u.val := by
    rw [Nat.one_le_iff_ne_zero, Ne, ZMod.val_eq_zero]
    rintro rfl
    simp at hu
  have hlt := ZMod.val_lt u
  obtain ⟨hge, hle, hroot, hfirst⟩ := rootFrom_spec hpos (show u.val < 1 + (q - 1) by omega) hpow
  exact ⟨hge, hle.trans (by omega), hroot, hfirst⟩

/-- The canonical root in the field has order `2N`. -/
theorem canonicalRoot_isPrimitiveRoot (h : q % 2 ^ (k + 1) = 1) :
    IsPrimitiveRoot (canonicalRoot q k : ZMod q) (2 * 2 ^ k) := by
  obtain ⟨-, -, hroot, -⟩ := canonicalRoot_spec h
  have hneg := natCast_pow_eq_neg_one_iff.2 hroot
  have htwo : 2 < q := by
    have hodd : q % 2 = 1 := by rw [← Nat.mod_mod_of_dvd q (dvd_pow_self 2 k.succ_ne_zero), h]
    have := (Fact.out : q.Prime).two_le
    omega
  have hne : (-1 : ZMod q) ≠ 1 := by
    have := Fact.mk htwo
    exact ZMod.neg_one_ne_one
  rw [← pow_succ', IsPrimitiveRoot.iff_orderOf]
  refine orderOf_eq_prime_pow (hneg ▸ hne) ?_
  rw [pow_succ, pow_mul, hneg, neg_one_sq]

end

/-! The sums of the transforms (R193, R195) in a field. -/

/-- The transform depends on its operand modulo `q` only. -/
theorem ntt_congr {q k : Nat} {a b : Nat → Int} (h : ∀ j < 2 ^ k, a j % q = b j % q) (i : Nat) :
    ntt a q k i = ntt b q k i := by
  unfold ntt nttPoint
  rw [sumTo_eq_sum, sumTo_eq_sum, Finset.sum_congr rfl fun j hj => by rw [h j (Finset.mem_range.1 hj)]]

/-- The rows of the two transforms are orthogonal: the product of row `i` and column `l` is a geometric sum of powers of an `n`-th
root of unity, and that root is 1 only for `i = l`. -/
theorem sum_rootPow_mul_invPow {F : Type} [Field F] {psi : F} {n i l : Nat} (hpsi : IsPrimitiveRoot psi (2 * n))
    (hi : i < n) (hl : l < n) :
    ∑ j ∈ Finset.range n, psi ^ ((2 * i + 1) * j) * psi⁻¹ ^ ((2 * l + 1) * j) = if i = l then (n : F) else 0 := by
  have hne : psi ≠ 0 := hpsi.ne_zero (by omega)
  let x := psi ^ (2 * i + 1) * psi⁻¹ ^ (2 * l + 1)
  have hterm (j : Nat) : psi ^ ((2 * i + 1) * j) * psi⁻¹ ^ ((2 * l + 1) * j) = x ^ j := by
    rw [mul_pow, pow_mul, pow_mul]
  have hx : x = 1 ↔ i = l := by
    rw [show x = psi ^ (2 * i + 1) / psi ^ (2 * l + 1) by simp [x, div_eq_mul_inv], div_eq_one_iff_eq (pow_ne_zero _ hne)]
    constructor
    · intro heq
      have := hpsi.pow_inj (by omega) (by omega) heq
      omega
    · rintro rfl
      rfl
  have hpow : x ^ n = 1 := by
    have hrow (r : Nat) {y : F} (hy : y ^ (2 * n) = 1) : (y ^ (2 * r + 1)) ^ n = y ^ n := by
      rw [← pow_mul, show (2 * r + 1) * n = 2 * n * r + n by ring, pow_add, pow_mul, hy, one_pow, one_mul]
    rw [mul_pow, hrow i hpsi.pow_eq_one, hrow l (by rw [inv_pow, hpsi.pow_eq_one, inv_one]), ← mul_pow, mul_inv_cancel₀ hne,
      one_pow]
  simp only [hterm]
  by_cases hil : i = l
  · simp [hx.2 hil, hil]
  · have hgeom := mul_geom_sum x n
    rw [hpow, sub_self] at hgeom
    rw [if_neg hil]
    exact (mul_eq_zero.1 hgeom).resolve_left (sub_ne_zero.2 fun h => hil (hx.1 h))

theorem natCast_ne_zero_of_isPrimitiveRoot {F : Type} [Field F] {psi : F} {n : Nat} [NeZero n]
    (hpsi : IsPrimitiveRoot psi (2 * n)) : (n : F) ≠ 0 := by
  have h : ((2 * n : Nat) : F) ≠ 0 := hpsi.neZero'.out
  rw [Nat.cast_mul] at h
  exact right_ne_zero_of_mul h

/-- The forward sum of the scaled inverse sums gives an entry back. -/
theorem forward_inverse_sum {F : Type} [Field F] {psi : F} {n i : Nat} [NeZero n] (hpsi : IsPrimitiveRoot psi (2 * n))
    (a : Nat → F) (hi : i < n) :
    ∑ j ∈ Finset.range n, (n : F)⁻¹ * (∑ l ∈ Finset.range n, a l * psi⁻¹ ^ ((2 * l + 1) * j)) * psi ^ ((2 * i + 1) * j) =
      a i := by
  have hn := natCast_ne_zero_of_isPrimitiveRoot hpsi
  calc _ = (n : F)⁻¹ *
        ∑ l ∈ Finset.range n, a l * ∑ j ∈ Finset.range n, psi ^ ((2 * i + 1) * j) * psi⁻¹ ^ ((2 * l + 1) * j) := by
        simp only [Finset.mul_sum, Finset.sum_mul]
        rw [Finset.sum_comm]
        exact Finset.sum_congr rfl fun l _ => Finset.sum_congr rfl fun j _ => by ring
    _ = (n : F)⁻¹ * ∑ l ∈ Finset.range n, a l * if i = l then (n : F) else 0 := by
        congr 1
        exact Finset.sum_congr rfl fun l hl => by rw [sum_rootPow_mul_invPow hpsi hi (Finset.mem_range.1 hl)]
    _ = (n : F)⁻¹ * (a i * n) := by
        simp only [mul_ite, mul_zero, Finset.sum_ite_eq, Finset.mem_range, hi, if_true]
    _ = a i := by rw [mul_comm (a i), inv_mul_cancel_left₀ hn]

section
variable {q k : Nat} [Fact q.Prime]

theorem ntt_cast (a : Nat → Int) (i : Nat) :
    (ntt a q k i : ZMod q) =
      ∑ j ∈ Finset.range (2 ^ k), (a j : ZMod q) * (canonicalRoot q k : ZMod q) ^ ((2 * i + 1) * j) := by
  simp [ntt, nttPoint, sumTo_eq_sum, powMod_eq, ZMod.intCast_mod]

theorem intt_cast (h : q % 2 ^ (k + 1) = 1) (a : Nat → Int) (j : Nat) :
    (intt a q k j : ZMod q) = ((2 ^ k : Nat) : ZMod q)⁻¹ *
      ∑ i ∈ Finset.range (2 ^ k), (a i : ZMod q) * (canonicalRoot q k : ZMod q)⁻¹ ^ ((2 * i + 1) * j) := by
  have hprim := canonicalRoot_isPrimitiveRoot h
  rw [← inverse_eq_inv (hprim.ne_zero (by positivity)), ← inverse_eq_inv]
  · simp [intt, inttPoint, sumTo_eq_sum, powMod_eq, ZMod.intCast_mod]
  · exact natCast_ne_zero_of_isPrimitiveRoot hprim

/-- The forward transform undoes the inverse one modulo `q` (R197). -/
theorem ntt_intt (h : q % 2 ^ (k + 1) = 1) (a : Nat → Int) {i : Nat} (hi : i < 2 ^ k) :
    ntt (intt a q k) q k i = a i % q := by
  have hprim := canonicalRoot_isPrimitiveRoot h
  have hcast : (ntt (intt a q k) q k i : ZMod q) = a i := by
    rw [ntt_cast, ← forward_inverse_sum hprim (fun l => (a l : ZMod q)) hi]
    exact Finset.sum_congr rfl fun j _ => by rw [intt_cast h]
  have hmod : ntt (intt a q k) q k i % q = ntt (intt a q k) q k i := Int.emod_emod_of_dvd _ dvd_rfl
  rw [← hmod, ← ZMod.intCast_eq_intCast_iff', hcast]

end

/-! The half-range reduction (40_number_theory.md R135). -/

theorem ctr_range (x : Int) {m : Int} (hm : 0 < m) : -m < 2 * ctr x m ∧ 2 * ctr x m ≤ m := by
  have h0 := Int.emod_nonneg x hm.ne'
  have hlt := Int.emod_lt_of_pos x hm
  unfold ctr
  split <;> omega

theorem ctr_emod (x m : Int) : ctr x m % m = x % m := by
  unfold ctr
  split
  · rw [Int.sub_emod_right, Int.emod_emod_of_dvd _ dvd_rfl]
  · exact Int.emod_emod_of_dvd _ dvd_rfl

/-! The commands of `encode` and `decode` (30_encoding.md R117). -/

section
variable {s : State} {rd a : PBuf} {ms : ModSel} {m : Int}

theorem State.nttModulus_ok (hm : Selects s ms m) (hp : IsPrime m.toNat)
    (ho : m.toNat % 2 ^ (s.par.pLogn.toNat + 1) = 1) : s.nttModulus ms = .ok m.toNat := by
  have h2 : 2 ≤ m := by
    have := hp.1
    omega
  have horder : 2 * s.pn = 2 ^ (s.par.pLogn.toNat + 1) := (pow_succ' 2 _).symm
  exact State.primeModulus_ok hm h2 ((isPrime_iff_isPrime _).2 hp) (horder ▸ ho)

variable (hrd : HasBuffer s rd) (ha : HasBuffer s a) (hv : s.csr.pvalid = true)
include hrd ha hv

theorem exec_nttf_ok (hm : Selects s ms m) (hp : IsPrime m.toNat) (ho : m.toNat % 2 ^ (s.par.pLogn.toNat + 1) = 1) :
    exec (.nttf rd a ms) s = .next (s.writeLanes rd s.pn (ntt (s.coeff a) m.toNat s.par.pLogn.toNat)).complete := by
  simp [exec, execNttf, State.needBuffer_ok _ hrd, State.needBuffer_ok _ ha, State.needPn_ok hv,
    State.nttModulus_ok hm hp ho]

theorem exec_ntti_ok (hm : Selects s ms m) (hp : IsPrime m.toNat) (ho : m.toNat % 2 ^ (s.par.pLogn.toNat + 1) = 1) :
    exec (.ntti rd a ms) s = .next (s.writeLanes rd s.pn (intt (s.coeff a) m.toNat s.par.pLogn.toNat)).complete := by
  simp [exec, execNtti, State.needBuffer_ok _ hrd, State.needBuffer_ok _ ha, State.needPn_ok hv,
    State.nttModulus_ok hm hp ho]

theorem exec_pctr_ok (hm : Selects s ms m) (h2 : 2 ≤ m) :
    exec (.pctr rd a ms) s = .next (s.writeLanes rd s.pn fun j => ctr (s.coeff a j) m).complete := by
  simp [exec, execPctr, State.mapLanes_ok ctr hrd ha hv hm h2]

theorem exec_pred_ok (hm : Selects s ms m) (h2 : 2 ≤ m) :
    exec (.pred rd a ms) s = .next (s.writeLanes rd s.pn fun j => red (s.coeff a j) m).complete := by
  simp [exec, execPred, State.mapLanes_ok red hrd ha hv hm h2]

end

@[simp] theorem State.coeff_complete (s : State) (b : PBuf) (j : Nat) : s.complete.coeff b j = s.coeff b j := rfl

theorem State.coeff_written (s : State) (rd : PBuf) {n j : Nat} (f : Nat → Int) (hj : j < n) :
    (s.writeLanes rd n f).complete.coeff rd j = f j := by
  rw [State.coeff_complete, State.coeff_writeLanes, if_pos ⟨rfl, hj⟩]

/-- Settles O55: the half-range values lie in the class modulo `t` of the inverse transform's, and the forward transform undoes
the inverse one modulo `t` (`ntt_intt`). -/
theorem decodeReturnsEncodedMessage : Obligations.DecodeReturnsEncodedMessage := by
  intro s d e a hd he ha hv hvalid
  obtain ⟨-, -, -, ⟨ht0, hp, ho, -⟩, -⟩ := hvalid
  have : Fact s.par.t.toNat.Prime := ⟨(isPrime_iff_natPrime _).1 hp⟩
  have h2 : 2 ≤ s.par.t := by
    have := hp.1
    omega
  have hsel : Selects s .t s.par.t := ⟨hv, rfl⟩
  let q := s.par.t.toNat
  have hq : (q : Int) = s.par.t := Int.toNat_of_nonneg ht0
  let k := s.par.pLogn.toNat
  let s1 := (s.writeLanes d s.pn (intt (s.coeff a) q k)).complete
  let s2 := (s1.writeLanes d s1.pn fun j => ctr (s1.coeff d j) s.par.t).complete
  let s3 := (s2.writeLanes e s2.pn fun j => red (s2.coeff d j) s.par.t).complete
  let s4 := (s3.writeLanes e s3.pn (ntt (s3.coeff e) q k)).complete
  refine ⟨s1, s2, s3, s4, exec_ntti_ok hd ha hv hsel hp ho, exec_pctr_ok hd hd hv hsel h2, exec_pred_ok he hd hv hsel h2,
    exec_nttf_ok he he hv hsel hp ho, fun j hj => ?_⟩
  have hs1 {l : Nat} (hl : l < 2 ^ k) : s1.coeff d l = intt (s.coeff a) q k l := State.coeff_written s d _ hl
  have hs2 {l : Nat} (hl : l < 2 ^ k) : s2.coeff d l = ctr (s1.coeff d l) s.par.t := State.coeff_written s1 d _ hl
  have hs3 {l : Nat} (hl : l < 2 ^ k) : s3.coeff e l = red (s2.coeff d l) s.par.t := State.coeff_written s2 e _ hl
  have hs4 : s4.coeff e j = ntt (s3.coeff e) q k j := State.coeff_written s3 e _ hj
  have hclass : ∀ l < 2 ^ k, s3.coeff e l % q = intt (s.coeff a) q k l % q := fun l hl => by
    rw [hs3 hl, hs2 hl, hs1 hl, red, hq, Int.emod_emod_of_dvd _ dvd_rfl, ctr_emod]
  have hentry : s4.coeff e j = s.coeff a j % s.par.t := by
    rw [hs4, ntt_congr hclass, ntt_intt ho _ hj, hq]
  exact ⟨hentry, hs2 hj ▸ ctr_range _ (by omega)⟩

end Sys2Proof.Machine
end

section
/-! O4. Words of the spec's examples (30_encoding.md R91, R92, R95, R101, R104). -/

namespace Sys2Proof.Machine

/-- Settles O4, word by word. -/
theorem exampleWordsDecode : Obligations.ExampleWordsDecode := by
  unfold Obligations.ExampleWordsDecode
  decide

end Sys2Proof.Machine
end

section
/-! The prime search (40_number_theory.md R120 to R124): the scan answers exactly the smallest sought primes where they fit,
and O34 to O37, which follow. -/

namespace Sys2Proof.Machine

/-! The smallest sought primes, candidate by candidate. -/

section
variable {lo lo' c m x : Nat} {r : List Nat}

/-- The next sought prime from a candidate on is the candidate itself or a sought prime from the next candidate on. -/
theorem soughtPrime_iff_next (hc : c % m = 1 % m) :
    SoughtPrime c m x ↔ (x = c ∧ IsPrime c) ∨ SoughtPrime (c + m) m x := by
  constructor
  · rintro ⟨hge, hres, hprime⟩
    by_cases hx : x = c
    · exact .inl ⟨hx, hx ▸ hprime⟩
    · obtain ⟨d, hd⟩ : m ∣ x - c := (Nat.modEq_iff_dvd' hge).1 (hc.trans hres.symm)
      have hstep : m ≤ x - c := Nat.le_of_dvd (by omega) ⟨d, hd⟩
      exact .inr ⟨by omega, hres, hprime⟩
  · rintro (⟨rfl, hprime⟩ | ⟨hge, hres, hprime⟩)
    · exact ⟨le_rfl, hc, hprime⟩
    · exact ⟨by omega, hres, hprime⟩

/-- Only which primes are sought matters to which are the smallest. -/
theorem smallestSought_congr (h : ∀ x, SoughtPrime lo m x ↔ SoughtPrime lo' m x) :
    SmallestSought lo m r ↔ SmallestSought lo' m r := by
  simp only [SmallestSought, h]

/-- A candidate that is prime is the first of the list. -/
theorem smallestSought_cons_iff (hm : 0 < m) (hc : c % m = 1 % m) (hprime : IsPrime c) :
    SmallestSought c m (x :: r) ↔ x = c ∧ SmallestSought (c + m) m r := by
  have hsought : SoughtPrime c m c := ⟨le_rfl, hc, hprime⟩
  constructor
  · rintro ⟨hsorted, hmem, hleast⟩
    obtain ⟨habove, hsorted⟩ := List.pairwise_cons.1 hsorted
    obtain ⟨⟨hx, -, -⟩, hmem⟩ := List.forall_mem_cons.1 hmem
    obtain rfl : x = c := by
      rcases hleast c hsought with hin | hlt
      · rcases List.mem_cons.1 hin with heq | hin
        · exact heq.symm
        · exact absurd (habove c hin) (by omega)
      · exact absurd (hlt x (by simp)) (by omega)
    refine ⟨rfl, hsorted, fun p hp => ?_, fun p hp => ?_⟩
    · have hne : p ≠ x := (habove p hp).ne'
      exact ((soughtPrime_iff_next hc).1 (hmem p hp)).resolve_left fun h => hne h.1
    · have hne : p ≠ x := by
        have := hp.1
        omega
      rcases hleast p ((soughtPrime_iff_next hc).2 (.inr hp)) with hin | hlt
      · exact .inl ((List.mem_cons.1 hin).resolve_left hne)
      · exact .inr fun y hy => hlt y (List.mem_cons_of_mem _ hy)
  · rintro ⟨rfl, hsorted, hmem, hleast⟩
    refine ⟨List.pairwise_cons.2 ⟨fun p hp => ?_, hsorted⟩, List.forall_mem_cons.2 ⟨hsought, fun p hp => ?_⟩, fun p hp => ?_⟩
    · have := (hmem p hp).1
      omega
    · exact (soughtPrime_iff_next hc).2 (.inr (hmem p hp))
    · rcases (soughtPrime_iff_next hc).1 hp with ⟨rfl, -⟩ | hp
      · exact .inl List.mem_cons_self
      · rcases hleast p hp with hin | hlt
        · exact .inl (List.mem_cons_of_mem _ hin)
        · have := hp.1
          exact .inr (List.forall_mem_cons.2 ⟨by omega, hlt⟩)

/-- A candidate that is not prime is passed over. -/
theorem smallestSought_skip_iff (hc : c % m = 1 % m) (hprime : ¬ IsPrime c) :
    SmallestSought c m r ↔ SmallestSought (c + m) m r :=
  smallestSought_congr fun _ => (soughtPrime_iff_next hc).trans (or_iff_right fun h => hprime h.2)

end

/-! The search. -/

section
variable {top m fuel c need : Nat} {r : List Nat}

theorem scanPrimes_zero_need (top m fuel c : Nat) : scanPrimes top m fuel c 0 = some [] := by
  cases fuel <;> rfl

/-- Past `top` nothing is left to list. -/
theorem smallestSought_not_le (h : top < c) (hr : r.length = need + 1) :
    ¬ (SmallestSought c m r ∧ ∀ x ∈ r, x ≤ top) := by
  rintro ⟨⟨-, hmem, -⟩, hle⟩
  obtain ⟨x, hx⟩ := List.exists_mem_of_length_pos (l := r) (by omega)
  exact absurd ((hmem x hx).1.trans (hle x hx)) (by omega)

/-- With enough fuel the scan answers exactly the `need` smallest sought primes, when they are at most `top`. -/
theorem scanPrimes_eq_some_iff (hm : 0 < m) (hc : c % m = 1 % m) (hfuel : top < c + fuel) :
    scanPrimes top m fuel c need = some r ↔ r.length = need ∧ SmallestSought c m r ∧ ∀ x ∈ r, x ≤ top := by
  induction fuel, c, need using scanPrimes.induct top m generalizing r with
  | case1 fuel c =>
    rw [scanPrimes_zero_need, Option.some_inj, List.length_eq_zero_iff, eq_comm]
    refine ⟨?_, fun h => h.1⟩
    rintro rfl
    simp [SmallestSought]
  | case2 c need =>
    simpa only [scanPrimes, reduceCtorEq, false_iff, not_and] using smallestSought_not_le (by omega)
  | case3 fuel c need htop =>
    simpa only [scanPrimes, htop, if_true, reduceCtorEq, false_iff, not_and] using smallestSought_not_le htop
  | case4 fuel c need htop hprime ih =>
    rw [scanPrimes, if_neg htop, if_pos hprime, Option.map_eq_some_iff]
    simp only [ih ((Nat.add_mod_right c m).trans hc) (by omega)]
    cases r with
    | nil => simp
    | cons x r =>
      rw [smallestSought_cons_iff hm hc ((isPrime_iff_isPrime c).1 hprime), List.forall_mem_cons, List.length_cons]
      constructor
      · rintro ⟨r, ⟨rfl, hsought, hle⟩, ⟨⟩⟩
        exact ⟨rfl, ⟨rfl, hsought⟩, by omega, hle⟩
      · rintro ⟨hlen, ⟨rfl, hsought⟩, -, hle⟩
        exact ⟨r, ⟨by omega, hsought, hle⟩, rfl⟩
  | case5 fuel c need htop hprime ih =>
    rw [scanPrimes, if_neg htop, if_neg hprime, smallestSought_skip_iff hc fun h => hprime ((isPrime_iff_isPrime c).2 h)]
    exact ih ((Nat.add_mod_right c m).trans hc) (by omega)

end

/-- The first candidate is the first number `≡ 1 (mod m)` from `2^nb` on. -/
theorem firstCandidate_le_iff {nb m x : Nat} (hm : 0 < m) (hx : 1 ≤ x) (hres : x % m = 1 % m) :
    firstCandidate nb m ≤ x ↔ 2 ^ nb ≤ x := by
  obtain ⟨d, hd⟩ : m ∣ x - 1 := (Nat.modEq_iff_dvd' hx).1 hres.symm
  have hceil := Nat.div_le_iff_le_mul_add_pred hm (a := 2 ^ nb - 1 + (m - 1)) (c := d)
  rw [← Nat.mul_le_mul_left_iff hm] at hceil
  rw [firstCandidate]
  omega

/-- The scan passes over no sought prime (R120). -/
theorem soughtPrime_iff_firstCandidate {nb m x : Nat} (hm : 0 < m) :
    SoughtPrime (2 ^ nb) m x ↔ SoughtPrime (firstCandidate nb m) m x :=
  and_congr_left fun ⟨hres, h2, _⟩ => (firstCandidate_le_iff hm (Nat.le_of_lt h2) hres).symm

theorem firstCandidate_mod (nb m : Nat) : firstCandidate nb m % m = 1 % m := by
  rw [firstCandidate, Nat.mul_add_mod]

variable {p : Config.Params}

theorem le_limit_iff_fits {n : Nat} : n ≤ limit p ↔ Fits p n := by
  refine ⟨fits_of_le_limit, fun h => ?_⟩
  have := fits_iff.2 h
  simp only [fits, Bool.and_eq_true, decide_eq_true_eq] at this
  omega

/-- The search answers exactly the `qty` smallest sought primes, when all of them fit (R120, R122). -/
theorem primeSearch_eq_some_iff {nb m qty : Nat} {r : List Nat} (hm : 0 < m) (hqty : 1 ≤ qty) :
    primeSearch p nb m qty = some r ↔
      r.length = qty ∧ SmallestSought (2 ^ nb) m r ∧ ∀ x ∈ r, Fits p x := by
  simp only [← le_limit_iff_fits]
  unfold primeSearch
  split
  · rename_i hnb
    have htop : limit p < 2 ^ nb := by
      have := Nat.pow_le_pow_right (show 0 < 2 by decide) hnb
      have := Nat.one_le_two_pow (n := nb)
      unfold limit
      omega
    simpa only [reduceCtorEq, false_iff, not_and] using fun hlen =>
      not_and.1 (smallestSought_not_le htop (need := qty - 1) (by omega))
  · rw [scanPrimes_eq_some_iff hm (firstCandidate_mod nb m) (by omega),
      smallestSought_congr fun x => soughtPrime_iff_firstCandidate hm]

/-! The commands. -/

section
variable {s : State} {nb m : SReg} {qty : Nat}

theorem State.findPrimes_negative (hnb : s.scalar nb < 0) : s.findPrimes nb m qty = .error (raised .param 8) := by
  have : ¬ 0 ≤ s.scalar nb := by omega
  simp [State.findPrimes, this]

theorem State.findPrimes_noModulus (hnb : 0 ≤ s.scalar nb) (hm : s.scalar m ≤ 0) :
    s.findPrimes nb m qty = .error (raised .param 9) := by
  have : ¬ 0 < s.scalar m := by omega
  simp [State.findPrimes, hnb, this]

section
variable (hnb : 0 ≤ s.scalar nb) (hm : 0 < s.scalar m) (hqty : 1 ≤ qty)
include hnb hm hqty

theorem State.findPrimes_ok {r : List Nat} (hlen : r.length = qty)
    (hr : SmallestSought (2 ^ (s.scalar nb).toNat) (s.scalar m).toNat r) (hfits : ∀ p ∈ r, Fits s.params p) :
    s.findPrimes nb m qty = .ok r := by
  have hsearch := (primeSearch_eq_some_iff (by omega) hqty).2 ⟨hlen, hr, hfits⟩
  simp [State.findPrimes, hnb, hm, hsearch]

/-- The search fails where every list of smallest sought primes holds one that does not fit. -/
theorem State.findPrimes_overflow
    (h : ∀ r : List Nat, r.length = qty → SmallestSought (2 ^ (s.scalar nb).toNat) (s.scalar m).toNat r →
      ∃ p ∈ r, ¬ Fits s.params p) : s.findPrimes nb m qty = .error (raised .overflow 1) := by
  have hsearch : primeSearch s.params (s.scalar nb).toNat (s.scalar m).toNat qty = none := by
    refine Option.eq_none_iff_forall_ne_some.2 fun r hr => ?_
    obtain ⟨hlen, hsought, hfits⟩ := (primeSearch_eq_some_iff (by omega) hqty).1 hr
    obtain ⟨p, hp, hover⟩ := h r hlen hsought
    exact hover (hfits p hp)
  simp [State.findPrimes, hnb, hm, hsearch]

end

theorem exec_findprime_ok {r : List Nat} (h : s.findPrimes nb m 1 = .ok r) (rd : SReg) :
    exec (.findprime rd nb m) s = .next (s.writeScalar rd (r.getD 0 0 : Nat)).complete := by
  simp [exec, execFindprime, h]

theorem exec_findprime_error {c : CmdError} (h : s.findPrimes nb m 1 = .error c) (rd : SReg) :
    exec (.findprime rd nb m) s = .next (s.enterError c) := by
  simp [exec, execFindprime, h]

section
variable {rd : PBuf} {qty : BitVec 8} (hrd : HasBuffer s rd)
include hrd

theorem exec_findprimes_range (h : qty = 0 ∨ 2 ^ s.params.lognMax < qty.toNat) :
    exec (.findprimes rd nb m qty) s = .next (s.enterError (raised .badopnd 5)) := by
  rcases h with rfl | h
  · simp [exec, execFindprimes, State.needBuffer_ok _ hrd]
  · have hmax : ¬ qty.toNat ≤ nMax s.params := Nat.not_le.2 h
    simp [exec, execFindprimes, State.needBuffer_ok _ hrd, hmax]

variable (hone : 1 ≤ qty.toNat) (hmax : qty.toNat ≤ 2 ^ s.params.lognMax)
include hone hmax

/-- Past its own check FINDPRIMES ends as the search does. -/
theorem exec_findprimes_eq : exec (.findprimes rd nb m qty) s =
    s.retire (s.findPrimes nb m qty.toNat >>= fun r => .ok (s.writeLanes rd qty.toNat fun j => (r.getD j 0 : Nat))) := by
  have hrange : 1 ≤ qty.toNat ∧ qty.toNat ≤ min 255 (nMax s.params) := ⟨hone, le_min (by omega) hmax⟩
  simp [exec, execFindprimes, State.needBuffer_ok _ hrd, hrange]

theorem exec_findprimes_ok {r : List Nat} (h : s.findPrimes nb m qty.toNat = .ok r) :
    exec (.findprimes rd nb m qty) s = .next (s.writeLanes rd qty.toNat fun j => (r.getD j 0 : Nat)).complete := by
  simp [exec_findprimes_eq hrd hone hmax, h]

theorem exec_findprimes_error {c : CmdError} (h : s.findPrimes nb m qty.toNat = .error c) :
    exec (.findprimes rd nb m qty) s = .next (s.enterError c) := by
  simp [exec_findprimes_eq hrd hone hmax, h]

end

end

/-- The entry of an error without an index, as `afterError` states it (60_exceptions.md R256). -/
theorem State.enterError_raised {s : State} {w : Word} (h : s.pending = some w) (code : ErrCode) (sub : BitVec 8) :
    s.enterError (raised code sub) = afterError s w (codeBits code) sub.toNat 0 :=
  State.enterError_eq h _

/-! The statements. -/

/-- Settles O34. -/
theorem primalityIsExact : Obligations.PrimalityIsExact := isPrime_iff_isPrime

/-- Settles O35: the search answers the one prime. -/
theorem findprimeStoresSmallestPrime : Obligations.FindprimeStoresSmallestPrime := by
  intro s rd nb m p hnb hm hp hfits
  have hsearch := State.findPrimes_ok hnb hm le_rfl List.length_singleton hp (by simpa using hfits)
  exact ⟨_, exec_findprime_ok hsearch rd, s.scalarWritten rd p⟩

/-- Settles O36: the search answers the list. -/
theorem findprimesStoresSmallestPrimes : Obligations.FindprimesStoresSmallestPrimes := by
  intro s rd nb m qty r hrd hone hmax hnb hm hlen hr hfits
  have hsearch := State.findPrimes_ok hnb hm hone hlen hr hfits
  exact ⟨_, exec_findprimes_ok hrd hone hmax hsearch, s.lanesWritten rd _ _⟩

/-- Settles O37: each check of the search in its order, passed on by both commands; the search fails where what it would answer
does not fit. -/
theorem primeSearchErrors : Obligations.PrimeSearchErrors := by
  intro s w rd b nb m qty hw hb
  have entered (code : ErrCode) (sub : BitVec 8) := State.enterError_raised hw code sub
  refine ⟨fun h => ?range, fun hone hmax => ⟨fun hnb => ?negative, fun hnb hm => ?noModulus,
    fun hnb hm => ⟨fun h => ?one, fun h => ?many⟩⟩⟩
  case range => exact entered .badopnd 5 ▸ exec_findprimes_range hb h
  case negative =>
    exact entered .param 8 ▸ ⟨exec_findprime_error (State.findPrimes_negative hnb) rd,
      exec_findprimes_error hb hone hmax (State.findPrimes_negative hnb)⟩
  case noModulus =>
    exact entered .param 9 ▸ ⟨exec_findprime_error (State.findPrimes_noModulus hnb hm) rd,
      exec_findprimes_error hb hone hmax (State.findPrimes_noModulus hnb hm)⟩
  case one =>
    refine entered .overflow 1 ▸ exec_findprime_error (State.findPrimes_overflow hnb hm le_rfl fun r hlen hr => ?_) rd
    obtain ⟨p, rfl⟩ := List.length_eq_one_iff.1 hlen
    obtain ⟨-, hsought, -⟩ := hr
    exact ⟨p, by simp, h p (hsought p (by simp))⟩
  case many =>
    exact entered .overflow 1 ▸ exec_findprimes_error hb hone hmax (State.findPrimes_overflow hnb hm hone h)

end Sys2Proof.Machine
end

section
/-! The inverse modulo `m` and the two reductions on scalar registers (40_number_theory.md R125 to R136): the integers that
determine them, and O38 to O40, which follow. -/

namespace Sys2Proof.Machine

/-! Inverses (R125). -/

section
variable {n y y' : Int} {m : Nat}

/-- An inverse modulo `m` is an inverse in the ring of integers modulo `m`. -/
theorem mul_emod_eq_one_iff (h2 : 2 ≤ m) : n * y % m = 1 ↔ (y * n : ZMod m) = 1 := by
  have hone : (1 : Int) % m = 1 := Int.emod_eq_of_lt (by omega) (by omega)
  rw [← Int.cast_mul, ← Int.cast_one (R := ZMod m), ZMod.intCast_eq_intCast_iff', hone, mul_comm]

/-- A number has at most one inverse in `[0, m)`. -/
theorem inverse_unique (h2 : 2 ≤ m) (hy0 : 0 ≤ y) (hy : y < m) (hy0' : 0 ≤ y') (hy' : y' < m) (h : n * y % m = 1)
    (h' : n * y' % m = 1) : y = y' := by
  rw [mul_emod_eq_one_iff h2] at h h'
  have hcast : (y : ZMod m) = y' := left_inv_eq_right_inv h ((mul_comm _ _).trans h')
  rwa [ZMod.intCast_eq_intCast_iff', Int.emod_eq_of_lt hy0 hy, Int.emod_eq_of_lt hy0' hy'] at hcast

theorem gcd_eq_one_of_mul_emod (h : n * y % m = 1) : Int.gcd n m = 1 := by
  rw [← Int.isCoprime_iff_gcd_eq_one]
  exact ⟨y, -(n * y / m), by linarith [Int.mul_ediv_add_emod (n * y) m]⟩

theorem natCast_residue (n : Int) (hm : 0 < m) : (((n % m).toNat : Nat) : Int) = n % m :=
  Int.toNat_of_nonneg (Int.emod_nonneg n (by omega))

theorem gcd_residue (n : Int) (hm : 0 < m) : Nat.gcd (n % m).toNat m = Int.gcd n m := by
  rw [← Int.gcd_natCast_natCast, natCast_residue n hm, Int.gcd_emod]

theorem inverse_lt (n : Nat) (hm : 0 < m) : inverse n m < m := by
  have := Int.emod_lt_of_pos (euclidCofactor (m + 1) m (n % m) 0 1) (show (0 : Int) < m by omega)
  unfold inverse
  omega

/-- Where the gcd is 1, the model's inverse of the residue is an inverse, and not 0. -/
theorem inverse_spec (h2 : 2 ≤ m) (h : Int.gcd n m = 1) :
    1 ≤ inverse (n % m).toNat m ∧ n * inverse (n % m).toNat m % m = 1 := by
  have hpos : 0 < m := by omega
  have hcast : (((n % m).toNat : Nat) : ZMod m) = n := by
    rw [← Int.cast_natCast, natCast_residue n hpos, ZMod.intCast_mod]
  have hmul : n * inverse (n % m).toNat m % m = 1 := by
    rw [mul_emod_eq_one_iff h2, ← hcast, Int.cast_natCast]
    exact inverse_mul hpos ((gcd_residue n hpos).trans h)
  refine ⟨Nat.one_le_iff_ne_zero.2 fun hzero => ?_, hmul⟩
  rw [hzero] at hmul
  simp at hmul

end

/-! Reductions (R133, R135). -/

section
variable {x v m : Int}

/-- The residue is the only congruent integer in `[0, m)`. -/
theorem red_unique (h0 : 0 ≤ v) (hv : v < m) (h : m ∣ x - v) : red x m = v := by
  rw [red, Int.emod_eq_emod_iff_emod_sub_eq_zero.2 (Int.emod_eq_zero_of_dvd h), Int.emod_eq_of_lt h0 hv]

theorem dvd_sub_ctr (x m : Int) : m ∣ x - ctr x m :=
  Int.dvd_of_emod_eq_zero (Int.emod_eq_emod_iff_emod_sub_eq_zero.1 (ctr_emod x m).symm)

/-- The half-range value is the only congruent integer in `(-m/2, m/2]`: two of them differ by a multiple of `m` that is
smaller than `m`. -/
theorem ctr_unique (hlow : -m < 2 * v) (hhigh : 2 * v ≤ m) (h : m ∣ x - v) : ctr x m = v := by
  obtain ⟨hl, hh⟩ := ctr_range x (show 0 < m by omega)
  have hdvd : m ∣ ctr x m - v := by simpa using dvd_sub h (dvd_sub_ctr x m)
  have := Int.eq_zero_of_abs_lt_dvd hdvd (abs_lt.2 ⟨by omega, by omega⟩)
  omega

end

/-! The commands. -/

section
variable {s : State} {ms : ModSel} {m : Int}

theorem exec_modinv_ok {n : SReg} (hm : Selects s ms m) (h2 : 2 ≤ m) (h : Int.gcd (s.scalar n) m = 1) (rd : SReg) :
    exec (.modinv rd n ms) s = .next (s.writeScalar rd (inverse (s.scalar n % m).toNat m.toNat : Nat)).complete := by
  lift m to Nat using by omega
  have hgcd : Nat.gcd (s.scalar n % m).toNat m = 1 := (gcd_residue _ (by omega)).trans h
  simp [exec, execModinv, State.modulus_ok hm h2, hgcd]

theorem exec_modinv_domain {n : SReg} (hm : Selects s ms m) (h2 : 2 ≤ m) (h : Int.gcd (s.scalar n) m ≠ 1) (rd : SReg) :
    exec (.modinv rd n ms) s = .next (s.enterError (raised .domain 1)) := by
  lift m to Nat using by omega
  have hgcd : (Nat.gcd (s.scalar n % m).toNat m == 1) = false := by
    rwa [gcd_residue _ (by omega), beq_eq_false_iff_ne]
  simp [exec, execModinv, State.modulus_ok hm h2, hgcd]

theorem exec_modred_ok (hm : Selects s ms m) (h2 : 2 ≤ m) (rd x : SReg) :
    exec (.modred rd x ms) s = .next (s.writeScalar rd (red (s.scalar x) m)).complete := by
  simp [exec, execModred, State.modulus_ok hm h2]

theorem exec_modctr_ok (hm : Selects s ms m) (h2 : 2 ≤ m) (rd x : SReg) :
    exec (.modctr rd x ms) s = .next (s.writeScalar rd (ctr (s.scalar x) m)).complete := by
  simp [exec, execModctr, State.modulus_ok hm h2]

end

/-! The statements. -/

/-- Settles O38: an inverse in the range is the one the model computes (`inverse_unique`), and there is one exactly where the
gcd is 1. -/
theorem modinvStoresInverseOrRaises : Obligations.ModinvStoresInverseOrRaises := by
  intro s rd n ms m hm h2
  refine ⟨fun y hy1 hy h => ?_, fun hgcd => ?_, fun w hw hgcd => ?_⟩
  · have hexec := exec_modinv_ok hm h2 (n := n)
    lift m to Nat using by omega
    have hgcd := gcd_eq_one_of_mul_emod h
    obtain ⟨hone, hmul⟩ := inverse_spec (by omega) hgcd
    have hlt := inverse_lt (s.scalar n % m).toNat (show 0 < m by omega)
    obtain rfl : y = inverse (s.scalar n % m).toNat m :=
      inverse_unique (by omega) (by omega) (by omega) (by omega) (by omega) h hmul
    exact ⟨_, hexec hgcd rd, s.scalarWritten rd _⟩
  · lift m to Nat using by omega
    obtain ⟨hone, hmul⟩ := inverse_spec (by omega) hgcd
    have hlt := inverse_lt (s.scalars[n] % m).toNat (show 0 < m by omega)
    exact ⟨_, by omega, by omega, hmul⟩
  · rw [Int.gcd_emod] at hgcd
    exact State.enterError_raised hw .domain 1 ▸ exec_modinv_domain hm h2 hgcd rd

/-- Settles O39: each reduction is the only congruent integer in its range. -/
theorem scalarReductionsStoreResidues : Obligations.ScalarReductionsStoreResidues := by
  intro s rd x ms m v hm h2 hdvd
  refine ⟨fun ⟨h0, hv⟩ => ?_, fun ⟨hlow, hhigh⟩ => ?_⟩
  · obtain rfl := red_unique h0 hv hdvd
    exact ⟨_, exec_modred_ok hm h2 rd x, s.scalarWritten rd _⟩
  · obtain rfl := ctr_unique hlow hhigh hdvd
    exact ⟨_, exec_modctr_ok hm h2 rd x, s.scalarWritten rd _⟩

/-- Settles O40: the other clauses follow from the range, the congruence and the uniqueness. -/
theorem halfRangeReductionIsCanonical : Obligations.HalfRangeReductionIsCanonical := by
  intro x m h2
  obtain ⟨hlow, hhigh⟩ := ctr_range x (show 0 < m by omega)
  have hdvd := dvd_sub_ctr x m
  refine ⟨⟨hlow, hhigh, hdvd⟩, fun v hl hh h => (ctr_unique hl hh h).symm, fun heven h => ?even, fun hodd => ?odd,
    ctr_emod x m, ?inverse⟩
  case even => exact ctr_unique (by omega) (by omega) h
  case odd => omega
  case inverse =>
    refine ctr_unique hlow hhigh ?_
    have hred : m ∣ x - red x m := Int.dvd_self_sub_emod
    simpa using dvd_sub hdvd hred

end Sys2Proof.Machine
end

section
/-! Rounding to a multiple (40_number_theory.md R130, R131; 44_elementwise.md R219): the model's integer form computes the
nearest multiple, and O41, O42 and O60, which follow. -/

namespace Sys2Proof.Machine

/-! The nearest multiple (R130). -/

section
variable {X D b k : Int} {tie : Bool}

/-- What it is to be nearest to a fraction, without fractions: `2 · (X - k · D · b)`, the doubled distance scaled by `D`,
against `D · b`. -/
theorem nearestMultiple_div_iff (hD : 0 < D) : NearestMultiple ((X : ℚ) / D) b k tie ↔
    |2 * (X - k * (D * b))| ≤ D * b ∧ (tie = false → 2 * (X - k * (D * b)) < D * b) ∧
      (tie = true → |2 * (X - k * (D * b))| = D * b → 2 ∣ k) := by
  have hpos : (0 : ℚ) < 2 * D := by positivity
  have hdist : (X : ℚ) / D - k * b = (2 * (X - k * (D * b)) : Int) / (2 * D) := by
    push_cast
    field_simp
  have hhalf : (b : ℚ) / 2 = (D * b : Int) / (2 * D) := by
    push_cast
    field_simp
  rw [NearestMultiple, hdist, hhalf, abs_div, abs_of_pos hpos, div_le_div_iff_of_pos_right hpos,
    div_lt_div_iff_of_pos_right hpos, div_left_inj' hpos.ne', ← Int.cast_abs, Int.cast_le, Int.cast_lt, Int.cast_inj]

/-- A multiple of `M` at most `M / 2` away from `X` is one of the two around it. -/
theorem eq_ediv_or_succ_of_near {M : Int} (hM : 0 < M) (h : |2 * (X - k * M)| ≤ M) : k = X / M ∨ k = X / M + 1 := by
  obtain ⟨hlow, hhigh⟩ := abs_le.1 h
  have hfloor := Int.ediv_mul_le X hM.ne'
  have hceil := Int.lt_ediv_add_one_mul_self X hM
  by_contra hk
  rcases (by omega : k + 1 ≤ X / M ∨ X / M + 1 + 1 ≤ k) with hk | hk
  · have := mul_le_mul_of_nonneg_right hk hM.le
    linarith
  · have := mul_le_mul_of_nonneg_right hk hM.le
    linarith

/-- The model's rounding finds the nearest multiple: the lower one up to half the way, the upper one from there on, and the tie
mode decides in the middle. -/
theorem roundMultiple_eq (hD : 0 < D) (hb : 0 < b) (h : NearestMultiple ((X : ℚ) / D) b k tie) :
    roundMultiple X D b tie = k * b := by
  obtain ⟨hnear, hup, heven⟩ := (nearestMultiple_div_iff hD).1 h
  have hM : 0 < D * b := mul_pos hD hb
  unfold roundMultiple
  generalize D * b = M at *
  refine congrArg (· * b) ?_
  rcases eq_ediv_or_succ_of_near hM hnear with hk | hk
  · rw [← hk]
    have hle := (abs_le.1 hnear).2
    split
    · rfl
    · have hmid : 2 * (X - k * M) = M := by omega
      have htie : tie = true := by
        cases tie with
        | true => rfl
        | false => exact absurd (hup rfl) (by omega)
      have hdvd : 2 ∣ k := heven htie (by rw [hmid, abs_of_pos hM])
      simp [hmid, htie, Int.emod_eq_zero_of_dvd hdvd]
  · have hge := (abs_le.1 hnear).1
    have hq : X / M = k - 1 := by omega
    have hrest : 2 * (X - (k - 1) * M) = 2 * (X - k * M) + 2 * M := by ring
    rw [hq, hrest, sub_add_cancel, if_neg (by omega)]
    split
    · rfl
    · have hmid : 2 * (X - k * M) = -M := by omega
      cases tie with
      | false => rfl
      | true =>
        have hdvd : 2 ∣ k := heven rfl (by rw [hmid, abs_neg, abs_of_pos hM])
        have hodd : (k - 1) % 2 ≠ 0 := by omega
        simp [hodd]

end

/-- The same for a denominator of either sign (R131). -/
theorem roundScaled_eq {x num den b k : Int} {tie : Bool} (hden : den ≠ 0) (hb : 1 ≤ b)
    (h : NearestMultiple ((x : ℚ) * num / den) b k tie) : roundScaled x num den b tie = k * b := by
  unfold roundScaled
  split
  · refine roundMultiple_eq (by omega) (by omega) ?_
    push_cast
    rwa [neg_div_neg_eq]
  · refine roundMultiple_eq (by omega) (by omega) ?_
    rwa [Int.cast_mul]

/-! The commands. -/

section
variable {s : State} {ms : ModSel} {b : Int} {num den : SReg} (hb : Selects s ms b) (h1 : 1 ≤ b)
include hb h1

section
variable (rd : SReg)

theorem exec_rndmul_zeroDivisor (hden : s.scalar den = 0) (x : SReg) :
    exec (.rndmul rd x num den ms) s = .next (s.enterError (raised .domain 3)) := by
  simp [exec, execRndmul, State.multiple_ok hb h1, hden]

variable {x : SReg} {k : Int} (hden : s.scalar den ≠ 0)
  (hnear : NearestMultiple ((s.scalar x : ℚ) * s.scalar num / s.scalar den) b k s.csr.tie)
include hden hnear

theorem exec_rndmul_ok (hfits : Fits s.params (k * b)) :
    exec (.rndmul rd x num den ms) s = .next (s.writeScalar rd (k * b)).complete := by
  simp [exec, execRndmul, State.multiple_ok hb h1, hden, roundScaled_eq hden h1 hnear, State.storeScalar_ok hfits]

theorem exec_rndmul_overflow (hover : ¬ Fits s.params (k * b)) :
    exec (.rndmul rd x num den ms) s = .next (s.enterError (raised .overflow 1)) := by
  simp [exec, execRndmul, State.multiple_ok hb h1, hden, roundScaled_eq hden h1 hnear, State.storeScalar_overflow hover]

end

section
variable {rd a : PBuf} (hv : s.csr.pvalid = true) (hrd : HasBuffer s rd) (ha : HasBuffer s a)
include hv hrd ha

theorem exec_prndmul_zeroDivisor (hden : s.scalar den = 0) :
    exec (.prndmul rd a num den ms) s = .next (s.enterError (raised .domain 3)) := by
  simp [exec, execPrndmul, State.needBuffer_ok _ hrd, State.needBuffer_ok _ ha, State.needPn_ok hv,
    State.multiple_ok hb h1, hden]

/-- Past the checks PRNDMUL ends as its store does. -/
theorem exec_prndmul_store (hden : s.scalar den ≠ 0) {r : Except CmdError State}
    (h : (s.storeLanes rd s.pn fun j => roundScaled (s.coeff a j) (s.scalar num) (s.scalar den) b s.csr.tie) = r) :
    exec (.prndmul rd a num den ms) s = s.retire r := by
  simp [exec, execPrndmul, State.needBuffer_ok _ hrd, State.needBuffer_ok _ ha, State.needPn_ok hv,
    State.multiple_ok hb h1, hden, h]

end

end

/-! The statements. -/

/-- Settles O41: the nearest multiple is what the model's rounding stores. -/
theorem rndmulStoresNearestMultiple : Obligations.RndmulStoresNearestMultiple := by
  intro s rd x num den ms b k hb h1 hden hnear hfits
  exact ⟨_, exec_rndmul_ok hb h1 rd hden hnear hfits, s.scalarWritten rd (k * b)⟩

/-- Settles O60: lane by lane as RNDMUL. -/
theorem prndmulStoresNearestMultiples : Obligations.PrndmulStoresNearestMultiples := by
  intro s rd a num den ms b k hrd ha hv hb h1 hden n h
  have hround : ∀ j < n, roundScaled (s.coeff a j) (s.scalar num) (s.scalar den) b s.csr.tie = k j * b := fun j hj =>
    roundScaled_eq hden h1 (h j hj).1
  have hstore := State.storeLanes_ok (rd := rd) fun j hj => (hround j hj).symm ▸ (h j hj).2
  exact ⟨_, exec_prndmul_store hb h1 hv hrd ha hden hstore, (s.lanesWritten rd n _).congr hround⟩

/-- Settles O42: the checks of both commands in their order, and the store that refuses the nearest multiple. -/
theorem roundingErrors : Obligations.RoundingErrors := by
  intro s w d x num den rd a ms b hw hb
  have entered (code : ErrCode) (sub : BitVec 8) := State.enterError_raised hw code sub
  refine ⟨fun h0 => ?scalarMultiple, fun h1 hden => ?scalarDivisor, fun h1 hden k hover hnear => ?scalarOverflow,
    fun hv hrd ha => ⟨fun h0 => ?lanesMultiple, fun h1 hden => ?lanesDivisor,
      fun h1 hden j k hj hover hnear => ?lanesOverflow⟩⟩
  case scalarMultiple => exact entered .domain 2 ▸ exec_rndmul_multiple_error (State.multiple_small hb h0) d x num den
  case scalarDivisor => exact entered .domain 3 ▸ exec_rndmul_zeroDivisor hb h1 d hden x
  case scalarOverflow => exact entered .overflow 1 ▸ exec_rndmul_overflow hb h1 d hden hnear hover
  case lanesMultiple =>
    exact entered .domain 2 ▸ exec_prndmul_multiple_error hv hrd ha (State.multiple_small hb h0) num den
  case lanesDivisor => exact entered .domain 3 ▸ exec_prndmul_zeroDivisor hb h1 hv hrd ha hden
  case lanesOverflow =>
    have hround := roundScaled_eq hden h1 hnear
    exact entered .overflow 1 ▸
      exec_prndmul_store hb h1 hv hrd ha hden (State.storeLanes_overflow hj (hround.symm ▸ hover))

end Sys2Proof.Machine
end

section
/-! The negacyclic multiplier (41_polymul.md R150 to R155): the model's single sum is the double sum of R150, where the laws of
R155 are laws of finite sums, and PMUL and PMULM store it. -/

namespace Sys2Proof.Machine

/-! The product as one double sum (R150). -/

/-- Coefficient `k` of `X^e` modulo `X^n + 1`, for `k < n` and `e < 2n`: `X^(k + n)` wraps to `-X^k`. -/
def wrapSign (n k e : Nat) : Int := (if e = k then 1 else 0) - if e = k + n then 1 else 0

theorem schoolbook_eq_sum (a b : Nat → Int) (n k : Nat) :
    schoolbook a b n k = ∑ i ∈ Finset.range n, ∑ j ∈ Finset.range n, wrapSign n k (i + j) * (a i * b j) := by
  simp only [schoolbook, wrapSign, sub_mul, ite_mul, one_mul, zero_mul, Finset.sum_sub_distrib]

section
variable {n k : Nat} (hk : k < n)
include hk

/-- A monomial of degree `e < n` stays, one of degree `n ≤ e` goes to degree `e - n` with its sign flipped. -/
theorem wrapSign_eq (e : Nat) :
    wrapSign n k e = if e < n then (if k = e then 1 else 0) else (if k = e - n then -1 else 0) := by
  unfold wrapSign
  split_ifs <;> omega

/-- Row `i` has one column whose term reaches coefficient `k`: `k - i` without a wrap, or `k + n - i` with one. -/
theorem wrapSign_row {i j : Nat} (hi : i < n) (hj : j < n) :
    wrapSign n k (i + j) = if i ≤ k then (if j = k - i then 1 else 0) else (if j = k + n - i then -1 else 0) := by
  unfold wrapSign
  split_ifs <;> omega

theorem sum_wrapSign_row {i : Nat} (hi : i < n) (f : Nat → Int) :
    ∑ j ∈ Finset.range n, wrapSign n k (i + j) * f j = if i ≤ k then f (k - i) else -f (k + n - i) := by
  rw [Finset.sum_congr rfl fun j hj => by rw [wrapSign_row hk hi (Finset.mem_range.1 hj)]]
  split
  case isTrue =>
    have hcolumn : k - i < n := by omega
    simp [hcolumn]
  case isFalse =>
    have hcolumn : k + n - i < n := by omega
    simp [hcolumn]

/-- The model computes the product R150 writes. -/
theorem negacyclic_eq_schoolbook (a b : Nat → Int) : negacyclic a b n k = schoolbook a b n k := by
  rw [negacyclic, sumTo_eq_sum, schoolbook_eq_sum]
  exact Finset.sum_congr rfl fun i hi => (sum_wrapSign_row hk (Finset.mem_range.1 hi) fun j => a i * b j).symm

end

/-! The laws of the product (R155). -/

theorem schoolbook_comm (a b : Nat → Int) (n k : Nat) : schoolbook a b n k = schoolbook b a n k := by
  rw [schoolbook_eq_sum, schoolbook_eq_sum, Finset.sum_comm]
  simp only [Nat.add_comm, mul_comm (a _)]

theorem schoolbook_linear_left (x y : Int) (a a' b : Nat → Int) (n k : Nat) :
    schoolbook (fun i => x * a i + y * a' i) b n k = x * schoolbook a b n k + y * schoolbook a' b n k := by
  simp only [schoolbook_eq_sum, Finset.mul_sum, ← Finset.sum_add_distrib]
  exact Finset.sum_congr rfl fun i _ => Finset.sum_congr rfl fun j _ => by ring

theorem schoolbook_monomials {n i j : Nat} (hi : i < n) (hj : j < n) (k : Nat) :
    schoolbook (fun l => if l = i then 1 else 0) (fun l => if l = j then 1 else 0) n k = wrapSign n k (i + j) := by
  simp [schoolbook_eq_sum, hi, hj]

theorem schoolbook_modEq {m : Int} {a a' b b' : Nat → Int} (ha : ∀ i, a i ≡ a' i [ZMOD m]) (hb : ∀ j, b j ≡ b' j [ZMOD m])
    (n k : Nat) : schoolbook a b n k ≡ schoolbook a' b' n k [ZMOD m] := by
  rw [schoolbook_eq_sum, schoolbook_eq_sum]
  exact Int.ModEq.sum fun i _ => Int.ModEq.sum fun j _ => ((ha i).mul (hb j)).mul_left _

/-! The commands. -/

section
variable {s : State} {rd a b : PBuf} (hrd : HasBuffer s rd) (ha : HasBuffer s a) (hb : HasBuffer s b)
  (hv : s.csr.pvalid = true)
include hrd ha hb hv

/-- Past the checks PMUL ends as its store does. -/
theorem exec_pmul_store {r : Except CmdError State}
    (h : s.storeLanes rd s.pn (negacyclic (s.coeff a) (s.coeff b) s.pn) = r) : exec (.pmul rd a b) s = s.retire r := by
  simp [exec, execPmul, State.needBuffer_ok _ hrd, State.needBuffer_ok _ ha, State.needBuffer_ok _ hb, State.needPn_ok hv, h]

theorem exec_pmulm_ok {ms : ModSel} {m : Int} (hm : Selects s ms m) (h2 : 2 ≤ m) :
    exec (.pmulm rd a b ms) s =
      .next (s.writeLanes rd s.pn fun k => red (negacyclic (s.coeff a) (s.coeff b) s.pn k) m).complete := by
  simp [exec, execPmulm, State.needBuffer_ok _ hrd, State.needBuffer_ok _ ha, State.needBuffer_ok _ hb, State.needPn_ok hv,
    State.modulus_ok hm h2]

end

/-! The statements. -/

/-- Settles O47: the store commits where every coefficient of the product fits, and refuses where one does not. -/
theorem pmulStoresExactProduct : Obligations.PmulStoresExactProduct := by
  intro s rd a b hrd ha hb hv n c
  have hproduct : ∀ k < n, negacyclic (s.coeff a) (s.coeff b) n k = c k := fun k hk => negacyclic_eq_schoolbook hk _ _
  refine ⟨fun hfits => ?_, fun w hw ⟨k, hk, hover⟩ => ?_⟩
  · have hstore := State.storeLanes_ok (rd := rd) fun k hk => (hproduct k hk).symm ▸ hfits k hk
    exact ⟨_, exec_pmul_store hrd ha hb hv hstore, (s.lanesWritten rd n _).congr hproduct⟩
  · have hstore := State.storeLanes_overflow (rd := rd) hk ((hproduct k hk).symm ▸ hover)
    exact State.enterError_raised hw .overflow 1 ▸ exec_pmul_store hrd ha hb hv hstore

/-- Settles O48: every coefficient is reduced before it is stored, and PMULM has no check of its results. -/
theorem pmulmStoresReducedProduct : Obligations.PmulmStoresReducedProduct := by
  intro s rd a b ms m hrd ha hb hv hm h2 n
  exact ⟨_, exec_pmulm_ok hrd ha hb hv hm h2,
    (s.lanesWritten rd n _).congr fun k hk => congrArg (· % m) (negacyclic_eq_schoolbook hk _ _)⟩

/-- Settles O49: each law is one of the double sum. -/
theorem negacyclicProductLaws : Obligations.NegacyclicProductLaws := by
  intro n k hk
  simp only [negacyclic_eq_schoolbook hk]
  refine ⟨fun a b => schoolbook_comm a b n k, fun x y a a' b => ⟨schoolbook_linear_left x y a a' b n k, ?right⟩,
    fun i j hi hj => ?monomials, fun a b m _ => ?residues⟩
  case right => simpa only [schoolbook_comm b] using schoolbook_linear_left x y a a' b n k
  case monomials => rw [schoolbook_monomials hi hj, wrapSign_eq hk]
  case residues => exact schoolbook_modEq (fun _ => (Int.mod_modEq _ _).symm) (fun _ => (Int.mod_modEq _ _).symm) n k

end Sys2Proof.Machine
end

section
/-! Parameter construction (42_parameters.md R170 to R174): the derivation of PBUILD answers exactly the set of R170, and
otherwise raises the first check that fails; O43 to O45 follow. -/

namespace Sys2Proof.Machine

/-! The chain checks (R170, step 4). -/

section
variable {t n : Nat} {primes : List Nat}

/-- The checks pass where every chain modulus exceeds the plaintext modulus and is coprime to it. -/
theorem checkChain_pass (h : ∀ i < n, t < chainProduct primes i ∧ Nat.gcd t (chainProduct primes i) = 1) :
    checkChain t primes n = .ok () := by
  induction n with
  | zero => rfl
  | succ n ih =>
    obtain ⟨hlt, hgcd⟩ := h n n.lt_succ_self
    simp [checkChain, ih fun i hi => h i (by omega), checkChainAt, hlt, hgcd]

/-- The first chain place is checked first. -/
theorem checkChain_first_small (hn : 0 < n) (h : chainProduct primes 0 ≤ t) :
    checkChain t primes n = .error (raised .param 6) := by
  induction n, hn using Nat.le_induction with
  | base =>
    have hlt : ¬ t < chainProduct primes 0 := Nat.not_lt.2 h
    simp [checkChain, checkChainAt, hlt, raised]
  | succ n _ ih => simp [checkChain, ih]

/-- The last chain modulus is the product of all chain primes. -/
theorem chainProduct_last (h : 1 ≤ primes.length) : chainProduct primes (primes.length - 1) = primes.prod := by
  rw [chainProduct, Nat.sub_add_cancel h, List.take_length]

end

/-! The derivation, check by check. -/

section
variable {p : Config.Params} {cfg : CfgRegs} {set : ParamSet} {t : Nat} {r : List Nat}

/-- Numbers whose product fits, fit: a prime of a list is at most the product of the list. -/
theorem SmallestSought.fits {lo m : Nat} (hr : SmallestSought lo m r) (hprod : Fits p r.prod) : ∀ x ∈ r, Fits p x := by
  obtain ⟨-, hmem, -⟩ := hr
  have hpos : 0 < r.prod := List.prod_pos fun x hx => by
    obtain ⟨-, -, htwo, -⟩ := hmem x hx
    omega
  exact fun x hx => fits_of_le_limit ((Nat.le_of_dvd hpos (List.dvd_prod hx)).trans (le_limit_iff_fits.2 hprod))

/-- The search for the plaintext modulus answers the smallest sought prime (R170, step 1). -/
theorem primeSearch_plaintext (ht : SmallestSought (2 ^ cfg.pbits.toNat) (2 * 2 ^ cfg.logn.toNat) [t])
    (htfits : Fits p t) : primeSearch p cfg.pbits.toNat (2 * 2 ^ cfg.logn.toNat) 1 = some [t] :=
  (primeSearch_eq_some_iff (by positivity) le_rfl).2 ⟨rfl, ht, by simpa using htfits⟩

/-- The set that PBUILD installs for the plaintext modulus `t` and the chain primes `r` (R170, commit). -/
def installedSet (cfg : CfgRegs) (t : Nat) (r : List Nat) : ParamSet where
  t := t
  q := chainPlaces cfg.chain.toNat fun i => r.getD i 0
  bigQ := chainPlaces cfg.chain.toNat (chainProduct r)
  pLogn := cfg.logn
  pChain := cfg.chain
  pSigma := cfg.sigma

theorem deriveParams_logn_high (h : p.lognMax < cfg.logn.toNat) : deriveParams p cfg = .error (raised .param 1) := by
  have hlogn : ¬ cfg.logn.toNat ≤ p.lognMax := Nat.not_le.2 h
  simp [deriveParams, hlogn]

theorem deriveParams_chain_range (hlogn : cfg.logn.toNat ≤ p.lognMax)
    (h : cfg.chain.toNat = 0 ∨ p.lMax + 1 < cfg.chain.toNat) : deriveParams p cfg = .error (raised .param 2) := by
  have hrange : ¬ (1 ≤ cfg.chain.toNat ∧ cfg.chain.toNat ≤ p.lMax + 1) := by omega
  simp [deriveParams, hlogn, ← Bool.decide_and, hrange]

section
variable (hlogn : cfg.logn.toNat ≤ p.lognMax) (hone : 1 ≤ cfg.chain.toNat) (hmax : cfg.chain.toNat ≤ p.lMax + 1)
include hlogn hone hmax

theorem deriveParams_no_plaintext
    (h : ∀ x, SoughtPrime (2 ^ cfg.pbits.toNat) (2 * 2 ^ cfg.logn.toNat) x → ¬ Fits p x) :
    deriveParams p cfg = .error (raised .param 3) := by
  have hsearch : primeSearch p cfg.pbits.toNat (2 * 2 ^ cfg.logn.toNat) 1 = none := by
    refine Option.eq_none_iff_forall_ne_some.2 fun r hr => ?_
    obtain ⟨hlen, ⟨-, hsought, -⟩, hfits⟩ := (primeSearch_eq_some_iff (by positivity) le_rfl).1 hr
    obtain ⟨x, rfl⟩ := List.length_eq_one_iff.1 hlen
    exact h x (hsought x (by simp)) (hfits x (by simp))
  simp [deriveParams, hlogn, hone, hmax, hsearch]

variable (ht : SmallestSought (2 ^ cfg.pbits.toNat) (2 * 2 ^ cfg.logn.toNat) [t]) (htfits : Fits p t)
include ht htfits

/-- With the plaintext modulus and the chain primes found, what is left are the checks on the chain moduli: the check of
PARAM 5 holds of every prime that the search answers (R173). -/
theorem deriveParams_found (hsearch : primeSearch p cfg.cbits.toNat (2 * 2 ^ cfg.logn.toNat) cfg.chain.toNat = some r) :
    deriveParams p cfg =
      (require (decide (chainProduct r (cfg.chain.toNat - 1) ≤ limit p)) (raised .param 4) >>= fun _ =>
        checkChain t r cfg.chain.toNat >>= fun _ => .ok (installedSet cfg t r)) := by
  have hres : t % (2 * 2 ^ cfg.logn.toNat) = 1 := by
    obtain ⟨-, hmem, -⟩ := ht
    obtain ⟨-, hres, -⟩ := hmem t (by simp)
    have := Nat.one_le_two_pow (n := cfg.logn.toNat)
    rwa [Nat.mod_eq_of_lt (show 1 < 2 * 2 ^ cfg.logn.toNat by omega)] at hres
  simp [deriveParams, hlogn, hone, hmax, primeSearch_plaintext ht htfits, hsearch, hres, installedSet]

/-- PARAM 4 stands for both ways in which no chain fits: a prime of it does not, or its product does not. -/
theorem deriveParams_no_chain
    (h : ∀ r : List Nat, r.length = cfg.chain.toNat →
      SmallestSought (2 ^ cfg.cbits.toNat) (2 * 2 ^ cfg.logn.toNat) r → ¬ Fits p r.prod) :
    deriveParams p cfg = .error (raised .param 4) := by
  cases hsearch : primeSearch p cfg.cbits.toNat (2 * 2 ^ cfg.logn.toNat) cfg.chain.toNat with
  | none => simp [deriveParams, hlogn, hone, hmax, primeSearch_plaintext ht htfits, hsearch]
  | some r =>
    obtain ⟨hlen, hsought, -⟩ := (primeSearch_eq_some_iff (by positivity) hone).1 hsearch
    have hover : ¬ chainProduct r (cfg.chain.toNat - 1) ≤ limit p := by
      rw [← hlen, chainProduct_last (hlen ▸ hone), le_limit_iff_fits]
      exact h r hlen hsought
    rw [deriveParams_found hlogn hone hmax ht htfits hsearch, decide_eq_false hover, require_false, Except.bind_error]

variable (hlen : r.length = cfg.chain.toNat)
  (hr : SmallestSought (2 ^ cfg.cbits.toNat) (2 * 2 ^ cfg.logn.toNat) r) (hprod : Fits p r.prod)
include hlen hr hprod

/-- Where the chain fits, the checks of step 4 decide. -/
theorem deriveParams_eq_checkChain :
    deriveParams p cfg = (checkChain t r cfg.chain.toNat >>= fun _ => .ok (installedSet cfg t r)) := by
  have hsearch := (primeSearch_eq_some_iff (by positivity) hone).2 ⟨hlen, hr, hr.fits hprod⟩
  have hlimit : chainProduct r (cfg.chain.toNat - 1) ≤ limit p := by
    rwa [← hlen, chainProduct_last (hlen ▸ hone), le_limit_iff_fits]
  rw [deriveParams_found hlogn hone hmax ht htfits hsearch, decide_eq_true hlimit, require_true, Except.bind_ok]

theorem deriveParams_first_small (h : r.getD 0 0 ≤ t) : deriveParams p cfg = .error (raised .param 6) := by
  have hfirst : chainProduct r 0 ≤ t := by rwa [chainProduct_zero (by omega)]
  rw [deriveParams_eq_checkChain hlogn hone hmax ht htfits hlen hr hprod, checkChain_first_small hone hfirst,
    Except.bind_error]

end

/-! The set that is derived. -/

/-- The places of a chain vector determine it. -/
theorem eq_chainPlaces {v : Vector Int 16} {n : Nat} {f : Nat → Nat}
    (h : ∀ i : Fin 16, v[i] = if i.val < n then (f i : Int) else 0) : v = chainPlaces n f :=
  Vector.ext fun i hi => (h ⟨i, hi⟩).trans (chainPlaces_getElem n f ⟨i, hi⟩).symm

/-- The derivation answers exactly the set that R170 describes. -/
theorem deriveParams_eq_ok_iff : deriveParams p cfg = .ok set ↔ DerivedParams p cfg set := by
  constructor
  · intro h
    obtain ⟨hlogn, hone, hmax, found, r, hfound, hsearch, hlimit, hcheck, rfl⟩ := deriveParams_ok h
    obtain ⟨hflen, ht, htfits⟩ := (primeSearch_eq_some_iff (by positivity) le_rfl).1 hfound
    obtain ⟨t, rfl⟩ := List.length_eq_one_iff.1 hflen
    obtain ⟨hlen, hr, -⟩ := (primeSearch_eq_some_iff (by positivity) hone).1 hsearch
    rw [← hlen] at hlimit hcheck ⊢
    rw [chainProduct_last (hlen ▸ hone)] at hlimit
    exact ⟨hlogn, hone, hmax, rfl, rfl, rfl, t, r, ht, htfits t (by simp), hlen, hr, fits_of_le_limit hlimit, hcheck, rfl,
      fun i => ⟨chainPlaces_getElem _ _ i, chainPlaces_getElem _ _ i⟩⟩
  · rintro ⟨hlogn, hone, hmax, hpLogn, hpChain, hpSigma, t, r, ht, htfits, hlen, hr, hprod, hcheck, hpt, hplaces⟩
    have hset : set = installedSet cfg t r := by
      obtain ⟨⟩ := set
      simp only [installedSet, ParamSet.mk.injEq]
      rw [hlen] at hplaces
      exact ⟨hpt, eq_chainPlaces fun i => (hplaces i).1, eq_chainPlaces fun i => (hplaces i).2, hpLogn, hpChain, hpSigma⟩
    rw [deriveParams_eq_checkChain hlogn hone hmax ht htfits hlen hr hprod, checkChain_pass (hlen ▸ hcheck), hset,
      Except.bind_ok]

end

/-! The command. -/

section
variable {s t : State}

theorem exec_pbuild_ok {set : ParamSet} (h : deriveParams s.params s.cfg = .ok set) :
    exec .pbuild s = .next (State.complete { s with par := set, csr := { s.csr with pvalid := true } }) := by
  simp [exec, execPbuild, h]

theorem exec_pbuild_error {e : CmdError} (h : deriveParams s.params s.cfg = .error e) :
    exec .pbuild s = .next (s.enterError e) := by
  simp [exec, execPbuild, h]

/-- PBUILD ends as its derivation does. -/
theorem exec_pbuild_cases (h : exec .pbuild s = .next t) :
    (∃ set, deriveParams s.params s.cfg = .ok set ∧
      t = State.complete { s with par := set, csr := { s.csr with pvalid := true } }) ∨ ∃ e, t = s.enterError e := by
  cases hset : deriveParams s.params s.cfg with
  | ok set => exact .inl ⟨set, rfl, by simpa [exec_pbuild_ok hset] using h.symm⟩
  | error e => exact .inr ⟨e, by simpa [exec_pbuild_error hset] using h.symm⟩

end

/-! The statements. -/

/-- Settles O43: the derivation answers the set of R170. -/
theorem pbuildInstallsDerivedParameters : Obligations.PbuildInstallsDerivedParameters := by
  intro s par h
  rw [exec_pbuild_ok (deriveParams_eq_ok_iff.2 h), State.complete_eq]

/-- Settles O44: each check of the derivation in its order. -/
theorem pbuildReportsFirstFailingCheck : Obligations.PbuildReportsFirstFailingCheck := by
  intro s w hw
  have entered (sub : BitVec 8) (h : deriveParams s.params s.cfg = .error (raised .param sub)) :
      exec .pbuild s = .next (afterError s w 7 sub.toNat 0) :=
    State.enterError_raised hw .param sub ▸ exec_pbuild_error h
  refine ⟨fun h => ?logn, fun hlogn h => ?chain, fun hlogn hone hmax => ⟨fun h => ?plaintext, fun t ht htfits =>
    ⟨fun h => ?product, fun r hlen hr hprod h => ?first⟩⟩⟩
  case logn => exact entered 1 (deriveParams_logn_high h)
  case chain => exact entered 2 (deriveParams_chain_range hlogn h)
  case plaintext => exact entered 3 (deriveParams_no_plaintext hlogn hone hmax h)
  case product => exact entered 4 (deriveParams_no_chain hlogn hone hmax ht htfits h)
  case first => exact entered 6 (deriveParams_first_small hlogn hone hmax ht htfits hlen hr hprod h)

/-- Settles O45, by the end of the derivation; of the other commands none commits to the parameter set. -/
theorem pbuildReplacesAllOrNothing : Obligations.PbuildReplacesAllOrNothing := by
  intro s t h
  have others : ∀ i u, i ≠ .pbuild → exec i s = .next u → SameParams s u := fun i u hi hu => exec_sameParams hu hi
  rcases exec_pbuild_cases h with ⟨set, hset, rfl⟩ | ⟨e, rfl⟩
  · exact ⟨rfl, rfl, .inr ⟨deriveParams_eq_ok_iff.1 hset, rfl, rfl⟩, others⟩
  · exact ⟨rfl, rfl, .inl ⟨rfl, rfl, rfl⟩, others⟩

end Sys2Proof.Machine
end

section
/-! The transform commands and the laws of the transforms (43_ntt.md R190 to R198): ROOT, NTTF and NTTI store the canonical root
and the sums of R193 and R195, the two transforms undo each other, and the forward one takes the negacyclic product to the
pointwise product. -/

namespace Sys2Proof.Machine

/-! The sums the model computes, with powers in place of powers modulo `q` (R193, R195). -/

/-- Powers reduced modulo `q` give the same sum modulo `q`. -/
theorem sumTo_powMod_modEq (n : Nat) (c : Nat → Int) (x : Nat) (e : Nat → Nat) (q : Nat) :
    sumTo n (fun j => c j * powMod x (e j) q) ≡ ∑ j ∈ Finset.range n, c j * (x : Int) ^ e j [ZMOD q] := by
  rw [sumTo_eq_sum]
  refine Int.ModEq.sum fun j _ => Int.ModEq.mul_left _ ?_
  rw [powMod_eq, Int.natCast_mod, Nat.cast_pow]
  exact Int.mod_modEq _ _

theorem ntt_eq_sum (a : Nat → Int) (q k i : Nat) :
    ntt a q k i = (∑ j ∈ Finset.range (2 ^ k), a j % q * (canonicalRoot q k : Int) ^ ((2 * i + 1) * j)) % q :=
  sumTo_powMod_modEq _ _ _ _ q

theorem intt_eq_sum (a : Nat → Int) (q k j : Nat) :
    intt a q k j = inverse (2 ^ k) q *
      (∑ i ∈ Finset.range (2 ^ k), a i % q * (inverse (canonicalRoot q k) q : Int) ^ ((2 * i + 1) * j)) % q :=
  (sumTo_powMod_modEq _ _ _ _ q).mul_left _

theorem ntt_emod (a : Nat → Int) (q k i : Nat) : ntt a q k i % q = ntt a q k i := Int.emod_emod_of_dvd _ dvd_rfl

theorem intt_emod (a : Nat → Int) (q k j : Nat) : intt a q k j % q = intt a q k j := Int.emod_emod_of_dvd _ dvd_rfl

/-- The inverse transform reads the first `2^k` entries only. -/
theorem intt_congr {q k : Nat} {a b : Nat → Int} (h : ∀ i < 2 ^ k, a i = b i) (j : Nat) : intt a q k j = intt b q k j := by
  rw [intt_eq_sum, intt_eq_sum, Finset.sum_congr rfl fun i hi => by rw [h i (Finset.mem_range.1 hi)]]

/-! The inverses that NTTI uses (R195). -/

/-- An inverse modulo `m` of a number coprime to `m`, in its range. -/
theorem inverse_spec_of_coprime {n m : Nat} (h2 : 2 ≤ m) (h : Nat.Coprime n m) :
    1 ≤ inverse n m ∧ inverse n m < m ∧ (n : Int) * inverse n m % m = 1 := by
  have hmod : inverse ((n : Int) % m).toNat m = inverse n m := by
    rw [← Int.natCast_mod, Int.toNat_natCast, inverse, inverse, Nat.mod_mod]
  obtain ⟨hpos, hmul⟩ := inverse_spec h2 ((Int.gcd_natCast_natCast n m).trans h)
  exact ⟨hmod ▸ hpos, inverse_lt n (by omega), hmod ▸ hmul⟩

theorem coprime_canonicalRoot {q k : Nat} [Fact q.Prime] (h : q % 2 ^ (k + 1) = 1) : Nat.Coprime (canonicalRoot q k) q := by
  obtain ⟨hpos, hle, -, -⟩ := canonicalRoot_spec h
  exact (Nat.coprime_of_lt_prime (by omega) (by omega) Fact.out).symm

theorem coprime_transformLength {q k : Nat} (h : q % 2 ^ (k + 1) = 1) : Nat.Coprime (2 ^ k) q := by
  have hcop : Nat.Coprime (2 ^ (k + 1)) q := by rw [Nat.Coprime, Nat.gcd_rec, h, Nat.gcd_one_left]
  exact hcop.coprime_dvd_left (pow_dvd_pow 2 k.le_succ)

/-! The inverse transform undoes the forward one (R197). -/

/-- The matrix of the forward sum at the odd powers of `x` (R193); the inverse sum (R195) has its transpose at `x⁻¹`. -/
def oddPowers {F : Type} [Field F] (x : F) (n : Nat) : Matrix (Fin n) (Fin n) F :=
  Matrix.of fun i j => x ^ ((2 * i.val + 1) * j.val)

section
variable {F : Type} [Field F] (x : F) {n : Nat} (a : Nat → F)

theorem oddPowers_mulVec (i : Fin n) :
    (oddPowers x n).mulVec (fun l => a l) i = ∑ l ∈ Finset.range n, a l * x ^ ((2 * i.val + 1) * l) := by
  rw [← Fin.sum_univ_eq_sum_range fun l => a l * x ^ ((2 * i.val + 1) * l)]
  simp only [Matrix.mulVec, dotProduct, oddPowers, Matrix.of_apply, mul_comm (a _)]

theorem oddPowers_transpose_mulVec (j : Fin n) :
    (oddPowers x n).transpose.mulVec (fun i => a i) j = ∑ i ∈ Finset.range n, a i * x ^ ((2 * i + 1) * j.val) := by
  rw [← Fin.sum_univ_eq_sum_range fun i => a i * x ^ ((2 * i + 1) * j.val)]
  simp only [Matrix.mulVec, dotProduct, oddPowers, Matrix.transpose_apply, Matrix.of_apply, mul_comm (a _)]

end

section
variable {F : Type} [Field F] {psi : F} {n : Nat} [NeZero n] (hpsi : IsPrimitiveRoot psi (2 * n))
include hpsi

theorem oddPowers_mul_transpose_inv : oddPowers psi n * ((n : F)⁻¹ • (oddPowers psi⁻¹ n).transpose) = 1 := by
  ext i l
  have hrow := sum_rootPow_mul_invPow hpsi i.isLt l.isLt
  rw [← Fin.sum_univ_eq_sum_range fun j => psi ^ ((2 * i.val + 1) * j) * psi⁻¹ ^ ((2 * l.val + 1) * j)] at hrow
  rw [Matrix.mul_smul, Matrix.smul_apply, Matrix.mul_apply, Matrix.one_apply]
  simp only [oddPowers, Matrix.transpose_apply, Matrix.of_apply, hrow, Fin.val_inj, smul_eq_mul]
  split
  · exact inv_mul_cancel₀ (natCast_ne_zero_of_isPrimitiveRoot hpsi)
  · exact mul_zero _

/-- The scaled inverse sum of the forward sums gives an entry back: a right inverse of a square matrix is a left inverse. -/
theorem inverse_forward_sum (a : Nat → F) {j : Nat} (hj : j < n) :
    (n : F)⁻¹ * ∑ i ∈ Finset.range n, (∑ l ∈ Finset.range n, a l * psi ^ ((2 * i + 1) * l)) * psi⁻¹ ^ ((2 * i + 1) * j) =
      a j := by
  have hleft := mul_eq_one_comm.1 (oddPowers_mul_transpose_inv hpsi)
  calc _ = ((n : F)⁻¹ • (oddPowers psi⁻¹ n).transpose).mulVec ((oddPowers psi n).mulVec fun l => a l) ⟨j, hj⟩ := by
        rw [Matrix.smul_mulVec, Pi.smul_apply, funext (oddPowers_mulVec psi a), smul_eq_mul,
          oddPowers_transpose_mulVec psi⁻¹ fun i => ∑ l ∈ Finset.range n, a l * psi ^ ((2 * i + 1) * l)]
    _ = a j := by rw [Matrix.mulVec_mulVec, hleft, Matrix.one_mulVec]

end

theorem intt_ntt {q k : Nat} [Fact q.Prime] (h : q % 2 ^ (k + 1) = 1) (a : Nat → Int) {j : Nat} (hj : j < 2 ^ k) :
    intt (ntt a q k) q k j = a j % q := by
  have hcast : (intt (ntt a q k) q k j : ZMod q) = a j := by
    rw [intt_cast h, ← inverse_forward_sum (canonicalRoot_isPrimitiveRoot h) (fun l => (a l : ZMod q)) hj]
    simp only [ntt_cast]
  rw [← intt_emod, ← ZMod.intCast_eq_intCast_iff', hcast]

/-! The convolution theorem (R198). -/

section
variable {R : Type} [CommRing R] {x : R} {n : Nat} (hx : x ^ n = -1)
include hx

/-- Where `x^n = -1`, reducing `X^e` modulo `X^n + 1` keeps its value at `x`. -/
theorem sum_wrapSign_mul_pow {e : Nat} (he : e < 2 * n) :
    ∑ k ∈ Finset.range n, (wrapSign n k e : R) * x ^ k = x ^ e := by
  rw [Finset.sum_congr rfl fun k hk => by rw [wrapSign_eq (Finset.mem_range.1 hk)]]
  split
  case isTrue hlt => simp [hlt]
  case isFalse hge =>
    have hwrapped : e - n < n := by omega
    calc _ = -x ^ (e - n) := by simp [hwrapped]
      _ = x ^ n * x ^ (e - n) := by rw [hx, neg_one_mul]
      _ = x ^ e := by rw [← pow_add, Nat.add_sub_cancel' (by omega)]

/-- So the negacyclic product takes, at `x`, the product of its factors' values. -/
theorem sum_schoolbook_mul_pow (a b : Nat → Int) :
    ∑ k ∈ Finset.range n, (schoolbook a b n k : R) * x ^ k =
      (∑ i ∈ Finset.range n, (a i : R) * x ^ i) * ∑ j ∈ Finset.range n, (b j : R) * x ^ j := by
  calc _ = ∑ k ∈ Finset.range n, ∑ i ∈ Finset.range n, ∑ j ∈ Finset.range n,
          (a i : R) * b j * (wrapSign n k (i + j) * x ^ k) := by
        simp only [schoolbook_eq_sum, Int.cast_sum, Int.cast_mul, Finset.sum_mul]
        exact Finset.sum_congr rfl fun _ _ => Finset.sum_congr rfl fun _ _ => Finset.sum_congr rfl fun _ _ => by ring
    _ = ∑ i ∈ Finset.range n, ∑ j ∈ Finset.range n,
          (a i : R) * b j * ∑ k ∈ Finset.range n, wrapSign n k (i + j) * x ^ k := by
        rw [Finset.sum_comm]
        simp only [Finset.mul_sum]
        exact Finset.sum_congr rfl fun _ _ => Finset.sum_comm
    _ = ∑ i ∈ Finset.range n, ∑ j ∈ Finset.range n, (a i : R) * x ^ i * (b j * x ^ j) := by
        refine Finset.sum_congr rfl fun i hi => Finset.sum_congr rfl fun j hj => ?_
        rw [Finset.mem_range] at hi hj
        rw [sum_wrapSign_mul_pow hx (by omega), pow_add, mul_mul_mul_comm]
    _ = _ := (Finset.sum_mul_sum ..).symm

end

section
variable {q k : Nat} [Fact q.Prime] (h : q % 2 ^ (k + 1) = 1)
include h

theorem canonicalRoot_oddPow_pow (i : Nat) : ((canonicalRoot q k : ZMod q) ^ (2 * i + 1)) ^ 2 ^ k = -1 := by
  obtain ⟨-, -, hroot, -⟩ := canonicalRoot_spec h
  rw [pow_right_comm, natCast_pow_eq_neg_one_iff.2 hroot, Odd.neg_one_pow ⟨i, rfl⟩]

theorem ntt_negacyclic (a b : Nat → Int) (i : Nat) :
    ntt (negacyclic a b (2 ^ k)) q k i = ntt a q k i * ntt b q k i % q := by
  have hcast : (ntt (negacyclic a b (2 ^ k)) q k i : ZMod q) = (ntt a q k i * ntt b q k i : Int) := by
    rw [Int.cast_mul, ntt_cast, ntt_cast, ntt_cast]
    simp only [pow_mul]
    rw [← sum_schoolbook_mul_pow (canonicalRoot_oddPow_pow h i)]
    exact Finset.sum_congr rfl fun l hl => by rw [negacyclic_eq_schoolbook (Finset.mem_range.1 hl)]
  rw [← ntt_emod, ← ZMod.intCast_eq_intCast_iff', hcast]

end

/-! The command. -/

theorem exec_root_ok {s : State} {ms : ModSel} {m : Int} {k : BitVec 8} (hk : k.toNat ≤ s.params.lognMax)
    (hm : Selects s ms m) (hp : IsPrime m.toNat) (ho : m.toNat % 2 ^ (k.toNat + 1) = 1) (rd : SReg) :
    exec (.root rd ms k) s = .next (s.writeScalar rd (canonicalRoot m.toNat k.toNat)).complete := by
  have h2 : 2 ≤ m := by
    have := hp.1
    omega
  have hroot : s.rootModulus ms k.toNat = .ok m.toNat := State.primeModulus_ok hm h2 ((isPrime_iff_isPrime _).2 hp) ho
  simp [exec, execRoot, hk, hroot]

/-! The statements. -/

/-- Settles O50: ROOT stores the root its search finds, which is the canonical one. -/
theorem rootStoresCanonicalRoot : Obligations.RootStoresCanonicalRoot := by
  intro s rd ms k m hk hm hp ho
  have : Fact m.toNat.Prime := ⟨(isPrime_iff_natPrime _).1 hp⟩
  exact ⟨_, _, canonicalRoot_spec ho, exec_root_ok hk hm hp ho rd, s.scalarWritten rd _⟩

/-- Settles O51: NTTF stores the forward transform, which is the sum of R193 at the canonical root. -/
theorem nttfEvaluatesAtOddPowers : Obligations.NttfEvaluatesAtOddPowers := by
  intro s rd a ms q hrd ha hv hm hp ho n
  have : Fact q.toNat.Prime := ⟨(isPrime_iff_natPrime _).1 hp⟩
  have hexec := exec_nttf_ok hrd ha hv hm hp ho
  lift q to Nat using by have := hp.1; omega
  exact ⟨_, _, canonicalRoot_spec ho, hexec, (s.lanesWritten rd n _).congr fun i _ => ntt_eq_sum (s.coeff a) q _ i⟩

/-- Settles O52: NTTI stores the inverse transform, with the two inverses of R195 in their range. -/
theorem nttiInterpolates : Obligations.NttiInterpolates := by
  intro s rd a ms q hrd ha hv hm hp ho n
  have : Fact q.toNat.Prime := ⟨(isPrime_iff_natPrime _).1 hp⟩
  have hexec := exec_ntti_ok hrd ha hv hm hp ho
  have h2 := hp.1
  lift q to Nat using by omega
  obtain ⟨hpsi, hpsi', hpsiMul⟩ := inverse_spec_of_coprime h2 (coprime_canonicalRoot ho)
  obtain ⟨hn, hn', hnMul⟩ := inverse_spec_of_coprime h2 (coprime_transformLength ho)
  exact ⟨_, _, _, _, canonicalRoot_spec ho, by omega, by omega, hpsiMul, by omega, by omega, hnMul,
    hexec, (s.lanesWritten rd n _).congr fun j _ => intt_eq_sum (s.coeff a) q _ j⟩

/-- Settles O53: the orthogonality of the rows gives the one inversion, that of a square matrix the other. -/
theorem transformsInvertEachOther : Obligations.TransformsInvertEachOther := by
  intro q k a hp ho j hj
  have : Fact q.Prime := ⟨(isPrime_iff_natPrime _).1 hp⟩
  have hq : (0 : Int) < q := by exact_mod_cast (Fact.out : q.Prime).pos
  have hrange (x : Int) : 0 ≤ x % q ∧ x % q < q := ⟨Int.emod_nonneg x hq.ne', Int.emod_lt_of_pos x hq⟩
  exact ⟨intt_ntt ho a hj, ntt_intt ho a hj, hrange _, hrange _⟩

/-- Settles O54: the odd powers of the canonical root are roots of `X^N + 1`, where the negacyclic product takes the product of
its factors' values; the inverse transform then gives the product back. -/
theorem negacyclicConvolutionTheorem : Obligations.NegacyclicConvolutionTheorem := by
  intro q k a b hp ho i hi
  have : Fact q.Prime := ⟨(isPrime_iff_natPrime _).1 hp⟩
  refine ⟨ntt_negacyclic ho a b i, ?_⟩
  rw [← intt_congr fun j _ => ntt_negacyclic ho a b j, intt_ntt ho _ hi]

end Sys2Proof.Machine
end

section
/-! The element-wise commands (44_elementwise.md R209 to R221): how each one ends, with its parameters missing and past its checks;
O31 and O56 to O59 follow. -/

namespace Sys2Proof.Machine

/-! Without parameters: NOPARAM comes after the buffers and before the selector (60_exceptions.md R251, R252). -/

section
variable {s : State} {rd a b : PBuf} (hv : s.csr.pvalid = false) (hrd : HasBuffer s rd) (ha : HasBuffer s a)
include hv hrd ha

theorem State.mapLanes_noparam (ms : ModSel) (f : Int → Int → Int) :
    s.mapLanes rd a ms f = .error (raised .noparam 0) := by
  simp [State.mapLanes, State.needBuffer_ok _ hrd, State.needBuffer_ok _ ha, State.needPn_error hv]

theorem State.zipLanes_noparam (hb : HasBuffer s b) (ms : ModSel) (f : Int → Int → Int) :
    s.zipLanes rd a b ms f = .error (raised .noparam 0) := by
  simp [State.zipLanes, State.needBuffer_ok _ hrd, State.needBuffer_ok _ ha, State.needBuffer_ok _ hb, State.needPn_error hv]

theorem exec_map_noparam (x : SReg) (ms : ModSel) :
    ∀ i ∈ [Instr.pred rd a ms, .pctr rd a ms, .pnegm rd a ms, .pscalm rd a x ms],
      exec i s = .next (s.enterError (raised .noparam 0)) := by
  simp [exec, execPred, execPctr, execPnegm, execPscalm, State.mapLanes_noparam hv hrd ha]

theorem exec_zip_noparam (hb : HasBuffer s b) (ms : ModSel) :
    ∀ i ∈ [Instr.paddm rd a b ms, .psubm rd a b ms, .pmulew rd a b ms],
      exec i s = .next (s.enterError (raised .noparam 0)) := by
  simp [exec, execPaddm, execPsubm, execPmulew, State.zipLanes_noparam hv hrd ha hb]

theorem exec_product_noparam (hb : HasBuffer s b) (ms : ModSel) :
    ∀ i ∈ [Instr.pmul rd a b, .pmulm rd a b ms], exec i s = .next (s.enterError (raised .noparam 0)) := by
  simp [exec, execPmul, execPmulm, State.needBuffer_ok _ hrd, State.needBuffer_ok _ ha, State.needBuffer_ok _ hb,
    State.needPn_error hv]

theorem exec_transform_noparam (ms : ModSel) :
    ∀ i ∈ [Instr.nttf rd a ms, .ntti rd a ms], exec i s = .next (s.enterError (raised .noparam 0)) := by
  simp [exec, execNttf, execNtti, State.needBuffer_ok _ hrd, State.needBuffer_ok _ ha, State.needPn_error hv]

theorem exec_prndmul_noparam (num den : SReg) (ms : ModSel) :
    exec (.prndmul rd a num den ms) s = .next (s.enterError (raised .noparam 0)) := by
  simp [exec, execPrndmul, State.needBuffer_ok _ hrd, State.needBuffer_ok _ ha, State.needPn_error hv]

end

/-! Past the checks. -/

theorem exec_nop (s : State) : exec .nop s = .next s.complete := rfl

section
variable {s : State} {rd : PBuf} (hrd : HasBuffer s rd)
include hrd

theorem exec_pzero_ok : exec (.pzero rd) s = .next (s.copyLanes rd (nMax s.params) []).complete := by
  simp [exec, execPzero, State.needBuffer_ok _ hrd]

theorem exec_pcopy_ok {a : PBuf} (ha : HasBuffer s a) :
    exec (.pcopy rd a) s = .next (s.copyLanes rd (nMax s.params) s.bufs[a]).complete := by
  simp [exec, execPcopy, State.needBuffer_ok _ hrd, State.needBuffer_ok _ ha]

variable {a : PBuf} {ms : ModSel} {m : Int} (ha : HasBuffer s a) (hv : s.csr.pvalid = true) (hm : Selects s ms m) (h2 : 2 ≤ m)
include ha hv hm h2

/-- How a command with one source buffer and a modulus ends. -/
theorem State.retire_mapLanes_written (f : Int → Int → Int) :
    ∃ t, s.retire (s.mapLanes rd a ms f) = .next t ∧ LanesWritten s t rd s.pn fun j => f (s.coeff a j) m :=
  ⟨_, congrArg s.retire (State.mapLanes_ok f hrd ha hv hm h2), s.lanesWritten rd _ _⟩

/-- How a command with two source buffers and a modulus ends. -/
theorem State.retire_zipLanes_written {b : PBuf} (hb : HasBuffer s b) (f : Int → Int → Int) :
    ∃ t, s.retire (s.zipLanes rd a b ms f) = .next t ∧ LanesWritten s t rd s.pn fun j => f (s.coeff a j) (s.coeff b j) % m :=
  ⟨_, congrArg s.retire (State.zipLanes_ok f hrd ha hb hv hm h2), s.lanesWritten rd _ _⟩

end

/-! The statements. -/

/-- Settles O31: the check on PVALID stands before the selector in every one of the commands, so the selector is free. -/
theorem polynomialCommandsNeedParameters : Obligations.PolynomialCommandsNeedParameters := by
  intro s w rd a b x y ms hw hv hrd ha hb
  have hmap := exec_map_noparam hv hrd ha x ms
  have hzip := exec_zip_noparam hv hrd ha hb ms
  have hproduct := exec_product_noparam hv hrd ha hb ms
  have htransform := exec_transform_noparam hv hrd ha ms
  have hround := exec_prndmul_noparam hv hrd ha x y ms
  have hentry : s.enterError (raised .noparam 0) = afterError s w 3 0 0 := State.enterError_raised hw .noparam 0
  simp only [List.forall_mem_cons, hentry] at hmap hzip hproduct htransform hround ⊢
  simp [hmap, hzip, hproduct, htransform, hround]

/-- Settles O56: NOP commits the state it began in. -/
theorem nopOnlyCompletes : Obligations.NopOnlyCompletes := by
  intro s
  rw [exec_nop, State.complete_eq]

/-- Settles O57: PZERO copies the empty buffer, whose coefficients are 0. -/
theorem dataMovementCoversWholeBuffers : Obligations.DataMovementCoversWholeBuffers := by
  intro s rd a hrd
  exact ⟨⟨_, exec_pzero_ok hrd, (s.lanesCopied rd _ []).congr fun j _ => Buf.get_nil j⟩,
    fun ha => ⟨_, exec_pcopy_ok hrd ha, s.lanesCopied rd _ s.bufs[a]⟩⟩

/-- Settles O58: in each lane the reduction is the only congruent integer in its range. -/
theorem reductionLanes : Obligations.ReductionLanes := by
  intro s rd a ms m v hrd ha hv hm h2 n hdvd
  refine ⟨fun hrange => ?_, fun hrange => ?_⟩
  · have hlane : ∀ j < n, red (s.coeff a j) m = v j := fun j hj =>
      red_unique (hrange j hj).1 (hrange j hj).2 (hdvd j hj)
    exact ⟨_, exec_pred_ok hrd ha hv hm h2, (s.lanesWritten rd n _).congr hlane⟩
  · have hlane : ∀ j < n, ctr (s.coeff a j) m = v j := fun j hj =>
      ctr_unique (hrange j hj).1 (hrange j hj).2 (hdvd j hj)
    exact ⟨_, exec_pctr_ok hrd ha hv hm h2, (s.lanesWritten rd n _).congr hlane⟩

/-- Settles O59: PADDM, PSUBM and PMULEW zip two buffers, PNEGM and PSCALM map one. -/
theorem modularArithmeticLanes : Obligations.ModularArithmeticLanes := by
  intro s rd a b c ms m hrd ha hb hv hm h2 n
  have hzip := State.retire_zipLanes_written hrd ha hv hm h2 hb
  have hmap := State.retire_mapLanes_written hrd ha hv hm h2
  exact ⟨hzip (· + ·), hzip (· - ·), hzip (· * ·), hmap fun x m => red (-x) m, hmap fun x m => red (s.scalar c * x) m⟩

end Sys2Proof.Machine
end

section
/-! How commands end (60_exceptions.md R250 to R259): the buffer checks every command starts with, what each end leaves in the
control and status registers, and the return from an error; O22, O26 and O30 follow. -/

namespace Sys2Proof.Machine

/-! The buffer checks. -/

/-- The buffers a command names, in the order rd, rs1, rs2 of their checks (R252). -/
def bufferOperands : Instr → List PBuf
  | .findprimes rd _ _ _ | .pzero rd => [rd]
  | .pcopy rd a | .pred rd a _ | .pctr rd a _ | .pnegm rd a _ | .pscalm rd a _ _ | .prndmul rd a _ _ _ | .nttf rd a _
  | .ntti rd a _ => [rd, a]
  | .paddm rd a b _ | .psubm rd a b _ | .pmulew rd a b _ | .pmul rd a b | .pmulm rd a b _ => [rd, a, b]
  | .nop | .pbuild | .findprime .. | .modinv .. | .modred .. | .modctr .. | .rndmul .. | .root .. | .modget .. => []

/-- `x` after the checks that the buffers exist: BADOPND with the sub-cause `sub` for the first, and one more for each next
(R251). -/
def State.withBuffers {α : Type} (s : State) : BitVec 8 → List PBuf → Except CmdError α → Except CmdError α
  | _, [], x => x
  | sub, b :: bs, x => s.needBuffer sub b >>= fun _ => s.withBuffers (sub + 1) bs x

/-- Every command starts with the checks of the buffers it names. -/
theorem exec_eq_retire_withBuffers (i : Instr) (s : State) :
    ∃ x, exec i s = s.retire (s.withBuffers 1 (bufferOperands i) x) := by
  cases i with
  | nop => exact ⟨.ok s, rfl⟩
  | _ => exact ⟨_, rfl⟩

section
variable {s : State} {pre : List PBuf} {b : PBuf} (hpre : ∀ a ∈ pre, HasBuffer s a) (hb : ¬ HasBuffer s b)
include hpre hb

/-- The first missing buffer is reported, with its place as the sub-cause. -/
theorem State.withBuffers_missing {α : Type} (post : List PBuf) (sub : BitVec 8) (x : Except CmdError α) :
    s.withBuffers sub (pre ++ b :: post) x = .error (raised .badopnd (sub + BitVec.ofNat 8 pre.length)) := by
  induction pre generalizing sub with
  | nil => simp [State.withBuffers, State.needBuffer_error sub hb]
  | cons a pre ih =>
    rw [List.forall_mem_cons] at hpre
    obtain ⟨ha, hpre⟩ := hpre
    have hplace : sub + 1 + BitVec.ofNat 8 pre.length = sub + BitVec.ofNat 8 (a :: pre).length := by
      rw [List.length_cons, Nat.add_comm, BitVec.ofNat_add, BitVec.add_assoc]
      rfl
    rw [List.cons_append, State.withBuffers, State.needBuffer_ok sub ha, Except.bind_ok, ih hpre, hplace]

theorem exec_missing_buffer {i : Instr} (hi : pre ++ [b] <+: bufferOperands i) :
    exec i s = .next (s.enterError (raised .badopnd (1 + BitVec.ofNat 8 pre.length))) := by
  obtain ⟨post, hpost⟩ := hi
  obtain ⟨x, hx⟩ := exec_eq_retire_withBuffers i s
  rw [hx, ← hpost, List.append_assoc, List.singleton_append, State.withBuffers_missing hpre hb, State.retire_error]

end

/-! The end of a command. -/

theorem exec_next (i : Instr) (s : State) : ∃ t, exec i s = .next t := by
  obtain ⟨r, hr, -⟩ := exec_retires i s
  rw [hr]
  exact s.retire_next r

/-- Of the control and status registers a successful command writes PVALID alone, and only if it is PBUILD (R25). -/
theorem Commits.csr_eq {i : Instr} {s u : State} (h : Commits i s u) :
    u.csr = { s.csr with pvalid := s.csr.pvalid || decide (i = .pbuild) } := by
  cases h with
  | params hi | nothing hi => simp [hi]
  | scalar rd hrd | lanes rd hrd | copy rd hrd =>
    have hi : i ≠ .pbuild := by
      rintro rfl
      cases hrd
    simp [hi]

/-- The entry of a listed error, in the numbers of the error table. -/
theorem CmdError.Listed.enterError_eq {s : State} {w : Word} {e : CmdError} (he : e.Listed s.params.lMax)
    (hw : s.pending = some w) :
    ∃ e' ∈ listedErrors, ∃ idx ≤ s.params.lMax, (idx = 0 ∨ e' = (7, 6) ∨ e' = (7, 7)) ∧
      s.enterError e = afterError s w e'.1 e'.2 idx := by
  obtain ⟨hmem, hidx, hle⟩ := he
  refine ⟨_, hmem, e.idx.toNat, hle, hidx.imp_left fun h0 => ?_, State.enterError_eq hw e⟩
  rw [h0]
  rfl

/-! The return from an error. -/

/-- A write to STATUS, flag by flag (10_state.md R26). -/
theorem Csr.writeStatus_eq (c : Csr) (w : Word) : c.writeStatus w =
    { c with
      done := if w.getLsbD 1 then false else c.done
      err := if w.getLsbD 2 then false else c.err
      aerr := if w.getLsbD 4 then false else c.aerr
      haz := if w.getLsbD 5 then false else c.haz } := by
  have cleared (flag bit : Bool) : (flag && !bit) = if bit then false else flag := by cases bit <;> simp
  simp only [Csr.writeStatus, bitOf, cleared]

/-! The statements. -/

/-- Settles O26: success leaves what the command committed, and an error it raised is a listed one. -/
theorem commandEndsInSuccessOrErrorEntry : Obligations.CommandEndsInSuccessOrErrorEntry := by
  intro i s w hw
  obtain ⟨t, ht⟩ := exec_next i s
  refine ⟨t, ht, ?_⟩
  rcases exec_cases ht with ⟨u, hu, rfl⟩ | ⟨e, he, rfl⟩
  · refine .inr ⟨rfl, ?_⟩
    rw [State.complete_csr, hu.csr_eq]
    rfl
  · exact .inl (he.enterError_eq hw)

/-- Settles O22. -/
theorem statusWriteClearsFlags : Obligations.StatusWriteClearsFlags := by
  intro s w hr
  rw [State.hostWrite_register hr (loc := .status) (by decide), State.writeAt, State.returnFromError, Csr.writeStatus_eq]

/-- Settles O30: in each list the missing buffer stands at one place of the operands, with existing ones before it. -/
theorem missingBufferIsReportedFirst : Obligations.MissingBufferIsReportedFirst := by
  intro s w rd a b x y ms qty hw
  have entered (sub : BitVec 8) := State.enterError_raised hw .badopnd sub
  refine ⟨fun hrd i hi => ?rd, fun hrd ha i hi => ?rs1, fun hrd ha hb i hi => ?rs2⟩
  case rd =>
    refine entered 1 ▸ exec_missing_buffer (pre := []) (by simp) hrd ?_
    revert i
    simp [bufferOperands]
  case rs1 =>
    refine entered 2 ▸ exec_missing_buffer (pre := [rd]) (by simpa using hrd) ha ?_
    revert i
    simp [bufferOperands]
  case rs2 =>
    refine entered 3 ▸ exec_missing_buffer (pre := [rd, a]) (by simpa using ⟨hrd, ha⟩) hb ?_
    revert i
    simp [bufferOperands]

end Sys2Proof.Machine
end

section
/-! Reset and hazards (70_reset_and_hazards.md): bus accesses and the engine's turn while the reset input is asserted (R300), and
the independence of a command's result from the model's own fields (R320); O11 and O29 follow. -/

namespace Sys2Proof.Machine

variable {s : State}

/-! The asserted reset input. -/

section
variable (hr : s.resetPin = true)
include hr

theorem State.hostWrite_inReset (width : Width) (o : Offset) (w : Word) : s.hostWrite width o w = s := by
  rw [State.hostWrite, if_pos hr]

theorem State.hostRead_inReset (width : Width) (o : Offset) : s.hostRead width o = s.answerFree := by
  rw [State.hostRead, if_pos hr]

theorem State.engineTurn_inReset : s.engineTurn = .next s := by
  rw [State.engineTurn, if_pos hr]

end

/-- Settles O11: the one effect of a read is its free answer. -/
theorem assertedResetIgnoresAccesses : Obligations.AssertedResetIgnoresAccesses := by
  intro s width o w hr
  refine ⟨State.hostWrite_inReset hr width o w, State.engineTurn_inReset hr, ?_⟩
  rw [State.hostRead_inReset hr]
  rfl

/-! The model's own fields. -/

/-- `s` with the schedule `l`, the bus answer `d` and the next free value's number `n`: the fields that stand for what the host and
the platform do and for what the spec leaves open (log entries 3, 4 and 6). -/
def State.withSources (s : State) (l : List Turn) (d : Word) (n : Nat) : State :=
  { s with schedule := l, busData := d, freeCount := n }

/-- `x` is the same whatever those fields hold. -/
def Unread {α : Type} (x : State → α) : Prop := ∀ s l d n, x (s.withSources l d n) = x s

/-- `g` neither reads those fields nor changes them. -/
def Untouched (g : State → State) : Prop := ∀ s l d n, g (s.withSources l d n) = (g s).withSources l d n

/-- A computation that neither reads those fields nor changes them, whether it succeeds or raises. -/
def Blind (r : State → Except CmdError State) : Prop :=
  ∀ s l d n, r (s.withSources l d n) = (r s).map (·.withSources l d n)

/-! One rule per part of a command. That the checks, values and writes of the part look past those fields holds by `rfl`: they are
functions of the state's other fields, so the rules fill the proof in where they are used. -/

theorem Blind.ok {g : State → State} (hg : Untouched g := by exact fun _ _ _ _ => rfl) : Blind fun s => .ok (g s) :=
  fun s l d n => congrArg Except.ok (hg s l d n)

theorem Blind.bind {α : Type} {x : State → Except CmdError α} {f : State → α → Except CmdError State}
    (hf : ∀ a, Blind fun s => f s a) (hx : Unread x := by exact fun _ _ _ _ => rfl) : Blind fun s => x s >>= f s :=
  fun s l d n => by
    dsimp only
    rw [hx s l d n]
    cases x s with
    | ok a => exact hf a s l d n
    | error e => rfl

/-- A write that is made only where its values fit. -/
theorem Blind.checked {fit : State → Bool} {e : CmdError} {g : State → State}
    (hfit : Unread fit := by exact fun _ _ _ _ => rfl) (hg : Untouched g := by exact fun _ _ _ _ => rfl) :
    Blind fun s => if fit s then .ok (g s) else .error e := fun s l d n => by
  dsimp only
  rw [hfit s l d n, hg s l d n]
  cases fit s <;> rfl

/-- Every command ends by retiring a computation that neither reads nor changes the model's own fields. -/
theorem exec_retires_blind (i : Instr) : ∃ r, (∀ s, exec i s = s.retire (r s)) ∧ Blind r := by
  cases i with
  | nop => exact ⟨_, fun _ => rfl, .ok⟩
  | pbuild | findprime | modred | modctr | modget | pzero => exact ⟨_, fun _ => rfl, .bind fun _ => .ok⟩
  | modinv | root | pcopy => exact ⟨_, fun _ => rfl, .bind fun _ => .bind fun _ => .ok⟩
  | findprimes => exact ⟨_, fun _ => rfl, .bind fun _ => .bind fun _ => .bind fun _ => .ok⟩
  | pred | pctr | pnegm | pscalm | nttf | ntti =>
    exact ⟨_, fun _ => rfl, .bind fun _ => .bind fun _ => .bind fun _ => .bind fun _ => .ok⟩
  | paddm | psubm | pmulew | pmulm =>
    exact ⟨_, fun _ => rfl, .bind fun _ => .bind fun _ => .bind fun _ => .bind fun _ => .bind fun _ => .ok⟩
  | rndmul => exact ⟨_, fun _ => rfl, .bind fun _ => .bind fun _ => .checked⟩
  | pmul => exact ⟨_, fun _ => rfl, .bind fun _ => .bind fun _ => .bind fun _ => .bind fun _ => .checked⟩
  | prndmul =>
    exact ⟨_, fun _ => rfl, .bind fun _ => .bind fun _ => .bind fun _ => .bind fun _ => .bind fun _ => .checked⟩

/-- Neither the end by success nor the error entry reads or changes those fields. -/
theorem State.retire_withSources {t : State} {r : Except CmdError State} (h : s.retire r = .next t) (l : List Turn) (d : Word)
    (n : Nat) : (s.withSources l d n).retire (r.map (·.withSources l d n)) = .next (t.withSources l d n) := by
  rcases State.retire_cases h with ⟨u, rfl, rfl⟩ | ⟨e, rfl, rfl⟩ <;> rfl

/-- Settles O29: the computation and the end of the command are both blind to those fields. -/
theorem commandsReadNoHiddenSource : Obligations.CommandsReadNoHiddenSource := by
  intro i s t l d n h
  obtain ⟨r, hr, hblind⟩ := exec_retires_blind i
  change exec i (s.withSources l d n) = _
  rw [hr, hblind s l d n]
  exact State.retire_withSources (hr s ▸ h) l d n

end Sys2Proof.Machine
end
